-- ==== Sys2Proof/Word.lean ====
section
/-! DEFINITION. The words of the doomfire CORE: register words, host-memory bytes, drift values and
pixels (00_scope.md R7, R9; 10_state.md R42). A grid level is a natural number: its width is a
parameter, `CELL_BITS`, and stands in the grid's canonical form, `gridWf` (10_state.md R40). -/

namespace Sys2Proof

/-- A register word: 32 bits (00_scope.md R10). -/
abbrev Word := BitVec 32

/-- A byte of host memory (20_memory.md R62). -/
abbrev Byte := BitVec 8

/-- The hottest level, `IMAX` = 36 (00_scope.md R7). -/
abbrev maxLevel : Nat := 36

/-- A drift value, in {0, 1, 2, 3} (41_step.md R156). -/
abbrev Drift := BitVec 2

/-- A byte offset into the 64-byte register window (10_state.md R21). -/
abbrev Offset := BitVec 6

/-- One colour, four bytes in the order R, G, B, A (10_state.md R42). -/
structure Pixel where
  r : Byte
  g : Byte
  b : Byte
  a : Byte
  deriving DecidableEq, Repr, Inhabited

end Sys2Proof
end

