-- ==== Sys2Proof/Config.lean ====
section
/-! DEFINITION. The parameters of 00_scope.md R7, and the values the spec leaves open for good: the
RNG (92_eei_decisions.md D18), the palette entries 1 to 35 (D26), what host memory held before
anything was written, and what the notation of host programs gives no value. Every operation of the
machine takes a `Config` as an argument (10_state.md R20); `Config.chip` is the one the host's
machine is built on. -/

namespace Sys2Proof

/-- What the notation of host programs leaves without a value (00_scope.md R9; 30_encoding.md R98;
entry 16). -/
inductive Unstated where
  /-- The value of a name that nothing has bound. -/
  | name (k : Nat)
  /-- `v[hi:lo]` of a negative `v`, or with `hi < lo`. -/
  | slice (v : Int) (hi lo : Nat)
  /-- `x & y` with a negative operand. -/
  | band (x y : Int)
  /-- `x / y` with a negative operand or with `y = 0`. -/
  | quotient (x y : Int)
  /-- `x % y` with a negative operand or with `y = 0`. -/
  | remainder (x y : Int)
  /-- `v[k]` of a negative `v`. -/
  | bit (v : Int) (k : Nat)
  /-- The 32-bit form of a value outside of [0, 2^32). -/
  | word (v : Int)
  /-- Where a `goto` to a label goes that no statement carries, or several. -/
  | label (l : Nat)
  deriving DecidableEq, Repr

/-- The parameters of 00_scope.md R7. `LATENCY` is no field: the model has no time and no rule
depends on it (entry 19). `NLEV` and `IMAX` are no parameters: `maxLevel`. -/
structure Config where
  /-- `MAX_CELLS`: capacity of the grid RAM, in cells. -/
  maxCells : Nat
  /-- `CELL_BITS`: width of one grid cell. -/
  cellBits : Nat
  /-- `IDX_BITS`: width of the unsigned destination-index arithmetic. -/
  idxBits : Nat
  /-- `ADDR_BITS`: width of a host-memory byte address. -/
  addrBits : Nat
  /-- `UBITS`: width of the word the RNG yields per draw. -/
  ubits : Nat
  /-- `REG_BASE`: host address of the register window. -/
  regBase : Nat
  /-- The ranges (base, length in bytes) the platform maps to devices with side effects
  (20_memory.md R70). -/
  devices : List (Nat × Nat)
  /-- `COHERENT`: whether the platform keeps RENDER's writes coherent with host caches
  (20_memory.md R78). -/
  coherent : Bool
  /-- `RNG.seed` (41_step.md R158; 10_state.md R46). -/
  rngSeed : Word → Nat
  /-- `RNG.next`: the word drawn and the next state. It is the draw source's answers, passed to the
  step as an argument (41_step.md R158; 10_state.md R20; entry 3). -/
  rngNext : Nat → BitVec ubits × Nat
  /-- `PALETTE[1..35]` (10_state.md R44); read at these levels only. -/
  palette : Nat → Pixel
  /-- What a byte of host memory holds before anything has written it (entry 9). -/
  memInit : Nat → Byte
  /-- What stands for a value the notation of host programs does not give (entry 16). -/
  unstated : Unstated → Int

/-- FREE VALUE (entry 2): the seeding function of the OPEN parameter `RNG`. No body. -/
opaque Config.freeSeed : Word → Nat

/-- FREE VALUE (entries 2 and 3): the next function of the OPEN parameter `RNG`. No body. -/
opaque Config.freeNext : Nat → BitVec 32 × Nat

/-- FREE VALUE (entry 4): the palette entries 1 to 35, which the source does not give. No body. -/
opaque Config.freePalette : Nat → Pixel

/-- FREE VALUE (entry 9): host memory before anything has written it. No body. -/
opaque Config.freeMemory : Nat → Byte

/-- FREE VALUE (entry 16): what the notation of host programs gives no value. No body. -/
opaque Config.freeUnstated : Unstated → Int

/-- The configuration the host's machine is built on: the spec's defaults where it gives one
(00_scope.md R7; entry 1), a free value where the parameter is OPEN or has no normative value, and
a place for the register window with no device beside it (entry 12). -/
def Config.chip : Config where
  maxCells := 65536
  cellBits := 6
  idxBits := 32
  addrBits := 32
  ubits := 32
  regBase := 0x80000000
  devices := []
  coherent := true
  rngSeed := Config.freeSeed
  rngNext := Config.freeNext
  palette := Config.freePalette
  memInit := Config.freeMemory
  unstated := Config.freeUnstated

/-- The non-normative default of `PALETTE[1..35]`, the table of 10_state.md R44 from level 1 up.
The machine does not use it: a claim about these bytes must name this table (R44, R45). -/
def Config.defaultRamp : List Pixel :=
  [ ⟨0x1F, 0x07, 0x07, 0xFF⟩, ⟨0x2F, 0x0F, 0x07, 0xFF⟩, ⟨0x47, 0x0F, 0x07, 0xFF⟩,
    ⟨0x57, 0x17, 0x07, 0xFF⟩, ⟨0x67, 0x1F, 0x07, 0xFF⟩, ⟨0x77, 0x1F, 0x07, 0xFF⟩,
    ⟨0x8F, 0x27, 0x07, 0xFF⟩, ⟨0x9F, 0x2F, 0x07, 0xFF⟩, ⟨0xAF, 0x3F, 0x07, 0xFF⟩,
    ⟨0xBF, 0x47, 0x07, 0xFF⟩, ⟨0xC7, 0x47, 0x07, 0xFF⟩, ⟨0xDF, 0x4F, 0x07, 0xFF⟩,
    ⟨0xDF, 0x57, 0x07, 0xFF⟩, ⟨0xDF, 0x57, 0x07, 0xFF⟩, ⟨0xD7, 0x5F, 0x07, 0xFF⟩,
    ⟨0xD7, 0x5F, 0x07, 0xFF⟩, ⟨0xD7, 0x67, 0x0F, 0xFF⟩, ⟨0xCF, 0x6F, 0x0F, 0xFF⟩ ] ++
  [ ⟨0xCF, 0x77, 0x0F, 0xFF⟩, ⟨0xCF, 0x7F, 0x0F, 0xFF⟩, ⟨0xCF, 0x87, 0x17, 0xFF⟩,
    ⟨0xC7, 0x87, 0x17, 0xFF⟩, ⟨0xC7, 0x8F, 0x17, 0xFF⟩, ⟨0xC7, 0x97, 0x1F, 0xFF⟩,
    ⟨0xBF, 0x9F, 0x1F, 0xFF⟩, ⟨0xBF, 0x9F, 0x1F, 0xFF⟩, ⟨0xBF, 0xA7, 0x27, 0xFF⟩,
    ⟨0xBF, 0xA7, 0x27, 0xFF⟩, ⟨0xBF, 0xAF, 0x2F, 0xFF⟩, ⟨0xB7, 0xAF, 0x2F, 0xFF⟩,
    ⟨0xB7, 0xB7, 0x2F, 0xFF⟩, ⟨0xB7, 0xB7, 0x37, 0xFF⟩, ⟨0xCF, 0xCF, 0x6F, 0xFF⟩,
    ⟨0xDF, 0xDF, 0x9F, 0xFF⟩, ⟨0xEF, 0xEF, 0xC7, 0xFF⟩ ]

/-- The default table as a palette parameter: level `l` is the `l`-th entry, from level 1. -/
def Config.defaultPalette (l : Nat) : Pixel :=
  Config.defaultRamp.getD (l - 1) default

end Sys2Proof
end

