-- ==== Sys2Proof/Syntax.lean ====
section
/-! DEFINITION. The eight commands (30_encoding.md R93), one constructor per row of the opcode
table. A command word holds no operand (R91): all operands are in the latched ARG words (R95). -/

namespace Sys2Proof

/-- The commands of the opcode map (30_encoding.md R93). -/
inductive Instr where
  /-- NEW: construct a field (40_lifecycle.md R121). -/
  | new
  /-- IGNITE: light the bottom row (40_lifecycle.md R126). -/
  | ignite
  /-- EXTINGUISH: cut the heat source (40_lifecycle.md R130). -/
  | extinguish
  /-- STEP: one tick of the update rule (41_step.md R151). -/
  | step
  /-- RENDER: write every cell's colour into host memory (42_render.md R191). -/
  | render
  /-- ISLIT: read the `lit` state (40_lifecycle.md R134). -/
  | islit
  /-- PEEK: read one cell (43_debug.md R221). -/
  | peek
  /-- POKE: write one cell (43_debug.md R226). -/
  | poke
  deriving DecidableEq, Repr

end Sys2Proof
end

