-- ==== Sys2Proof/WellFormed.lean ====
section
/-! DEFINITION. Which command words, commands and configurations are well formed
(30_encoding.md R91, R92; 00_scope.md R8). -/

namespace Sys2Proof

/-- The OP field, `CMD[3:0]` (30_encoding.md R91). -/
def opField (w : Word) : BitVec 4 := w.extractLsb' 0 4

/-- The RSV field, `CMD[31:4]` (30_encoding.md R91). -/
def rsvField (w : Word) : BitVec 28 := w.extractLsb' 4 28

/-- A command word that selects a command: RSV is 0 and OP is one of 0x1 to 0x8
(30_encoding.md R92). -/
def commandWordWf (w : Word) : Bool :=
  rsvField w == 0 && (1 ≤ (opField w).toNat && (opField w).toNat ≤ 8)

/-- Every command is well formed: a command carries no field of its own, and its operands are
checked when it is performed, not before (30_encoding.md R91, R96). -/
def Instr.wf : Instr → Bool
  | .new => true
  | .ignite => true
  | .extinguish => true
  | .step => true
  | .render => true
  | .islit => true
  | .peek => true
  | .poke => true

/-- The constraints of 00_scope.md R8, with the range of `ADDR_BITS` of R7. -/
def Config.wf (c : Config) : Bool :=
  (1 ≤ c.maxCells && c.maxCells ≤ 2 ^ 30 - 1) &&
  (3 * c.maxCells + 2 ≤ 2 ^ c.idxBits) &&
  (3 ≤ c.ubits) &&
  (6 ≤ c.cellBits) &&
  (1 ≤ c.addrBits && c.addrBits ≤ 32)

end Sys2Proof
end

