-- ==== Sys2Proof/Decode.lean ====
section
/-! DEFINITION. Decoding of command words, total and refusing by name (30_encoding.md R92 to R94,
R97), then the encoder, from the same opcode map (R93). -/

namespace Sys2Proof

/-- Why a word selects no command. -/
inductive DecodeError where
  /-- `CMD[31:4]` is not 0 (30_encoding.md R92, R94). -/
  | reservedBits
  /-- OP is 0x0 or 0x9 to 0xF (30_encoding.md R94). -/
  | reservedOp (op : BitVec 4)
  /-- The bytes are not one 32-bit word: no command has another length (30_encoding.md R91, R97). -/
  | wrongLength
  deriving DecidableEq, Repr

/-- The opcode map (30_encoding.md R93). -/
def decodeOp (op : BitVec 4) : Except DecodeError Instr :=
  match op.toNat with
  | 1 => .ok .new
  | 2 => .ok .ignite
  | 3 => .ok .extinguish
  | 4 => .ok .step
  | 5 => .ok .render
  | 6 => .ok .islit
  | 7 => .ok .peek
  | 8 => .ok .poke
  | _ => .error (.reservedOp op)

/-- Decoding of a command word (30_encoding.md R92): the RSV check comes first. -/
def decodeWord (w : Word) : Except DecodeError Instr :=
  if rsvField w ≠ 0 then .error .reservedBits else decodeOp (opField w)

/-- A register word from its four bytes, the least significant at the lowest address
(10_state.md R23). -/
def wordOfBytes (b0 b1 b2 b3 : Byte) : Word := b3 ++ b2 ++ b1 ++ b0

/-- Decoding of the bytes of a CMD write (10_state.md R23; 30_encoding.md R91, R97). -/
def decodeBytes : List Byte → Except DecodeError Instr
  | [b0, b1, b2, b3] => decodeWord (wordOfBytes b0 b1 b2 b3)
  | _ => .error .wrongLength

/-- The command word of a command (30_encoding.md R93). -/
def encode : Instr → Word
  | .new => 0x00000001
  | .ignite => 0x00000002
  | .extinguish => 0x00000003
  | .step => 0x00000004
  | .render => 0x00000005
  | .islit => 0x00000006
  | .peek => 0x00000007
  | .poke => 0x00000008

/-- The four bytes of a word, the least significant first (10_state.md R23). -/
def bytesOfWord (w : Word) : List Byte :=
  [w.extractLsb' 0 8, w.extractLsb' 8 8, w.extractLsb' 16 8, w.extractLsb' 24 8]

/-- The bytes of a command as the window carries them. -/
def encodeBytes (i : Instr) : List Byte := bytesOfWord (encode i)

/-- The 32-bit word an opcode-table row of `nbits` bits stands for, the bits above `nbits` zero. -/
def tableWord (nbits w : Nat) : Word := BitVec.ofNat 32 (w % 2 ^ nbits)

/-- The command read from a word numbered as spec/opcode_table.json numbers it. A row of more than
32 bits is no command of this block (30_encoding.md R97). -/
def decodeTableWord (nbits w : Nat) : Option Instr :=
  if 32 < nbits then none
  else
    match decodeBytes (bytesOfWord (tableWord nbits w)) with
    | .ok i => some i
    | .error _ => none

end Sys2Proof
end

