-- ==== Sys2Proof/Machine/State.lean ====
section
/-! DEFINITION. The state of the machine, as plain data: the block's own state (10_state.md R20),
the memory and the agents outside of it that its rules speak of, the reasons a step can stop, and
the state after reset (10_state.md R49). The parameters of 00_scope.md R7, the palette and the draw
source's answers are arguments of the step, not state (R20): `Config`. -/

namespace Sys2Proof.Machine

/-! ### The block's own fields -/

/-- The completion codes that can be written to STATUS.ERR (60_exceptions.md R241; entry 27). -/
inductive Completion where
  /-- 0x0 -/
  | ok
  /-- 0x1: RSV not 0, or a reserved OP. -/
  | illegal
  /-- 0x2: CFG = 0 and the command is not NEW. -/
  | nocfg
  /-- 0x3: NEW's dimensions. -/
  | dim
  /-- 0x4: RENDER's buffer length. -/
  | len
  /-- 0x5: RENDER's buffer base is not a multiple of 4. -/
  | align
  /-- 0x6: RENDER's buffer leaves the address space. -/
  | addr
  /-- 0x7: a pixel write returned a bus error. -/
  | bus
  /-- 0x8: a cell index or a POKE value out of range. -/
  | range
  /-- 0xF: an invariant violation. -/
  | fatal
  deriving DecidableEq, Repr

/-- The engine's traversal position while a STEP or a RENDER is in flight (10_state.md R48). -/
inductive Cursor where
  /-- No traversal has begun. -/
  | idle
  /-- The next source cell of a STEP is `(x, y)` (41_step.md R152). -/
  | step (x y : Nat)
  /-- The next pixel of a RENDER is `i` (42_render.md R194). -/
  | render (i : Nat)
  deriving DecidableEq, Repr

/-! ### The host bus -/

/-- The host bus's answer to one pixel write (00_scope.md R10, `MemWrite`). -/
inductive BusAnswer where
  /-- The four bytes are written. -/
  | ok
  /-- The write is answered `ok`, but a host agent wrote the same pixel at the same moment, so its
  four bytes hold any value (70_reset_and_hazards.md R289): here `landed`. -/
  | raced (landed : Pixel)
  /-- A bus error: the four bytes hold any value (42_render.md R197): here `landed`. -/
  | error (landed : Pixel)
  deriving DecidableEq, Repr

/-- One entry of the host-memory history (20_memory.md R66): a pixel write the block made. -/
structure BusWrite where
  /-- The address of the first of the four bytes. -/
  addr : Nat
  /-- The colour the block wrote. -/
  pixel : Pixel
  /-- Whether the bus answered `ok`. -/
  accepted : Bool
  deriving DecidableEq, Repr

/-- What the last host access got back (10_state.md R22; 70_reset_and_hazards.md R294). -/
inductive Reply where
  /-- No access yet. -/
  | none
  /-- The value of a register read, or of a read of an aligned word of host memory. -/
  | word (v : Word)
  /-- The value of a host-memory byte read. -/
  | byte (b : Byte)
  /-- A write was carried out; nothing comes back. -/
  | done
  /-- A bus error response (10_state.md R22; entry 20). -/
  | busError
  /-- The access went to a device of the platform, whose answer is no matter of the block
  (20_memory.md R70; entry 20). -/
  | device
  deriving DecidableEq, Repr

/-! ### Host programs (30_encoding.md R98) -/

/-- Expressions over bound names; names are numbered. Values are integers (00_scope.md R9). DESIGN
CHOICE (entry 16): R98 does not say which expressions `expr` and `VAL` are; these are R9's numbers,
fields and operators, without its concatenation. -/
inductive Expr where
  /-- A number. -/
  | num (n : Nat)
  /-- The value bound to a name. -/
  | name (k : Nat)
  /-- The field `e[hi:lo]` (00_scope.md R9). -/
  | slice (e : Expr) (hi lo : Nat)
  /-- `a + b` -/
  | add (a b : Expr)
  /-- `a - b` -/
  | sub (a b : Expr)
  /-- `a * b` -/
  | mul (a b : Expr)
  /-- `a & b` -/
  | band (a b : Expr)
  /-- `a / b`, the floor quotient -/
  | div (a b : Expr)
  /-- `a % b` -/
  | mod (a b : Expr)
  deriving DecidableEq, Repr

/-- The conditions of `if COND goto label` (30_encoding.md R98). -/
inductive Cond where
  /-- `a = b` -/
  | eq (a b : Expr)
  /-- `a != b` -/
  | ne (a b : Expr)
  /-- `e[k]`: bit `k` is 1. -/
  | bit (e : Expr) (k : Nat)
  deriving DecidableEq, Repr

/-- The statements of a host program (30_encoding.md R98). -/
inductive Stmt where
  /-- `wr OFF, VAL` -/
  | wr (off : Offset) (val : Expr)
  /-- `rd OFF -> name` -/
  | rd (off : Offset) (name : Nat)
  /-- `wait` -/
  | wait
  /-- `label:`; labels are numbered. -/
  | label (l : Nat)
  /-- `if COND goto label` -/
  | ifGoto (c : Cond) (l : Nat)
  /-- `name := expr` -/
  | assign (name : Nat) (e : Expr)
  deriving DecidableEq, Repr

/-- The host agent that runs a host program (00_scope.md R6). -/
structure HostAgent where
  /-- The program. -/
  program : List Stmt
  /-- The position of the next statement. -/
  pc : Nat
  /-- The bound names, each with its value; the first entry of a name is its binding. -/
  names : List (Nat × Int)
  deriving DecidableEq, Repr

/-! ### The order of the agents' moves -/

/-- One atomic move of one agent. The moves stand in one total order, which the spec leaves free
(60_exceptions.md R255): any list of them is an order. -/
inductive Event where
  /-- The engine performs the command in flight to its end (00_scope.md R6). -/
  | engine
  /-- The engine does one piece of a STEP or a RENDER in flight: one source cell, RENDER's checks,
  or one pixel (10_state.md R48); any other command it performs to its end. -/
  | advance
  /-- The host performs the next statement of its program. -/
  | host
  /-- A host agent reads the register window: `width` bytes at `off` (10_state.md R22). -/
  | regRead (width : Nat) (off : Offset)
  /-- A host agent writes the register window: `width` bytes at `off`. -/
  | regWrite (width : Nat) (off : Offset) (v : Word)
  /-- A host agent reads one byte at a host address. -/
  | memRead (addr : Nat)
  /-- A host agent reads the aligned 4-byte word at host address `4 * index`, as one access
  (20_memory.md R65). -/
  | memReadWord (index : Nat)
  /-- A host agent writes one byte at a host address (70_reset_and_hazards.md R289). -/
  | memWrite (addr : Nat) (b : Byte)
  /-- A host agent writes the aligned 4-byte word at host address `4 * index`, as one access. -/
  | memWriteWord (index : Nat) (v : Word)
  /-- The host-side cache takes a copy of the aligned 4-byte word of host memory at host address
  `4 * index` (20_memory.md R78; entry 18). -/
  | cacheFill (index : Nat)
  /-- The copies of the words of a range leave the host-side cache: the host invalidates it
  (20_memory.md R78). -/
  | invalidate (base len : Nat)
  /-- Hardware reset is asserted (70_reset_and_hazards.md R280). If a pixel is being written, its
  bytes hold any value (R282): `landed`, or what they held before. -/
  | reset (landed : Option Pixel)
  deriving DecidableEq, Repr

/-! ### The state -/

/-- The machine's state. The fields from `mem` on are outside of the block: hardware reset leaves
them alone. -/
structure State where
  /-- ARG0 (10_state.md R28). -/
  arg0 : Word
  /-- ARG1 (R28). -/
  arg1 : Word
  /-- ARG2 (R28). -/
  arg2 : Word
  /-- RESULT (R29). -/
  result : Word
  /-- WIDTH (R31). -/
  width : Word
  /-- HEIGHT (R31). -/
  height : Word
  /-- STATUS.BUSY (R36). -/
  busy : Bool
  /-- STATUS.CFG (R35). -/
  cfg : Bool
  /-- STATUS.LIT (R34). -/
  lit : Bool
  /-- STATUS.FATAL (R37). -/
  fatal : Bool
  /-- STATUS.OVR (R38). -/
  ovr : Bool
  /-- STATUS.ERR (R39). -/
  err : Completion
  /-- The grid RAM (R40): (cell, level) pairs, cells strictly rising, no level 0 listed. -/
  grid : List (Nat × Nat)
  /-- The RNG state (R46; entry 2). -/
  rng : Nat
  /-- CMDL, the latched command word (R47). -/
  cmdl : Word
  /-- ARGL0 (R47). -/
  argl0 : Word
  /-- ARGL1 (R47). -/
  argl1 : Word
  /-- ARGL2 (R47). -/
  argl2 : Word
  /-- The traversal cursor (R48). -/
  cursor : Cursor
  /-- Host memory (20_memory.md R60): (address, byte) pairs, addresses strictly rising; an unlisted
  byte is one nothing has written (entry 9). -/
  mem : List Host.Cell
  /-- The copies of aligned words of host memory a host-side cache holds, where the platform does not
  keep them coherent (20_memory.md R78; entry 18): (address / 4, word) pairs, strictly rising. -/
  hostCache : List (Nat × Word)
  /-- The host bus's answers to the pixel writes to come, the next first; an unlisted answer is
  `ok` (entry 11). -/
  busAnswers : List BusAnswer
  /-- The pixel writes made so far, the oldest first (20_memory.md R66; entry 22). -/
  busLog : List BusWrite
  /-- What the last host access got back (entry 22). -/
  reply : Reply
  /-- The agents' moves to come, the next first (60_exceptions.md R255; entry 10). -/
  events : List Event
  /-- The host agent and its program (30_encoding.md R98). -/
  host : HostAgent
  deriving DecidableEq, Repr

/-- Why the machine stops with a fault. -/
inductive Fault where
  /-- `fatal()` (60_exceptions.md R252), raised by STEP on a source level above 36 (41_step.md R173)
  and by RENDER on a palette index above 36 (42_render.md R196). `halted` is the state it leaves:
  FATAL = 1, ERR = 0xF, BUSY = 0, the writes made before the check kept. The spec calls entering it
  a fault (R252, R263), so this is exact; no state the spec reaches raises it. -/
  | invariantViolation (halted : State)
  deriving DecidableEq, Repr

/-- What the machine gives no meaning to. -/
inductive Refusal where
  /-- An instruction without a meaning yet. Safe. -/
  | notModelled (mnemonic : String)
  /-- A RENDER whose buffer overlaps the register window or a device with side effects: the spec
  asks a model to refuse it (20_memory.md R70). Raised by RENDER. Safe. -/
  | renderOutsideSpec
  /-- Parameters that break a constraint of 00_scope.md R8: "a model refuses it". Raised by a step
  under such a configuration, whatever the state; never under `Config.chip`. Safe. -/
  | notAConfiguration
  deriving DecidableEq, Repr

/-- What a step answers. -/
abbrev Result := Host.Outcome State Fault Refusal

/-- The machine right after reset (10_state.md R49). The grid cells, the RNG state, the latch and
the cursor have no reset value in the spec: entries 5, 6 and 7 name the values here. The fields
from `mem` on are not the block's: entries 9, 10, 11, 15, 18 and 22. -/
def State.reset : State where
  arg0 := 0
  arg1 := 0
  arg2 := 0
  result := 0
  width := 0
  height := 0
  busy := false
  cfg := false
  lit := false
  fatal := false
  ovr := false
  err := .ok
  grid := []
  rng := 0
  cmdl := 0
  argl0 := 0
  argl1 := 0
  argl2 := 0
  cursor := .idle
  mem := []
  hostCache := []
  busAnswers := []
  busLog := []
  reply := .none
  events := []
  host := ⟨[], 0, []⟩

end Sys2Proof.Machine
end

