-- ==== Sys2Proof/Machine/Ops.lean ====
section
/-! DEFINITION. The named operations over the state: the sorted store under the grid RAM and the
host memory, the grid (10_state.md R40), host memory (20_memory.md R60), the ends of a command
(60_exceptions.md R240, R252), the draw source (41_step.md R157, R158), the pixel write
(00_scope.md R10), the issue of a command (30_encoding.md R90) and hardware reset
(70_reset_and_hazards.md R280). -/

namespace Sys2Proof.Machine

/-! ### A store: key and value pairs, keys strictly rising -/

/-- The value stored at a key. -/
def storeGet {α : Type} (k : Nat) : List (Nat × α) → Option α
  | [] => none
  | (k', v) :: rest => if k' = k then some v else storeGet k rest

/-- Store a value at a key, in its place in the order. -/
def storePut {α : Type} (k : Nat) (v : α) : List (Nat × α) → List (Nat × α)
  | [] => [(k, v)]
  | (k', v') :: rest =>
    if k < k' then (k, v) :: (k', v') :: rest
    else if k = k' then (k, v) :: rest
    else (k', v') :: storePut k v rest

/-- Remove a key. -/
def storeErase {α : Type} (k : Nat) (m : List (Nat × α)) : List (Nat × α) :=
  m.filter fun e => e.1 ≠ k

/-- The keys are strictly rising. -/
def storeSorted {α : Type} : List (Nat × α) → Bool
  | [] => true
  | [_] => true
  | e₁ :: e₂ :: rest => e₁.1 < e₂.1 && storeSorted (e₂ :: rest)

/-! ### The grid RAM (10_state.md R40) -/

/-- `grid[i]` (00_scope.md R10). A cell that is not listed holds 0 (entry 5). -/
def gridRead (g : List (Nat × Nat)) (i : Nat) : Nat := (storeGet i g).getD 0

/-- `grid[i] <- v` (00_scope.md R10). -/
def gridWrite (g : List (Nat × Nat)) (i : Nat) (v : Nat) : List (Nat × Nat) :=
  if v = 0 then storeErase i g else storePut i v g

/-- `for i in 0 .. n: grid[i] <- 0` (40_lifecycle.md R121): the cells from `n` on are kept. -/
def gridClear (g : List (Nat × Nat)) (n : Nat) : List (Nat × Nat) :=
  g.filter fun e => n ≤ e.1

/-- `for i in start .. start + n: grid[i] <- v`. -/
def gridFill (g : List (Nat × Nat)) (v : Nat) (start : Nat) : Nat → List (Nat × Nat)
  | 0 => g
  | n + 1 => gridFill (gridWrite g start v) v (start + 1) n

/-- The grid's canonical form: cells strictly rising, each below `MAX_CELLS`, no level 0 listed, and
every level one of `CELL_BITS` bits. -/
def gridWf (c : Config) (g : List (Nat × Nat)) : Bool :=
  storeSorted g && g.all fun e => e.1 < c.maxCells && e.2 ≠ 0 && e.2 < 2 ^ c.cellBits

/-! ### Host memory (20_memory.md R60, R62) -/

/-- The byte at an address; none where nothing has been written (entry 9). -/
def memRead (m : List Host.Cell) (a : Nat) : Option Byte := storeGet a m

/-- The byte host memory holds at an address: what was written, or the free value of entry 9. -/
def memByte (c : Config) (m : List Host.Cell) (a : Nat) : Byte := (memRead m a).getD (c.memInit a)

/-- Write one byte. -/
def memWrite (m : List Host.Cell) (a : Nat) (b : Byte) : List Host.Cell := storePut a b m

/-- Write the four bytes of a pixel, R at the lowest address (20_memory.md R64). -/
def memWritePixel (m : List Host.Cell) (a : Nat) (p : Pixel) : List Host.Cell :=
  memWrite (memWrite (memWrite (memWrite m a p.r) (a + 1) p.g) (a + 2) p.b) (a + 3) p.a

/-- The four bytes at `a` as one little-endian word, as a host reads a pixel (20_memory.md R64). -/
def memReadWord (m : List Host.Cell) (a : Nat) : Option Word :=
  match memRead m a, memRead m (a + 1), memRead m (a + 2), memRead m (a + 3) with
  | some b0, some b1, some b2, some b3 => some (wordOfBytes b0 b1 b2 b3)
  | _, _, _, _ => none

/-- Host memory's canonical form: addresses strictly rising and inside the address space. No value
is what an unlisted address reads as, so every listed byte is wanted. -/
def memWf (c : Config) (m : List Host.Cell) : Bool :=
  storeSorted m && m.all fun e => e.1 < 2 ^ c.addrBits

/-! ### The platform's map (20_memory.md R69, R70; entry 12) -/

/-- The ranges [b₁, b₁ + n₁) and [b₂, b₂ + n₂) share an address. -/
def rangesOverlap (b₁ n₁ b₂ n₂ : Nat) : Bool := max b₁ b₂ < min (b₁ + n₁) (b₂ + n₂)

/-- The range [base, base + len) overlaps the register window or a device with side effects
(20_memory.md R70). -/
def outsidePlainMemory (c : Config) (base len : Nat) : Bool :=
  rangesOverlap base len c.regBase 64 || c.devices.any fun d => rangesOverlap base len d.1 d.2

/-! ### The ends of a command -/

/-- `complete(code)` and `raise Error(code)` (00_scope.md R10; 60_exceptions.md R240, R247):
STATUS.ERR gets the code, BUSY returns to 0, and nothing is in flight any more. -/
def finish (code : Completion) (s : State) : State :=
  { s with err := code, busy := false, cursor := .idle }

/-- `raise Error(code)`: the command ends at once. The one way an error is taken: the block has no
trap, saves nothing and goes to no handler (60_exceptions.md R240, R254). -/
def raiseError (code : Completion) (s : State) : Result := .next (finish code s)

/-- `complete(OK)`. -/
def completeOk (s : State) : Result := .next (finish .ok s)

/-- The state `fatal()` leaves (60_exceptions.md R252). -/
def haltFatal (s : State) : State :=
  { s with fatal := true, err := .fatal, busy := false, cursor := .idle }

/-- `fatal()` (60_exceptions.md R252): a model fault that carries the halted state (entry 13). -/
def raiseFatal (s : State) : Result := .fault (.invariantViolation (haltFatal s))

/-- `if CFG = 0: raise Error(NOCFG)`, before the rest of a command (60_exceptions.md R246). -/
def needsField (s : State) (body : Result) : Result :=
  if s.cfg then body else raiseError .nocfg s

/-- One piece of a traversal either goes on from a state or ends the command. -/
inductive Progress where
  /-- The piece is done. -/
  | goOn (s : State)
  /-- The command has ended. -/
  | ended (r : Result)

/-! ### The draw source (41_step.md R157, R158) -/

/-- The drift quantizer `Q(m)` (41_step.md R157). -/
def quantize (ubits m : Nat) : Drift :=
  if 6 * m < 1 * 2 ^ ubits then 0
  else if 6 * m < 3 * 2 ^ ubits then 1
  else if 6 * m < 5 * 2 ^ ubits then 2
  else 3

/-- `Draw()` (41_step.md R158): the RNG advances, and the drift value is the quantized word. -/
def drawDrift (c : Config) (s : State) : Drift × State :=
  (quantize c.ubits (c.rngNext s.rng).1.toNat, { s with rng := (c.rngNext s.rng).2 })

/-! ### The palette (10_state.md R42 to R44; 42_render.md R196) -/

/-- `colorOf(l)`: defined for levels 0 to 36 only. -/
def colorOf (c : Config) (l : Nat) : Option Pixel :=
  if l = 0 then some ⟨0x07, 0x07, 0x07, 0xFF⟩
  else if l = maxLevel then some ⟨0xFF, 0xFF, 0xFF, 0xFF⟩
  else if l < maxLevel then some (c.palette l)
  else none

/-! ### The pixel write (00_scope.md R10, `MemWrite`) -/

/-- The four bytes an answered pixel write leaves (42_render.md R197; 70_reset_and_hazards.md
R289). -/
def landedPixel (p : Pixel) : BusAnswer → Pixel
  | .ok => p
  | .raced landed => landed
  | .error landed => landed

/-- Whether the bus answered `ok`. -/
def answeredOk : BusAnswer → Bool
  | .ok => true
  | .raced _ => true
  | .error _ => false

/-- The bus's next answer; one that is not listed is `ok` (entry 11). -/
def nextAnswer (s : State) : BusAnswer := s.busAnswers.headD .ok

/-- `MemWrite(a, 4, [R, G, B, A])` and its answer: true for `ok`, false for `buserror`. The write
is recorded in the host-memory history (20_memory.md R66). -/
def busWritePixel (a : Nat) (p : Pixel) (s : State) : State × Bool :=
  ( { s with
      mem := memWritePixel s.mem a (landedPixel p (nextAnswer s))
      busAnswers := s.busAnswers.tail
      busLog := s.busLog ++ [⟨a, p, answeredOk (nextAnswer s)⟩] },
    answeredOk (nextAnswer s) )

/-! ### Issue and reset -/

/-- The accepted issue of command word `w` (30_encoding.md R90; 10_state.md R47). -/
def acceptIssue (w : Word) (s : State) : State :=
  { s with
    cmdl := w, argl0 := s.arg0, argl1 := s.arg1, argl2 := s.arg2, busy := true, cursor := .idle }

/-- The address of the pixel being written, if a RENDER has passed its checks and has a pixel left
(70_reset_and_hazards.md R282). -/
def pixelInFlight (s : State) : Option Nat :=
  match s.cursor with
  | .render i => if i < s.width.toNat * s.height.toNat then some (s.argl0.toNat + 4 * i) else none
  | .idle => none
  | .step _ _ => none

/-- Host memory at reset: the pixel being written may hold any value (70_reset_and_hazards.md
R282). -/
def memAtReset (landed : Option Pixel) (s : State) : List Host.Cell :=
  match pixelInFlight s, landed with
  | some a, some p => memWritePixel s.mem a p
  | _, _ => s.mem

/-- Hardware reset (70_reset_and_hazards.md R280): every piece of the block's state takes its reset
value (10_state.md R49), and a command in flight is abandoned. What lies outside of the block
stays. -/
def hardwareReset (landed : Option Pixel) (s : State) : State :=
  { State.reset with
    mem := memAtReset landed s
    hostCache := s.hostCache
    busAnswers := s.busAnswers
    busLog := s.busLog
    reply := s.reply
    events := s.events
    host := s.host }

end Sys2Proof.Machine
end

