-- ==== Sys2Proof/Machine/Flags.lean ====
section
/-! DEFINITION. The STATUS word (10_state.md R26), its codes (60_exceptions.md R241) and its write
(10_state.md R27). -/

namespace Sys2Proof.Machine

/-- The 4-bit code of a completion (60_exceptions.md R241). -/
def completionCode : Completion → BitVec 4
  | .ok => 0x0
  | .illegal => 0x1
  | .nocfg => 0x2
  | .dim => 0x3
  | .len => 0x4
  | .align => 0x5
  | .addr => 0x6
  | .bus => 0x7
  | .range => 0x8
  | .fatal => 0xF

/-- STATUS as read (10_state.md R26): ERR in bits 11:8, OVR, FATAL, LIT, CFG and BUSY in bits 4 to
0, every other bit 0. -/
def statusWord (s : State) : Word :=
  (0 : BitVec 20) ++ completionCode s.err ++ (0 : BitVec 3) ++ BitVec.ofBool s.ovr ++
    BitVec.ofBool s.fatal ++ BitVec.ofBool s.lit ++ BitVec.ofBool s.cfg ++ BitVec.ofBool s.busy

/-- A STATUS write (10_state.md R27): bit 4 clears OVR, every other bit is ignored. -/
def writeStatus (v : Word) (s : State) : State :=
  { s with ovr := s.ovr && !v.getLsbD 4 }

/-- `zext_32` of one bit (00_scope.md R10). -/
def bitWord (b : Bool) : Word := (BitVec.ofBool b).setWidth 32

end Sys2Proof.Machine
end

