-- ==== Sys2Proof/Machine/Window.lean ====
section
/-! DEFINITION. The register window (10_state.md R21 to R33): reads, writes and the issue of a
command (30_encoding.md R90). -/

namespace Sys2Proof.Machine

/-- The constant of the ID register (10_state.md R24). -/
def idConstant : Word := 0x44464301

/-- The offsets of the registers a rule names (10_state.md R21; 30_encoding.md R98). -/
abbrev offId : Offset := 0x00
/-- CMD. -/
abbrev offCmd : Offset := 0x04
/-- STATUS. -/
abbrev offStatus : Offset := 0x08
/-- ARG0. -/
abbrev offArg0 : Offset := 0x0C
/-- ARG1. -/
abbrev offArg1 : Offset := 0x10
/-- ARG2. -/
abbrev offArg2 : Offset := 0x14
/-- RESULT. -/
abbrev offResult : Offset := 0x18
/-- WIDTH. -/
abbrev offWidth : Offset := 0x1C
/-- HEIGHT. -/
abbrev offHeight : Offset := 0x20
/-- MAXCELLS. -/
abbrev offMaxCells : Offset := 0x24

/-- The value an aligned 32-bit read returns, by word offset (10_state.md R21, R24 to R33). -/
def registerValue (c : Config) (off : Offset) (s : State) : Word :=
  match off.toNat / 4 with
  | 0 => idConstant
  | 1 => 0
  | 2 => statusWord s
  | 3 => s.arg0
  | 4 => s.arg1
  | 5 => s.arg2
  | 6 => s.result
  | 7 => s.width
  | 8 => s.height
  | 9 => BitVec.ofNat 32 c.maxCells
  | _ => 0

/-- Command issue (30_encoding.md R90; 60_exceptions.md R250, R253): dropped while FATAL, dropped
with OVR set while BUSY, accepted otherwise. -/
def issueCommand (w : Word) (s : State) : State :=
  if s.fatal then s
  else if s.busy then { s with ovr := true }
  else acceptIssue w s

/-- An aligned 32-bit write, by word offset (10_state.md R21): CMD, STATUS and ARG0 to ARG2 take
it, every other register ignores it (R22, R33). -/
def writeRegister (off : Offset) (v : Word) (s : State) : State :=
  match off.toNat / 4 with
  | 1 => issueCommand v s
  | 2 => writeStatus v s
  | 3 => { s with arg0 := v }
  | 4 => { s with arg1 := v }
  | 5 => { s with arg2 := v }
  | _ => s

/-- One access of the shape the window takes: 4 bytes at a multiple of 4 (10_state.md R22). -/
def legalAccess (width : Nat) (off : Offset) : Bool := width = 4 && off.toNat % 4 = 0

/-- A host read of the window (10_state.md R22): no side effect on the block. -/
def readWindow (c : Config) (width : Nat) (off : Offset) (s : State) : State :=
  if legalAccess width off then { s with reply := .word (registerValue c off s) }
  else { s with reply := .busError }

/-- A host write of the window (10_state.md R22): an illegal access changes nothing in the block. -/
def writeWindow (width : Nat) (off : Offset) (v : Word) (s : State) : State :=
  if legalAccess width off then { writeRegister off v s with reply := .done }
  else { s with reply := .busError }

end Sys2Proof.Machine
end

