-- ==== Sys2Proof/Machine/HostMemory.lean ====
section
/-! DEFINITION. Host memory and the register window as a host agent reaches them, by host address
(20_memory.md R60, R65, R69, R78; 70_reset_and_hazards.md R289). No access of a host agent stops the
machine (entry 20). -/

namespace Sys2Proof.Machine

/-! ### What stands at a host address -/

/-- What an access of a host agent reaches. -/
inductive Place where
  /-- The register window, at an offset (10_state.md R21). -/
  | window (off : Offset)
  /-- No one place: the access leaves the address space, or runs into the window from below it. -/
  | absent
  /-- A device of the platform (20_memory.md R70), with some of the bytes or all (entry 20). -/
  | device
  /-- Host memory (20_memory.md R60). -/
  | memory
  deriving DecidableEq, Repr

/-- The address is one of the register window's (20_memory.md R69). -/
def inWindow (c : Config) (a : Nat) : Bool := c.regBase ≤ a && a < c.regBase + 64

/-- What an access of `n` bytes at address `a` reaches (20_memory.md R60, R69, R70). DESIGN CHOICE
(entry 20): an access that shares a byte with a device is the device's whole, and one that runs into
the window from below it, or leaves the address space, reaches nothing. -/
def placeOf (c : Config) (a n : Nat) : Place :=
  if inWindow c a then .window (BitVec.ofNat 6 (a - c.regBase))
  else if rangesOverlap a n c.regBase 64 || 2 ^ c.addrBits < a + n then .absent
  else if outsidePlainMemory c a n then .device
  else .memory

/-! ### Words and their copies (20_memory.md R64, R65, R78; entry 18) -/

/-- Byte `j` of a word, the least significant at the lowest address (20_memory.md R64). -/
def byteOfWord (w : Word) (j : Nat) : Byte := w.extractLsb' (8 * j) 8

/-- A word with its byte `j` replaced. -/
def setByteOfWord (w : Word) (j : Nat) (b : Byte) : Word :=
  wordOfBytes (if j = 0 then b else byteOfWord w 0) (if j = 1 then b else byteOfWord w 1)
    (if j = 2 then b else byteOfWord w 2) (if j = 3 then b else byteOfWord w 3)

/-- The aligned word of host memory at address `4 * k`. -/
def memWord (c : Config) (m : List Host.Cell) (k : Nat) : Word :=
  wordOfBytes (memByte c m (4 * k)) (memByte c m (4 * k + 1)) (memByte c m (4 * k + 2))
    (memByte c m (4 * k + 3))

/-- Write the four bytes of the aligned word at address `4 * k`. -/
def memWriteWord (m : List Host.Cell) (k : Nat) (v : Word) : List Host.Cell :=
  memWrite (memWrite (memWrite (memWrite m (4 * k) (byteOfWord v 0)) (4 * k + 1) (byteOfWord v 1))
    (4 * k + 2) (byteOfWord v 2)) (4 * k + 3) (byteOfWord v 3)

/-- The copy of a word in the host-side cache, changed if there is one. -/
def changeCopy (k : Nat) (f : Word → Word) (cache : List (Nat × Word)) : List (Nat × Word) :=
  match storeGet k cache with
  | some w => storePut k (f w) cache
  | none => cache

/-- The copies' canonical form: words strictly rising and inside the address space. -/
def cacheWf (c : Config) (cache : List (Nat × Word)) : Bool :=
  storeSorted cache && cache.all fun e => 4 * e.1 + 4 ≤ 2 ^ c.addrBits

/-! ### Reads -/

/-- The copy of a word that a host agent sees: none where the platform keeps the copies coherent, or
the cache has none (20_memory.md R78; entry 18). -/
def seenCopy (c : Config) (k : Nat) (s : State) : Option Word :=
  if c.coherent then none else storeGet k s.hostCache

/-- The byte of host memory a host agent sees: the copy's, or memory's. -/
def hostByte (c : Config) (a : Nat) (s : State) : Byte :=
  match seenCopy c (a / 4) s with
  | some w => byteOfWord w (a % 4)
  | none => memByte c s.mem a

/-- The aligned word of host memory a host agent sees at address `4 * k`: the copy, whole, or
memory's four bytes, whole (20_memory.md R65). -/
def hostWord (c : Config) (k : Nat) (s : State) : Word :=
  match seenCopy c k s with
  | some w => w
  | none => memWord c s.mem k

/-- A host agent reads a byte. In the register window that is an access of another width than 4
(10_state.md R22). -/
def hostMemRead (c : Config) (a : Nat) (s : State) : State :=
  match placeOf c a 1 with
  | .window off => readWindow c 1 off s
  | .absent => { s with reply := .busError }
  | .device => { s with reply := .device }
  | .memory => { s with reply := .byte (hostByte c a s) }

/-- A host agent reads an aligned word, as one access (20_memory.md R65). In the register window
that is a register read (10_state.md R22). -/
def hostMemReadWord (c : Config) (index : Nat) (s : State) : State :=
  match placeOf c (4 * index) 4 with
  | .window off => readWindow c 4 off s
  | .absent => { s with reply := .busError }
  | .device => { s with reply := .device }
  | .memory => { s with reply := .word (hostWord c index s) }

/-! ### Writes -/

/-- A byte stored by a host agent: in memory, and in the copy of its word if there is one
(entry 18). -/
def hostStore (a : Nat) (b : Byte) (s : State) : State :=
  { s with
    mem := memWrite s.mem a b
    hostCache := changeCopy (a / 4) (fun w => setByteOfWord w (a % 4) b) s.hostCache }

/-- An aligned word stored by a host agent: in memory, and in its copy if there is one. -/
def hostStoreWord (k : Nat) (v : Word) (s : State) : State :=
  { s with
    mem := memWriteWord s.mem k v
    hostCache := changeCopy k (fun _ => v) s.hostCache }

/-- A host agent writes a byte (70_reset_and_hazards.md R289). -/
def hostMemWrite (c : Config) (a : Nat) (b : Byte) (s : State) : State :=
  match placeOf c a 1 with
  | .window off => writeWindow 1 off (b.setWidth 32) s
  | .absent => { s with reply := .busError }
  | .device => { s with reply := .device }
  | .memory => { hostStore a b s with reply := .done }

/-- A host agent writes an aligned word, as one access. In the register window that is a register
write (10_state.md R22). -/
def hostMemWriteWord (c : Config) (index : Nat) (v : Word) (s : State) : State :=
  match placeOf c (4 * index) 4 with
  | .window off => writeWindow 4 off v s
  | .absent => { s with reply := .busError }
  | .device => { s with reply := .device }
  | .memory => { hostStoreWord index v s with reply := .done }

/-! ### The host-side cache (20_memory.md R78; entry 18) -/

/-- The cache takes a copy of an aligned word of host memory, whole. A platform that is coherent
needs no copies: none is ever seen. -/
def cacheFill (c : Config) (index : Nat) (s : State) : State :=
  if placeOf c (4 * index) 4 = .memory then
    { s with hostCache := storePut index (memWord c s.mem index) s.hostCache }
  else s

/-- The copies of the words that have a byte in [base, base + len) leave the cache. -/
def cacheInvalidate (base len : Nat) (s : State) : State :=
  { s with hostCache := s.hostCache.filter fun e => !rangesOverlap (4 * e.1) 4 base len }

end Sys2Proof.Machine
end

