-- ==== Sys2Proof/Machine/HostProgram.lean ====
section
/-! DEFINITION. Host programs (30_encoding.md R98): how the host agent performs a statement; and the
pseudo-instructions (R99). Every statement has its effect: what the notation gives no value is the
free value `Config.unstated` (entry 16). -/

namespace Sys2Proof.Machine

/-! ### Expressions and conditions -/

/-- The value of a name: what it is bound to, or a free value where nothing has bound it. -/
def boundValue (c : Config) (names : List (Nat × Int)) (k : Nat) : Int :=
  (storeGet k names).getD (c.unstated (.name k))

/-- `v[hi:lo]` (00_scope.md R9). R9 gives no value for a negative `v` or for `hi < lo`. -/
def sliceValue (c : Config) (v : Int) (hi lo : Nat) : Int :=
  if 0 ≤ v ∧ lo ≤ hi then (v.toNat / 2 ^ lo % 2 ^ (hi + 1 - lo) : Nat)
  else c.unstated (.slice v hi lo)

/-- `x & y` (00_scope.md R9). -/
def bandValue (c : Config) (x y : Int) : Int :=
  if 0 ≤ x ∧ 0 ≤ y then (x.toNat &&& y.toNat : Nat) else c.unstated (.band x y)

/-- `x / y`, the floor quotient of naturals (00_scope.md R9). -/
def quotientValue (c : Config) (x y : Int) : Int :=
  if 0 ≤ x ∧ 0 < y then (x.toNat / y.toNat : Nat) else c.unstated (.quotient x y)

/-- `x % y`, the remainder of naturals (00_scope.md R9). -/
def remainderValue (c : Config) (x y : Int) : Int :=
  if 0 ≤ x ∧ 0 < y then (x.toNat % y.toNat : Nat) else c.unstated (.remainder x y)

/-- The value of an expression (00_scope.md R9): sums, differences and products are exact, on
integers. -/
def evalExpr (c : Config) (names : List (Nat × Int)) : Expr → Int
  | .num n => n
  | .name k => boundValue c names k
  | .slice e hi lo => sliceValue c (evalExpr c names e) hi lo
  | .add a b => evalExpr c names a + evalExpr c names b
  | .sub a b => evalExpr c names a - evalExpr c names b
  | .mul a b => evalExpr c names a * evalExpr c names b
  | .band a b => bandValue c (evalExpr c names a) (evalExpr c names b)
  | .div a b => quotientValue c (evalExpr c names a) (evalExpr c names b)
  | .mod a b => remainderValue c (evalExpr c names a) (evalExpr c names b)

/-- Whether `v[k]` is 1 (00_scope.md R9; 30_encoding.md R98). -/
def bitHolds (c : Config) (v : Int) (k : Nat) : Bool :=
  if 0 ≤ v then v.toNat.testBit k else c.unstated (.bit v k) ≠ 0

/-- Whether a condition holds (30_encoding.md R98). -/
def evalCond (c : Config) (names : List (Nat × Int)) : Cond → Bool
  | .eq a b => evalExpr c names a = evalExpr c names b
  | .ne a b => evalExpr c names a ≠ evalExpr c names b
  | .bit e k => bitHolds c (evalExpr c names e) k

/-- The 32-bit form of a value, as a `wr` carries it. R98 gives none to a value outside of
[0, 2^32). -/
def valueWord (c : Config) (v : Int) : Word :=
  if 0 ≤ v ∧ v < 2 ^ 32 then BitVec.ofNat 32 v.toNat
  else BitVec.ofInt 32 (c.unstated (.word v))

/-- The positions of a label in a program, counted from `i`. -/
def labelPositions (l : Nat) : List Stmt → Nat → List Nat
  | [], _ => []
  | st :: rest, i =>
    if st = .label l then i :: labelPositions l rest (i + 1) else labelPositions l rest (i + 1)

/-- The position a `goto` goes on at: the label's. R98 does not say which where several statements
carry the label (here any one of them) or none does (here any position). -/
def labelTarget (c : Config) (l : Nat) (program : List Stmt) : Nat :=
  match labelPositions l program 0 with
  | [] => (c.unstated (.label l)).toNat
  | [p] => p
  | p :: q :: ps => (p :: q :: ps).getD ((c.unstated (.label l)).toNat % (ps.length + 2)) p

/-! ### One statement -/

/-- The host goes on to position `pc`. -/
def hostGoto (pc : Nat) (s : State) : State := { s with host := { s.host with pc := pc } }

/-- The host goes on to the next statement. -/
def hostNext (s : State) : State := hostGoto (s.host.pc + 1) s

/-- The host binds a name. -/
def hostBind (k : Nat) (v : Int) (s : State) : State :=
  { s with host := { s.host with names := storePut k v s.host.names } }

/-- The name `s` of the expansion of `wait` and `check` (30_encoding.md R98, R99). -/
abbrev nameS : Nat := 0

/-- `wr OFF, VAL`: one 32-bit write. At an offset that is no multiple of 4 it gets the bus error of
10_state.md R22, and the host goes on (entry 16). -/
def hostWrite (c : Config) (off : Offset) (e : Expr) (s : State) : State :=
  hostNext (writeWindow 4 off (valueWord c (evalExpr c s.host.names e)) s)

/-- `rd OFF -> name`: one 32-bit read, its value bound. At an offset that is no multiple of 4 it
gets the bus error of 10_state.md R22, no value comes back, and the host goes on (entry 16). -/
def hostRead (c : Config) (off : Offset) (k : Nat) (s : State) : State :=
  if legalAccess 4 off then hostNext (hostBind k (registerValue c off s).toNat (readWindow c 4 off s))
  else hostNext (readWindow c 4 off s)

/-- One round of `wait`: `loop: rd STATUS -> s; if s[0] = 1 goto loop`. -/
def hostWait (c : Config) (s : State) : State :=
  hostGoto (if s.busy then s.host.pc else s.host.pc + 1)
    (hostBind nameS (statusWord s).toNat (readWindow c 4 offStatus s))

/-- `if COND goto label`. -/
def hostBranch (c : Config) (cond : Cond) (l : Nat) (s : State) : State :=
  if evalCond c s.host.names cond then hostGoto (labelTarget c l s.host.program) s else hostNext s

/-- `name := expr`. -/
def hostAssign (c : Config) (k : Nat) (e : Expr) (s : State) : State :=
  hostNext (hostBind k (evalExpr c s.host.names e) s)

/-- One statement (30_encoding.md R98). -/
def performStmt (c : Config) (st : Stmt) (s : State) : State :=
  match st with
  | .wr off e => hostWrite c off e s
  | .rd off k => hostRead c off k s
  | .wait => hostWait c s
  | .label _ => hostNext s
  | .ifGoto cond l => hostBranch c cond l s
  | .assign k e => hostAssign c k e s

/-- The host performs its next statement; a program that has ended does nothing more
(70_reset_and_hazards.md R295). -/
def hostMove (c : Config) (s : State) : State :=
  match s.host.program[s.host.pc]? with
  | none => s
  | some st => performStmt c st s

/-! ### Pseudo-instructions (30_encoding.md R99) -/

/-- A command mnemonic as a statement: `wr CMD, <command word>` (30_encoding.md R98). -/
def mnemonicStmt (i : Instr) : Stmt := .wr offCmd (.num (encode i).toNat)

/-- `new w, h, seed` -/
def pseudoNew (w h seed : Expr) : List Stmt :=
  [.wr offArg0 w, .wr offArg1 h, .wr offArg2 seed, mnemonicStmt .new, .wait]

/-- `ignite` -/
def pseudoIgnite : List Stmt := [mnemonicStmt .ignite, .wait]

/-- `extinguish` -/
def pseudoExtinguish : List Stmt := [mnemonicStmt .extinguish, .wait]

/-- `step` -/
def pseudoStep : List Stmt := [mnemonicStmt .step, .wait]

/-- `render base, len` -/
def pseudoRender (base len : Expr) : List Stmt :=
  [.wr offArg0 base, .wr offArg1 len, mnemonicStmt .render, .wait]

/-- `islit -> r` -/
def pseudoIslit (r : Nat) : List Stmt := [mnemonicStmt .islit, .wait, .rd offResult r]

/-- `peek i -> r` -/
def pseudoPeek (i : Expr) (r : Nat) : List Stmt :=
  [.wr offArg0 i, mnemonicStmt .peek, .wait, .rd offResult r]

/-- `poke i, v` -/
def pseudoPoke (i v : Expr) : List Stmt :=
  [.wr offArg0 i, .wr offArg1 v, mnemonicStmt .poke, .wait]

/-- `check -> e` -/
def pseudoCheck (e : Nat) : List Stmt := [.rd offStatus nameS, .assign e (.slice (.name nameS) 11 8)]

/-- `clrovr` -/
def pseudoClrovr : List Stmt := [.wr offStatus (.num 0x10)]

end Sys2Proof.Machine
end

