-- ==== Sys2Proof/Machine/Operands.lean ====
section
/-! DEFINITION. Operand assembly (30_encoding.md R95): the operands of the command in flight are the
latched words, whole, as unsigned integers; and the field's dimensions (10_state.md R31, R40). -/

namespace Sys2Proof.Machine

/-- NEW's width W = ARGL0. -/
def newWidth (s : State) : Nat := s.argl0.toNat

/-- NEW's height H = ARGL1. -/
def newHeight (s : State) : Nat := s.argl1.toNat

/-- NEW's seed = ARGL2. -/
def newSeed (s : State) : Word := s.argl2

/-- RENDER's buffer base = ARGL0. -/
def renderBase (s : State) : Nat := s.argl0.toNat

/-- RENDER's buffer length in bytes = ARGL1. -/
def renderLen (s : State) : Nat := s.argl1.toNat

/-- PEEK's and POKE's cell index = ARGL0. -/
def cellIndex (s : State) : Nat := s.argl0.toNat

/-- POKE's value = ARGL1. -/
def pokeValue (s : State) : Nat := s.argl1.toNat

/-- The field's width W (10_state.md R31). -/
def fieldW (s : State) : Nat := s.width.toNat

/-- The field's height H (10_state.md R31). -/
def fieldH (s : State) : Nat := s.height.toNat

/-- The number of cells W*H, exact. -/
def fieldCells (s : State) : Nat := fieldW s * fieldH s

/-- The flat index of cell (x, y) (10_state.md R40). -/
def cellAt (s : State) (x y : Nat) : Nat := y * fieldW s + x

end Sys2Proof.Machine
end

