-- ==== Sys2Proof/Machine/CellAccess.lean ====
section
/-! DEFINITION. The cell access commands PEEK and POKE (43_debug.md). -/

namespace Sys2Proof.Machine

/-- PEEK (43_debug.md R221): no check of the level. -/
def execPeek (s : State) : Result :=
  needsField s <|
    if fieldCells s ≤ cellIndex s then raiseError .range s
    else completeOk { s with result := BitVec.ofNat 32 (gridRead s.grid (cellIndex s)) }

/-- POKE (43_debug.md R226): the value is checked as the full 32-bit word, then `v[5:0]` is
written. -/
def execPoke (s : State) : Result :=
  needsField s <|
    if fieldCells s ≤ cellIndex s ∨ maxLevel < pokeValue s then raiseError .range s
    else completeOk { s with grid := gridWrite s.grid (cellIndex s) (pokeValue s % 2 ^ 6) }

end Sys2Proof.Machine
end

