-- ==== Sys2Proof/Machine/Lifecycle.lean ====
section
/-! DEFINITION. The lifecycle commands NEW, IGNITE, EXTINGUISH and ISLIT (40_lifecycle.md). -/

namespace Sys2Proof.Machine

/-- NEW's dimension check (40_lifecycle.md R122): the product is exact. -/
def legalDims (c : Config) (w h : Nat) : Bool := 1 ≤ w && 1 ≤ h && w * h ≤ c.maxCells

/-- A new field of the latched dimensions and seed (40_lifecycle.md R121, R124). -/
def buildField (c : Config) (s : State) : State :=
  { s with
    width := s.argl0
    height := s.argl1
    grid := gridClear s.grid (newWidth s * newHeight s)
    lit := false
    rng := c.rngSeed (newSeed s)
    cfg := true }

/-- NEW under configuration `c` (40_lifecycle.md R121). -/
def newCommand (c : Config) (s : State) : Result :=
  if legalDims c (newWidth s) (newHeight s) then completeOk (buildField c s) else raiseError .dim s

/-- Row H−1 set to 36 and `lit` set (40_lifecycle.md R126). -/
def lightBottomRow (s : State) : State :=
  { s with
    grid := gridFill s.grid maxLevel (cellAt s 0 (fieldH s - 1)) (fieldW s)
    lit := true }

/-- NEW (40_lifecycle.md R121). -/
def execNew (s : State) : Result := newCommand Config.chip s

/-- IGNITE (40_lifecycle.md R126). -/
def execIgnite (s : State) : Result := needsField s (completeOk (lightBottomRow s))

/-- EXTINGUISH (40_lifecycle.md R130). -/
def execExtinguish (s : State) : Result := needsField s (completeOk { s with lit := false })

/-- ISLIT (40_lifecycle.md R134). -/
def execIslit (s : State) : Result := needsField s (completeOk { s with result := bitWord s.lit })

end Sys2Proof.Machine
end

