-- ==== Sys2Proof/Machine/Render.lean ====
section
/-! DEFINITION. RENDER, palette lookup and the render pipeline (42_render.md). -/

namespace Sys2Proof.Machine

/-- RENDER's checks in their order (42_render.md R191, R192): the first that fails gives the code. -/
def renderCheck (c : Config) (s : State) : Option Completion :=
  if renderLen s ≠ fieldCells s * 4 then some .len
  else if renderBase s % 4 ≠ 0 then some .align
  else if 2 ^ c.addrBits < renderBase s + renderLen s then some .addr
  else none

/-- The pixel the RENDER in flight writes next (10_state.md R48). -/
def renderPosition (s : State) : Nat :=
  match s.cursor with
  | .render i => i
  | .idle => 0
  | .step _ _ => 0

/-- Pixel `i` (42_render.md R191, R193): a level above 36 is fatal (R196), before the write
(60_exceptions.md R246); a bus error ends the command with BUS (R197). -/
def renderPixel (c : Config) (i : Nat) (s : State) : Progress :=
  match colorOf c (gridRead s.grid i) with
  | none => .ended (raiseFatal s)
  | some p =>
    let w := busWritePixel (renderBase s + 4 * i) p s
    if w.2 then .goOn w.1 else .ended (raiseError .bus w.1)

/-- The pixels `i .. i + n`, ascending (42_render.md R194). -/
def renderPixels (c : Config) : Nat → Nat → State → Progress
  | 0, _, s => .goOn s
  | n + 1, i, s =>
    match renderPixel c i s with
    | .goOn s' => renderPixels c n (i + 1) s'
    | .ended r => .ended r

/-- The checks before the first pixel, then `body`: NOCFG, LEN, ALIGN, ADDR (42_render.md R192),
then the refusal of a buffer outside the spec (20_memory.md R70; entry 14). -/
def renderGuard (c : Config) (s : State) (body : Result) : Result :=
  needsField s <|
    match renderCheck c s with
    | some code => raiseError code s
    | none =>
      if outsidePlainMemory c (renderBase s) (renderLen s) then .refused .renderOutsideSpec
      else body

/-- RENDER from its pixel position to its end, under configuration `c` (42_render.md R191). -/
def renderCommand (c : Config) (s : State) : Result :=
  renderGuard c s <|
    match renderPixels c (fieldCells s - renderPosition s) (renderPosition s) s with
    | .goOn s' => completeOk s'
    | .ended r => r

/-- One piece of the RENDER in flight (10_state.md R48): first the checks, then a pixel a time, then
the completion. -/
def renderPiece (c : Config) (s : State) : Result :=
  renderGuard c s <|
    match s.cursor with
    | .render i =>
      if i < fieldCells s then
        match renderPixel c i s with
        | .goOn s' => .next { s' with cursor := .render (i + 1) }
        | .ended r => r
      else completeOk s
    | .idle => .next { s with cursor := .render 0 }
    | .step _ _ => .next { s with cursor := .render 0 }

/-- RENDER (42_render.md R191). -/
def execRender (s : State) : Result := renderCommand Config.chip s

end Sys2Proof.Machine
end

