-- ==== Sys2Proof/Machine/Tick.lean ====
section
/-! DEFINITION. STEP, the neighbourhood rule evaluator (41_step.md). -/

namespace Sys2Proof.Machine

/-! ### The traversal (41_step.md R152, R153) -/

/-- The rows `y .. H` of column `x`, ascending. -/
def columnFrom (h x y : Nat) : List (Nat × Nat) := (List.range' y (h - y)).map fun y' => (x, y')

/-- The source cells from (x, y) on: the rest of column `x`, then every later column from row 1,
columns outer and rows inner (41_step.md R152). -/
def sweepFrom (w h x y : Nat) : List (Nat × Nat) :=
  if x < w then
    columnFrom h x y ++ (List.range' (x + 1) (w - (x + 1))).flatMap fun x' => columnFrom h x' 1
  else []

/-- The position after (x, y) in the traversal. -/
def nextSource (h : Nat) (p : Nat × Nat) : Nat × Nat :=
  if p.2 + 1 < h then (p.1, p.2 + 1) else (p.1 + 1, 1)

/-- The position of the STEP in flight: the cursor's, or the first source cell (10_state.md R48). -/
def stepPosition (s : State) : Nat × Nat :=
  match s.cursor with
  | .step x y => (x, y)
  | .idle => (0, 1)
  | .render _ => (0, 1)

/-- The source cells the STEP in flight has still to visit. -/
def remainingSources (s : State) : List (Nat × Nat) :=
  sweepFrom (fieldW s) (fieldH s) (stepPosition s).1 (stepPosition s).2

/-! ### The per-cell rule -/

/-- The destination index before the clamp: the exact integer `s − rand + 1 − W*k`, modulo
2^IDX_BITS (41_step.md R161, R163, R164). -/
def wrappedDest (c : Config) (w src r k : Nat) : Nat :=
  (((src : Int) - r + 1 - w * k) % (2 ^ c.idxBits : Int)).toNat

/-- Clamp to max (41_step.md R165): `m` is the last valid index. -/
def clampDest (m d : Nat) : Nat := if m < d then m else d

/-- Decay (41_step.md R160): `v − (rand & 1)`. -/
def decayed (v : Nat) (r : Drift) : Nat := v - (r &&& 1).toNat

/-- The rows the heat moves up: one when Lit, a second draw when Unlit (41_step.md R161 to R163). -/
def drawRows (c : Config) (s : State) : Nat × State :=
  if s.lit then (1, s)
  else
    let d := drawDrift c s
    (d.1.toNat, d.2)

/-- A non-zero source of level `v` at index `src` (41_step.md R156, R160 to R166). -/
def spreadHeat (c : Config) (src : Nat) (v : Nat) (s : State) : State :=
  let d := drawDrift c s
  let k := drawRows c d.2
  let dest := clampDest (fieldCells s - 1) (wrappedDest c (fieldW s) src d.1.toNat k.1)
  { k.2 with grid := gridWrite k.2.grid dest (decayed v d.1) }

/-- The visit of the source cell (x, y) (41_step.md R151): the level is read from the grid as the
tick has left it so far (R154); above 36 it is fatal (R173); 0 clears the cell one row up (R155). -/
def visitSource (c : Config) (x y : Nat) (s : State) : Progress :=
  let src := cellAt s x y
  let v := gridRead s.grid src
  if maxLevel < v then .ended (raiseFatal s)
  else if v = 0 then .goOn { s with grid := gridWrite s.grid (src - fieldW s) 0 }
  else .goOn (spreadHeat c src v s)

/-- Visit the sources of a list in order (41_step.md R150, R151). -/
def visitAll (c : Config) : List (Nat × Nat) → State → Progress
  | [], s => .goOn s
  | p :: ps, s =>
    match visitSource c p.1 p.2 s with
    | .goOn s' => visitAll c ps s'
    | .ended r => .ended r

/-! ### The command -/

/-- STEP from its traversal position to its end, under configuration `c` (41_step.md R151). -/
def stepCommand (c : Config) (s : State) : Result :=
  needsField s <|
    match visitAll c (remainingSources s) s with
    | .goOn s' => completeOk s'
    | .ended r => r

/-- One source cell of the STEP in flight (10_state.md R48); a STEP with no source left, or without
a field, ends. -/
def stepPiece (c : Config) (s : State) : Result :=
  needsField s <|
    match remainingSources s with
    | [] => completeOk s
    | p :: _ =>
      match visitSource c p.1 p.2 s with
      | .goOn s' =>
        .next { s' with
          cursor := .step (nextSource (fieldH s) p).1 (nextSource (fieldH s) p).2 }
      | .ended r => r

/-- STEP (41_step.md R151). -/
def execStep (s : State) : Result := stepCommand Config.chip s

end Sys2Proof.Machine
end

