-- ==== Sys2Proof/Machine/Perform.lean ====
section
/-! DEFINITION. The commands under any configuration: the parameters of 00_scope.md R7 and the draw
source's answers are arguments (10_state.md R20). `exec` is the same under `Config.chip`. -/

namespace Sys2Proof.Machine

/-- The command in flight, performed to its end on the latched operands, under configuration `c`.
IGNITE, EXTINGUISH, ISLIT, PEEK and POKE depend on no parameter. -/
def performCommand (c : Config) (i : Instr) (s : State) : Result :=
  match i with
  | .new => newCommand c s
  | .ignite => execIgnite s
  | .extinguish => execExtinguish s
  | .step => stepCommand c s
  | .render => renderCommand c s
  | .islit => execIslit s
  | .peek => execPeek s
  | .poke => execPoke s

end Sys2Proof.Machine
end

