-- ==== Sys2Proof/Machine/Agents.lean ====
section
/-! DEFINITION. The moves of the agents (00_scope.md R6; 60_exceptions.md R255): the engine, the
host agents and reset, and which of them moves next, under any configuration (10_state.md R20). -/

namespace Sys2Proof.Machine

/-! ### The engine -/

/-- A command is in flight, and the block has not halted (10_state.md R36; 60_exceptions.md R252). -/
def inFlight (s : State) : Bool := s.busy && !s.fatal

/-- The engine decodes the latched word and performs the command to its end (30_encoding.md R90,
R92); a reserved word completes with ILLEGAL (R94). Idle otherwise (60_exceptions.md R262). -/
def engineMove (c : Config) (s : State) : Result :=
  if inFlight s then
    match decodeWord s.cmdl with
    | .ok i => performCommand c i s
    | .error _ => raiseError .illegal s
  else .next s

/-- The engine does one piece of a STEP or a RENDER in flight (10_state.md R48); any other command
is one piece. -/
def advanceMove (c : Config) (s : State) : Result :=
  if inFlight s then
    match decodeWord s.cmdl with
    | .ok .step => stepPiece c s
    | .ok .render => renderPiece c s
    | .ok i => performCommand c i s
    | .error _ => raiseError .illegal s
  else .next s

/-! ### Whose move -/

/-- The effect of one event. -/
def respond (c : Config) (e : Event) (s : State) : Result :=
  match e with
  | .engine => engineMove c s
  | .advance => advanceMove c s
  | .host => .next (hostMove c s)
  | .regRead width off => .next (readWindow c width off s)
  | .regWrite width off v => .next (writeWindow width off v s)
  | .memRead a => .next (hostMemRead c a s)
  | .memReadWord k => .next (hostMemReadWord c k s)
  | .memWrite a b => .next (hostMemWrite c a b s)
  | .memWriteWord k v => .next (hostMemWriteWord c k v s)
  | .cacheFill a => .next (cacheFill c a s)
  | .invalidate base len => .next (cacheInvalidate base len s)
  | .reset landed => .next (hardwareReset landed s)

/-- The next move (60_exceptions.md R255; entry 10): the first of the listed events; where none is
listed, the engine's while a command is in flight, the host program's otherwise. -/
def nextMove (c : Config) (s : State) : Result :=
  match s.events with
  | e :: rest => respond c e { s with events := rest }
  | [] => if inFlight s then engineMove c s else .next (hostMove c s)

/-- One step of the machine of configuration `c`, which takes the parameters, the palette and the
draw source's answers as an argument (00_scope.md R7; 10_state.md R20). A configuration that breaks
a constraint of R8 is refused. -/
def stepUnder (c : Config) (s : State) : Result :=
  if c.wf then nextMove c s else .refused .notAConfiguration

/-- A command word `w` as an accepted issue leaves it, with the engine to move next: the place the
engine takes its next command from (30_encoding.md R90; entry 15). -/
def placeCommand (w : Word) (s : State) : State :=
  { acceptIssue w s with fatal := false, events := .engine :: s.events }

end Sys2Proof.Machine
end

