-- ==== Sys2Proof/Machine/Dispatch.lean ====
section
/-! DEFINITION. One arm per command (30_encoding.md R92, "dispatch on OP"). -/

namespace Sys2Proof.Machine

/-- The command in flight, performed to its end on the latched operands. -/
def exec (i : Instr) (s : State) : Host.Outcome State Fault Refusal :=
  match i with
  | .new => Sys2Proof.Machine.execNew s
  | .ignite => Sys2Proof.Machine.execIgnite s
  | .extinguish => Sys2Proof.Machine.execExtinguish s
  | .step => Sys2Proof.Machine.execStep s
  | .render => Sys2Proof.Machine.execRender s
  | .islit => Sys2Proof.Machine.execIslit s
  | .peek => Sys2Proof.Machine.execPeek s
  | .poke => Sys2Proof.Machine.execPoke s

end Sys2Proof.Machine
end

