-- ==== Sys2Proof/Machine/Step.lean ====
section
/-! DEFINITION. One step of the machine the host runs: the next agent's move (00_scope.md R6;
60_exceptions.md R255), under `Config.chip`. `stepUnder` is the step under any configuration. -/

namespace Sys2Proof.Machine

/-- One step. -/
def step (s : State) : Host.Outcome State Fault Refusal := stepUnder Config.chip s

/-- `s` with the command word of an opcode-table row latched as an accepted issue latches it, and
the engine to move next, so that `step` performs exactly it (entry 15). -/
def State.withFetchWord (s : State) (nbits w : Nat) : State := placeCommand (tableWord nbits w) s

end Sys2Proof.Machine
end

