-- ==== Sys2Proof/Safety.lean ====
section
/-! DEFINITION. What counts as a sound state and a good end, in the terms the statements use:
the grid invariant (10_state.md R41; 41_step.md R169), the register invariants (10_state.md R31,
R36, R37), the canonical forms of the grid and of host memory, the end of a run (70_reset_and_hazards.md R295),
and the tick of the update rule written a second time, plainly, for STEP to be compared with
(41_step.md R151, R167). -/

namespace Sys2Proof.Machine

/-- Every cell of the field is in [0, 36] (10_state.md R41). -/
def LevelsLegal (s : State) : Prop :=
  ∀ i, i < fieldCells s → gridRead s.grid i ≤ maxLevel

/-- RENDER's checks pass on the latched operands, and its buffer is plain memory (42_render.md R192;
20_memory.md R70). -/
def RenderLegal (c : Config) (s : State) : Prop :=
  renderCheck c s = none ∧ outsidePlainMemory c (renderBase s) (renderLen s) = false

/-- The invariant every step keeps. -/
structure Inv (c : Config) (s : State) : Prop where
  /-- Host memory has its canonical form, inside the address space (20_memory.md R60). -/
  mem : memWf c s.mem = true
  /-- The copies of the host-side cache have the same form (entry 18). -/
  cache : cacheWf c s.hostCache = true
  /-- The grid RAM has its canonical form, inside `MAX_CELLS` (10_state.md R40). -/
  grid : gridWf c s.grid = true
  /-- A field has legal dimensions (10_state.md R31). -/
  dims : s.cfg = true → legalDims c (fieldW s) (fieldH s) = true
  /-- A field's cells are in [0, 36] (10_state.md R41). -/
  levels : s.cfg = true → LevelsLegal s
  /-- Without a field WIDTH and HEIGHT read 0 (10_state.md R31) and the block is Unlit (R34). -/
  noField : s.cfg = false → s.width = 0 ∧ s.height = 0 ∧ s.lit = false
  /-- A halted block has no command in flight and ERR = 0xF (60_exceptions.md R252). -/
  halted : s.fatal = true → s.busy = false ∧ s.err = .fatal
  /-- ERR = 0xF is written by `fatal()` alone (60_exceptions.md R241). -/
  fatalCode : s.err = .fatal → s.fatal = true
  /-- The cursor is kept only while a command is in flight (10_state.md R48). -/
  idle : s.busy = false → s.cursor = .idle
  /-- Row 0 is never a source (41_step.md R153). -/
  stepCursor : ∀ x y, s.cursor = .step x y → 1 ≤ y
  /-- A RENDER that has begun has a field and has passed its checks (42_render.md R192). -/
  renderCursor : ∀ i, s.cursor = .render i → s.cfg = true ∧ RenderLegal c s

/-- The host program has ended and the block is quiescent (70_reset_and_hazards.md R295). -/
def RunEnded (s : State) : Prop := s.host.program.length ≤ s.host.pc ∧ s.busy = false

/-- A successful final state: the run has ended and the block has not halted
(70_reset_and_hazards.md R295). -/
def GoodEnd (s : State) : Prop := RunEnded s ∧ s.fatal = false

/-- The host writes the register at `off` in this step: as a register access, as an access to the
word at its host address, or by the `wr` statement its program is at (30_encoding.md R98). -/
def WritesRegister (c : Config) (s : State) (off : Offset) : Prop :=
  (∃ v rest, s.events = .regWrite 4 off v :: rest) ∨
    (∃ k v rest, s.events = .memWriteWord k v :: rest ∧ 4 * k = c.regBase + off.toNat) ∨
    ((∃ rest, s.events = .host :: rest) ∨ s.events = []) ∧
      ∃ e, s.host.program[s.host.pc]? = some (.wr off e)

/-- The codes a command can complete with (60_exceptions.md R242). ILLEGAL belongs to the word, not
to a command, and FATAL is the fault. -/
def codesOf : Instr → List Completion
  | .new => [.ok, .dim]
  | .ignite => [.ok, .nocfg]
  | .extinguish => [.ok, .nocfg]
  | .step => [.ok, .nocfg]
  | .render => [.ok, .nocfg, .len, .align, .addr, .bus]
  | .islit => [.ok, .nocfg]
  | .peek => [.ok, .nocfg, .range]
  | .poke => [.ok, .nocfg, .range]

/-! ### The reference tick -/

/-- One source cell of the update rule, on a grid given as a function and with the signed destination
of 41_step.md R167: `draw` is the draw source. -/
def refCell {ρ : Type} (draw : ρ → Nat × ρ) (lit : Bool) (w h src : Nat)
    (gr : (Nat → Nat) × ρ) : (Nat → Nat) × ρ :=
  let v := gr.1 src
  if v = 0 then (fun i => if i = src - w then 0 else gr.1 i, gr.2)
  else
    let rand := draw gr.2
    let rows := if lit then (1, rand.2) else draw rand.2
    let d : Int := (src : Int) - rand.1 + 1 - w * rows.1
    let dest := if d < 0 ∨ (w : Int) * h - 1 < d then w * h - 1 else d.toNat
    (fun i => if i = dest then v - rand.1 % 2 else gr.1 i, rows.2)

/-- The tick: columns outer and ascending, rows 1 to H−1 inner and ascending (41_step.md R152). -/
def refTick {ρ : Type} (draw : ρ → Nat × ρ) (lit : Bool) (w h : Nat)
    (gr : (Nat → Nat) × ρ) : (Nat → Nat) × ρ :=
  (List.range w).foldl
    (fun gr x => (List.range' 1 (h - 1)).foldl
      (fun gr y => refCell draw lit w h (y * w + x) gr) gr) gr

/-- The draw source of 41_step.md R157 and R158, over the RNG state: the number of the thresholds
`2^UBITS`, `3 * 2^UBITS` and `5 * 2^UBITS` that six times the word has reached. -/
def refDraw (c : Config) (rng : Nat) : Nat × Nat :=
  let m := (c.rngNext rng).1.toNat
  ((if 2 ^ c.ubits ≤ 6 * m then 1 else 0) + (if 3 * 2 ^ c.ubits ≤ 6 * m then 1 else 0) +
    (if 5 * 2 ^ c.ubits ≤ 6 * m then 1 else 0), (c.rngNext rng).2)

end Sys2Proof.Machine
end

