-- ==== Sys2Proof/Certificates/Slice0/Obligations.lean ====
section
/-! DEFINITION. The statements for the provers. Each docstring names the rules it formalises. `t`
is always the state a command or a step leaves; a statement that gives `t` as a record update of
`s` says the frame with it: every field it does not name is unchanged. -/

open Sys2Proof Sys2Proof.Machine

/-! ### Encoding -/

/-- 30_encoding.md R93: for each command, its `match` word is the only word that selects it. -/
def Obligations.CommandWordSelectsExactlyOneCommand : Prop :=
  ∀ w : Word,
    (decodeWord w = .ok .new ↔ w = 0x00000001) ∧
    (decodeWord w = .ok .ignite ↔ w = 0x00000002) ∧
    (decodeWord w = .ok .extinguish ↔ w = 0x00000003) ∧
    (decodeWord w = .ok .step ↔ w = 0x00000004) ∧
    (decodeWord w = .ok .render ↔ w = 0x00000005) ∧
    (decodeWord w = .ok .islit ↔ w = 0x00000006) ∧
    (decodeWord w = .ok .peek ↔ w = 0x00000007) ∧
    (decodeWord w = .ok .poke ↔ w = 0x00000008)

/-- 10_state.md R23, 30_encoding.md R91: the four bytes of a CMD write, least significant first,
decode as the word does, whatever the word; and no other number of bytes is a command. -/
def Obligations.BytesDecodeAsTheirLittleEndianWord : Prop :=
  (∀ w : Word, decodeBytes (bytesOfWord w) = decodeWord w) ∧
  (∀ bs : List Byte, bs.length ≠ 4 → decodeBytes bs = .error .wrongLength) ∧
  (∀ i : Instr, i.wf = true → decodeBytes (encodeBytes i) = .ok i)

/-- 30_encoding.md R93: a few words of the opcode map, and three reserved ones (95 V-D1, V-D4). -/
def Obligations.OpcodeTableWordsDecode : Prop :=
  decodeTableWord 32 1 = some .new ∧ decodeTableWord 32 4 = some .step ∧
  decodeTableWord 32 5 = some .render ∧ decodeTableWord 32 7 = some .peek ∧
  decodeTableWord 32 8 = some .poke ∧ decodeTableWord 32 0 = none ∧
  decodeTableWord 32 0x14 = none ∧ decodeTableWord 32 0x80000001 = none

/-- A step runs the decoded command: with a command in flight and the engine to move, by the order
of events or because no event is listed, the step is `exec` of the decoded command. The order of
events and its default are the model's choice (entry 10). The host's machine is one configuration's
(entry 1): the step and the commands take the parameters as an argument (00_scope.md R7,
10_state.md R20), the same statement holds under every configuration, and one that breaks a
constraint of R8 is refused. -/
def Obligations.EngineStepRunsTheDecodedCommand : Prop :=
  (∀ (s : State) (i : Instr), s.busy = true → s.fatal = false → decodeWord s.cmdl = .ok i →
    (∀ rest, s.events = .engine :: rest → step s = exec i { s with events := rest }) ∧
    (s.events = [] → step s = exec i s)) ∧
  (∀ (c : Config) (s : State) (i : Instr), c.wf = true → s.busy = true → s.fatal = false →
    decodeWord s.cmdl = .ok i →
    (∀ rest, s.events = .engine :: rest →
      stepUnder c s = performCommand c i { s with events := rest }) ∧
    (s.events = [] → stepUnder c s = performCommand c i s)) ∧
  (∀ (i : Instr) (s : State), performCommand Config.chip i s = exec i s) ∧
  (∀ s : State, stepUnder Config.chip s = step s) ∧
  (∀ c : Config, c.wf = true ↔
    (1 ≤ c.maxCells ∧ c.maxCells ≤ 2 ^ 30 - 1) ∧ 3 * c.maxCells + 2 ≤ 2 ^ c.idxBits ∧
      3 ≤ c.ubits ∧ 6 ≤ c.cellBits ∧ 1 ≤ c.addrBits ∧ c.addrBits ≤ 32) ∧
  (∀ (c : Config) (s : State), c.wf = false → stepUnder c s = .refused .notAConfiguration)

/-- 30_encoding.md R92: decoding is total. The engine either performs one of the eight commands, or
the word has RSV not 0 or a reserved OP and the command ends with ILLEGAL. -/
def Obligations.LatchedWordIsPerformedOrIllegal : Prop :=
  ∀ (s : State) (rest : List Event),
    s.events = .engine :: rest → s.busy = true → s.fatal = false →
    (∃ i, s.cmdl = encode i ∧ step s = exec i { s with events := rest }) ∨
    ((s.cmdl.extractLsb' 4 28 ≠ 0 ∨ s.cmdl.extractLsb' 0 4 = 0 ∨
        9 ≤ (s.cmdl.extractLsb' 0 4).toNat) ∧
      (∀ i, s.cmdl ≠ encode i) ∧
      step s = .next { s with events := rest, err := .illegal, busy := false, cursor := .idle })

/-! ### The register window -/

/-- 10_state.md R26, 60_exceptions.md R241: the fields of STATUS, the codes of ERR, and reserved
bits 0; an aligned read of offset 0x08 returns that word. -/
def Obligations.StatusWordHasItsFields : Prop :=
  ∀ s : State,
    (statusWord s).getLsbD 0 = s.busy ∧ (statusWord s).getLsbD 1 = s.cfg ∧
    (statusWord s).getLsbD 2 = s.lit ∧ (statusWord s).getLsbD 3 = s.fatal ∧
    (statusWord s).getLsbD 4 = s.ovr ∧ (statusWord s).extractLsb' 5 3 = 0 ∧
    (statusWord s).extractLsb' 12 20 = 0 ∧
    ((statusWord s).extractLsb' 8 4).toNat =
      (match s.err with
        | .ok => 0 | .illegal => 1 | .nocfg => 2 | .dim => 3 | .len => 4
        | .align => 5 | .addr => 6 | .bus => 7 | .range => 8 | .fatal => 15) ∧
    ∀ rest, s.events = .regRead 4 0x08 :: rest →
      step s = .next { s with events := rest, reply := .word (statusWord s) }

/-- 10_state.md R22: a narrow, wide or misaligned access gets a bus error and changes nothing; an
aligned write to a read-only register is ignored; no read has a side effect. An aligned read answers
the register at its offset: ID (R24), 0 for CMD (R25), STATUS (R26), the ARG registers (R28), RESULT
(R29), WIDTH and HEIGHT (R31), MAXCELLS (R32), 0 for the reserved offsets (R33). -/
def Obligations.WindowAccessRules : Prop :=
  ∀ (s : State) (rest : List Event) (width : Nat) (off : Offset) (v : Word),
    (¬ (width = 4 ∧ off.toNat % 4 = 0) →
      (s.events = .regRead width off :: rest ∨ s.events = .regWrite width off v :: rest) →
        step s = .next { s with events := rest, reply := .busError }) ∧
    (width = 4 ∧ off.toNat % 4 = 0 → s.events = .regRead width off :: rest →
      step s = .next { s with
        events := rest
        reply := .word (
          if off.toNat = 0x00 then 0x44464301
          else if off.toNat = 0x04 then 0
          else if off.toNat = 0x08 then statusWord s
          else if off.toNat = 0x0C then s.arg0
          else if off.toNat = 0x10 then s.arg1
          else if off.toNat = 0x14 then s.arg2
          else if off.toNat = 0x18 then s.result
          else if off.toNat = 0x1C then s.width
          else if off.toNat = 0x20 then s.height
          else if off.toNat = 0x24 then BitVec.ofNat 32 Config.chip.maxCells
          else 0) }) ∧
    (width = 4 ∧ off.toNat % 4 = 0 ∧ (off.toNat = 0x00 ∨ 0x18 ≤ off.toNat) →
      s.events = .regWrite width off v :: rest →
        step s = .next { s with events := rest, reply := .done })

/-- 10_state.md R24, R32, R33: ID and MAXCELLS read their constants in every state, reserved offsets
read 0, and writes to reserved offsets are ignored. -/
def Obligations.ConstantAndReservedRegisters : Prop :=
  ∀ (s : State) (rest : List Event),
    (s.events = .regRead 4 0x00 :: rest →
      step s = .next { s with events := rest, reply := .word 0x44464301 }) ∧
    (s.events = .regRead 4 0x24 :: rest →
      step s =
        .next { s with events := rest, reply := .word (BitVec.ofNat 32 Config.chip.maxCells) }) ∧
    (∀ off : Offset, 0x28 ≤ off.toNat → off.toNat % 4 = 0 →
      (s.events = .regRead 4 off :: rest →
        step s = .next { s with events := rest, reply := .word 0 }) ∧
      (∀ v, s.events = .regWrite 4 off v :: rest →
        step s = .next { s with events := rest, reply := .done }))

/-- 10_state.md R28: the host writes the ARG registers at any time, reads the last value back, an
accepted issue copies them into the latch, a later write leaves the latch alone, and no move of the
engine writes them. -/
def Obligations.ArgRegistersAreTheHosts : Prop :=
  (∀ (s : State) (rest : List Event) (v : Word),
    (s.events = .regWrite 4 0x0C v :: rest →
      step s = .next { s with events := rest, arg0 := v, reply := .done }) ∧
    (s.events = .regWrite 4 0x10 v :: rest →
      step s = .next { s with events := rest, arg1 := v, reply := .done }) ∧
    (s.events = .regWrite 4 0x14 v :: rest →
      step s = .next { s with events := rest, arg2 := v, reply := .done }) ∧
    (s.events = .regRead 4 0x0C :: rest →
      step s = .next { s with events := rest, reply := .word s.arg0 }) ∧
    (s.events = .regRead 4 0x10 :: rest →
      step s = .next { s with events := rest, reply := .word s.arg1 }) ∧
    (s.events = .regRead 4 0x14 :: rest →
      step s = .next { s with events := rest, reply := .word s.arg2 }) ∧
    (s.events = .regWrite 4 0x04 v :: rest → s.busy = false → s.fatal = false →
      ∃ t, step s = .next t ∧ t.argl0 = s.arg0 ∧ t.argl1 = s.arg1 ∧ t.argl2 = s.arg2)) ∧
  (∀ s t : State, engineMove Config.chip s = .next t ∨ advanceMove Config.chip s = .next t →
    t.arg0 = s.arg0 ∧ t.arg1 = s.arg1 ∧ t.arg2 = s.arg2)

/-- 10_state.md R27: a STATUS write clears OVR if bit 4 is 1, and does nothing else, whatever BUSY
and FATAL. -/
def Obligations.StatusWriteClearsOverrun : Prop :=
  ∀ (s : State) (rest : List Event) (v : Word), s.events = .regWrite 4 0x08 v :: rest →
    (v.getLsbD 4 = true →
      step s = .next { s with events := rest, ovr := false, reply := .done }) ∧
    (v.getLsbD 4 = false → step s = .next { s with events := rest, reply := .done })

/-- 30_encoding.md R90: a CMD write is dropped while FATAL, dropped with OVR set while BUSY, and
otherwise accepted: the latch is loaded, BUSY is set, and the engine then decodes and performs the
command. An accepted command ends with its code in ERR and BUSY 0. -/
def Obligations.CommandIssue : Prop :=
  (∀ (s : State) (rest : List Event) (w : Word), s.events = .regWrite 4 0x04 w :: rest →
    (s.fatal = true → step s = .next { s with events := rest, reply := .done }) ∧
    (s.fatal = false → s.busy = true →
      step s = .next { s with events := rest, ovr := true, reply := .done }) ∧
    (s.fatal = false → s.busy = false →
      step s = .next { s with
        events := rest, reply := .done, cmdl := w, argl0 := s.arg0, argl1 := s.arg1,
        argl2 := s.arg2, busy := true, cursor := .idle })) ∧
  (∀ s : State, s.busy = true → s.fatal = false →
    engineMove Config.chip s =
      (match decodeWord s.cmdl with
        | .ok i => exec i s
        | .error _ => .next { s with err := .illegal, busy := false, cursor := .idle })) ∧
  (∀ (i : Instr) (s t : State), exec i s = .next t → t.busy = false ∧ t.err ∈ codesOf i)

/-- 10_state.md R38: OVR is set by a CMD write while BUSY and not FATAL, cleared by a STATUS write
with bit 4 = 1 and by reset, and written by nothing else, whichever way the host makes the write. -/
def Obligations.OverrunIsWrittenByItsEventsAlone : Prop :=
  (∀ (s : State) (rest : List Event),
    (∀ w, s.events = .regWrite 4 0x04 w :: rest →
      ∃ t, step s = .next t ∧ t.ovr = (s.ovr || (s.busy && !s.fatal))) ∧
    (∀ v, s.events = .regWrite 4 0x08 v :: rest →
      ∃ t, step s = .next t ∧ t.ovr = (s.ovr && !v.getLsbD 4)) ∧
    (∀ landed, s.events = .reset landed :: rest → ∃ t, step s = .next t ∧ t.ovr = false)) ∧
  (∀ s t : State, step s = .next t → t.ovr ≠ s.ovr →
    (t.ovr = true → WritesRegister Config.chip s 0x04 ∧ s.busy = true ∧ s.fatal = false) ∧
    (t.ovr = false →
      WritesRegister Config.chip s 0x08 ∨ ∃ landed rest, s.events = .reset landed :: rest))

/-- 20_memory.md R74: over every step with BUSY = 1 before and after it, whoever moves, RESULT,
WIDTH, HEIGHT and every bit of STATUS but OVR keep their values, and an ARG register changes only by
a host's write of it (10_state.md R28). That the engine's pieces are steps of their own is the
model's choice (entry 8). -/
def Obligations.RegistersHoldTheirValuesInFlight : Prop :=
  ∀ s t : State, step s = .next t → s.busy = true → t.busy = true →
    t.result = s.result ∧ t.width = s.width ∧ t.height = s.height ∧
    (∀ k, k ≠ 4 → (statusWord t).getLsbD k = (statusWord s).getLsbD k) ∧
    (t.arg0 ≠ s.arg0 → WritesRegister Config.chip s 0x0C) ∧
    (t.arg1 ≠ s.arg1 → WritesRegister Config.chip s 0x10) ∧
    (t.arg2 ≠ s.arg2 → WritesRegister Config.chip s 0x14)

/-- 30_encoding.md R98: a host statement `wr` is the register write of its value, `rd` the register
read with its value bound, and `wait` the register read of STATUS, repeated while BUSY is 1. At a
misaligned offset `wr` and `rd` get the bus error of 10_state.md R22. That the host then goes on, with
no name bound, and that `wait` binds name 0, is the model's choice (entry 16). -/
def Obligations.HostStatementsAccessTheWindow : Prop :=
  ∀ (s : State) (rest : List Event), s.events = .host :: rest →
    (∀ (off : Offset) (e : Expr) (n : Nat), s.host.program[s.host.pc]? = some (.wr off e) →
      evalExpr Config.chip s.host.names e = (n : Int) → n < 2 ^ 32 →
      ∃ t, step { s with events := .regWrite 4 off (BitVec.ofNat 32 n) :: rest } = .next t ∧
        step s = .next { t with host := { s.host with pc := s.host.pc + 1 } }) ∧
    (∀ off k, s.host.program[s.host.pc]? = some (.rd off k) → off.toNat % 4 = 0 →
      ∃ x t, step { s with events := .regRead 4 off :: rest } = .next t ∧ t.reply = .word x ∧
        step s = .next { t with
          host := ⟨s.host.program, s.host.pc + 1, storePut k (x.toNat : Int) s.host.names⟩ }) ∧
    (∀ off k, s.host.program[s.host.pc]? = some (.rd off k) → off.toNat % 4 ≠ 0 →
      step s = .next { s with
        events := rest, reply := .busError, host := { s.host with pc := s.host.pc + 1 } }) ∧
    (s.host.program[s.host.pc]? = some .wait →
      ∃ t, step { s with events := .regRead 4 0x08 :: rest } = .next t ∧
        t.reply = .word (statusWord s) ∧
        step s = .next { t with
          host := ⟨s.host.program, if s.busy then s.host.pc else s.host.pc + 1,
            storePut 0 ((statusWord s).toNat : Int) s.host.names⟩ })

/-- 30_encoding.md R98: `label:` only names the next statement, `if COND goto label` goes on at the
label's statement if COND holds and at the next one otherwise, `name := expr` binds a name, and none
of them makes a bus access; a program that has ended does nothing (70_reset_and_hazards.md R295).
Expressions have the values of 00_scope.md R9. What R9 and R98 leave without a value is a free value,
and only the positions of the goto's own label are named here (entry 16). -/
def Obligations.HostControlFlowMakesNoAccess : Prop :=
  (∀ (s : State) (rest : List Event), s.events = .host :: rest →
    (∀ l, s.host.program[s.host.pc]? = some (.label l) →
      step s = .next { s with events := rest, host := { s.host with pc := s.host.pc + 1 } }) ∧
    (∀ cond l p, s.host.program[s.host.pc]? = some (.ifGoto cond l) →
      s.host.program[p]? = some (.label l) →
      (∀ q, s.host.program[q]? = some (.label l) → q = p) →
      step s = .next { s with
        events := rest
        host := { s.host with
          pc := if evalCond Config.chip s.host.names cond then p else s.host.pc + 1 } }) ∧
    (∀ cond l, s.host.program[s.host.pc]? = some (.ifGoto cond l) →
      evalCond Config.chip s.host.names cond = false →
      step s = .next { s with events := rest, host := { s.host with pc := s.host.pc + 1 } }) ∧
    (∀ k e, s.host.program[s.host.pc]? = some (.assign k e) →
      step s = .next { s with
        events := rest
        host := ⟨s.host.program, s.host.pc + 1,
          storePut k (evalExpr Config.chip s.host.names e) s.host.names⟩ }) ∧
    (s.host.program[s.host.pc]? = none → step s = .next { s with events := rest })) ∧
  (∀ (names : List (Nat × Int)) (n k : Nat) (v : Int),
    evalExpr Config.chip names (.num n) = (n : Int) ∧
    (storeGet k names = some v → evalExpr Config.chip names (.name k) = v)) ∧
  (∀ (names : List (Nat × Int)) (a b : Expr) (x y : Int),
    evalExpr Config.chip names a = x → evalExpr Config.chip names b = y →
    evalExpr Config.chip names (.add a b) = x + y ∧
    evalExpr Config.chip names (.sub a b) = x - y ∧
    evalExpr Config.chip names (.mul a b) = x * y ∧
    (evalCond Config.chip names (.eq a b) = true ↔ x = y) ∧
    (evalCond Config.chip names (.ne a b) = true ↔ x ≠ y)) ∧
  (∀ (names : List (Nat × Int)) (a b : Expr) (x y hi lo k : Nat),
    evalExpr Config.chip names a = (x : Int) → evalExpr Config.chip names b = (y : Int) →
    evalExpr Config.chip names (.band a b) = ((x &&& y : Nat) : Int) ∧
    (y ≠ 0 → evalExpr Config.chip names (.div a b) = ((x / y : Nat) : Int) ∧
      evalExpr Config.chip names (.mod a b) = ((x % y : Nat) : Int)) ∧
    (lo ≤ hi →
      evalExpr Config.chip names (.slice a hi lo) =
        ((x / 2 ^ lo % 2 ^ (hi + 1 - lo) : Nat) : Int)) ∧
    (evalCond Config.chip names (.bit a k) = true ↔ x / 2 ^ k % 2 = 1))

/-- 20_memory.md R60, R64, R65, R78 and 70_reset_and_hazards.md R289: a host agent's accesses by host
address, under every configuration. In host memory a byte or an aligned word is read or written as
one event, a write changes its own bytes alone, and nothing of the block changes. Under a coherent
platform a read answers what memory holds; under one that is not it answers the stale copy of the
host's cache, if there is one, until the host invalidates the range. A copy is a whole word, so an
aligned word read is old or new, whole, in either case. In the register window a word access is the
register access at its offset, and a byte access gets a bus error. What memory holds before anything
has written it, the cache, what shares a word with a device, and the bus error outside of the
address space are the model's choice (entries 9, 18 and 20). -/
def Obligations.HostAccessesByAddress : Prop :=
  ∀ (c : Config) (s : State) (rest : List Event), c.wf = true →
    (∀ a, a < 2 ^ c.addrBits → outsidePlainMemory c a 1 = false →
      (s.events = .memRead a :: rest →
        (c.coherent = true ∨ storeGet (a / 4) s.hostCache = none) →
        stepUnder c s =
          .next { s with events := rest, reply := .byte ((memRead s.mem a).getD (c.memInit a)) }) ∧
      (∀ w : Word, s.events = .memRead a :: rest → c.coherent = false →
        storeGet (a / 4) s.hostCache = some w →
        stepUnder c s =
          .next { s with events := rest, reply := .byte (w.extractLsb' (8 * (a % 4)) 8) }) ∧
      (∀ b, s.events = .memWrite a b :: rest →
        ∃ m cache, stepUnder c s =
            .next { s with events := rest, mem := m, hostCache := cache, reply := .done } ∧
          (∀ j, memRead m j = if j = a then some b else memRead s.mem j) ∧
          (∀ k, k ≠ a / 4 → storeGet k cache = storeGet k s.hostCache) ∧
          (storeGet (a / 4) s.hostCache = none → storeGet (a / 4) cache = none) ∧
          (∀ w : Word, storeGet (a / 4) s.hostCache = some w →
            ∃ w' : Word, storeGet (a / 4) cache = some w' ∧
              ∀ j, j < 4 → w'.extractLsb' (8 * j) 8 =
                if j = a % 4 then b else w.extractLsb' (8 * j) 8))) ∧
    (∀ k, 4 * k + 4 ≤ 2 ^ c.addrBits → outsidePlainMemory c (4 * k) 4 = false →
      (s.events = .memReadWord k :: rest →
        (c.coherent = true ∨ storeGet k s.hostCache = none) →
        stepUnder c s = .next { s with
          events := rest
          reply := .word (memByte c s.mem (4 * k + 3) ++ memByte c s.mem (4 * k + 2) ++
            memByte c s.mem (4 * k + 1) ++ memByte c s.mem (4 * k)) }) ∧
      (∀ w, s.events = .memReadWord k :: rest → c.coherent = false →
        storeGet k s.hostCache = some w →
        stepUnder c s = .next { s with events := rest, reply := .word w }) ∧
      (∀ v : Word, s.events = .memWriteWord k v :: rest →
        ∃ m cache, stepUnder c s =
            .next { s with events := rest, mem := m, hostCache := cache, reply := .done } ∧
          memReadWord m (4 * k) = some v ∧
          (∀ j, j < 4 * k ∨ 4 * k + 4 ≤ j → memRead m j = memRead s.mem j) ∧
          (∀ j, storeGet j cache =
            if j = k then (storeGet k s.hostCache).map fun _ => v else storeGet j s.hostCache)) ∧
      (s.events = .cacheFill k :: rest →
        ∃ cache, stepUnder c s = .next { s with events := rest, hostCache := cache } ∧
          ∀ j, storeGet j cache =
            if j = k then
              some (memByte c s.mem (4 * k + 3) ++ memByte c s.mem (4 * k + 2) ++
                memByte c s.mem (4 * k + 1) ++ memByte c s.mem (4 * k))
            else storeGet j s.hostCache)) ∧
    (∀ base len, s.events = .invalidate base len :: rest →
      ∃ cache, stepUnder c s = .next { s with events := rest, hostCache := cache } ∧
        ∀ j, storeGet j cache =
          if 0 < len ∧ base < 4 * j + 4 ∧ 4 * j < base + len then none
          else storeGet j s.hostCache) ∧
    (∀ (off : Offset) (k : Nat) (v : Word), 4 * k = c.regBase + off.toNat →
      (s.events = .memReadWord k :: rest →
        stepUnder c s = stepUnder c { s with events := .regRead 4 off :: rest }) ∧
      (s.events = .memWriteWord k v :: rest →
        stepUnder c s = stepUnder c { s with events := .regWrite 4 off v :: rest })) ∧
    (∀ a b, (c.regBase ≤ a ∧ a < c.regBase + 64) ∨ 2 ^ c.addrBits ≤ a →
      s.events = .memRead a :: rest ∨ s.events = .memWrite a b :: rest →
      stepUnder c s = .next { s with events := rest, reply := .busError }) ∧
    (∀ (k : Nat) (v : Word) (d : Nat × Nat), d ∈ c.devices → d.1 < 4 * k + 4 → 4 * k < d.1 + d.2 →
      0 < d.2 → 4 * k + 4 ≤ 2 ^ c.addrBits → 4 * k + 4 ≤ c.regBase ∨ c.regBase + 64 ≤ 4 * k →
      s.events = .memReadWord k :: rest ∨ s.events = .memWriteWord k v :: rest →
      stepUnder c s = .next { s with events := rest, reply := .device })

/-! ### The lifecycle commands -/

/-- 40_lifecycle.md R121, R122: NEW with legal dimensions builds a zeroed, Unlit field and seeds the
RNG, whatever field there was; with W = 0, H = 0 or W*H > MAX_CELLS it ends with DIM and changes
nothing but ERR and BUSY. -/
def Obligations.NewBuildsAZeroedField : Prop :=
  ∀ s : State,
    (1 ≤ s.argl0.toNat → 1 ≤ s.argl1.toNat →
      s.argl0.toNat * s.argl1.toNat ≤ Config.chip.maxCells →
      ∃ g, exec .new s = .next { s with
          width := s.argl0, height := s.argl1, grid := g, lit := false,
          rng := Config.chip.rngSeed s.argl2, cfg := true,
          err := .ok, busy := false, cursor := .idle } ∧
        (∀ i, i < s.argl0.toNat * s.argl1.toNat → gridRead g i = 0) ∧
        (∀ i, s.argl0.toNat * s.argl1.toNat ≤ i → gridRead g i = gridRead s.grid i)) ∧
    (s.argl0.toNat = 0 ∨ s.argl1.toNat = 0 ∨
        Config.chip.maxCells < s.argl0.toNat * s.argl1.toNat →
      exec .new s = .next { s with err := .dim, busy := false, cursor := .idle })

/-- 40_lifecycle.md R126: IGNITE sets row H−1 to 36 and `lit`, and nothing else; without a field it
ends with NOCFG. -/
def Obligations.IgniteLightsTheBottomRow : Prop :=
  ∀ s : State,
    (s.cfg = true →
      ∃ g, exec .ignite s = .next { s with
          grid := g, lit := true, err := .ok, busy := false, cursor := .idle } ∧
        (∀ x, x < s.width.toNat →
          gridRead g ((s.height.toNat - 1) * s.width.toNat + x) = 36) ∧
        (∀ i, i < (s.height.toNat - 1) * s.width.toNat ∨
            (s.height.toNat - 1) * s.width.toNat + s.width.toNat ≤ i →
          gridRead g i = gridRead s.grid i)) ∧
    (s.cfg = false → exec .ignite s = .next { s with err := .nocfg, busy := false, cursor := .idle })

/-- 40_lifecycle.md R127: two IGNITEs in a row leave the same state as one; and with a field both
complete with OK (R126). -/
def Obligations.IgniteIsIdempotent : Prop :=
  (∀ s t : State, Inv Config.chip s → exec .ignite s = .next t → exec .ignite t = .next t) ∧
  (∀ s : State, Inv Config.chip s → s.cfg = true →
    ∃ t, exec .ignite s = .next t ∧ t.err = .ok ∧ t.lit = true ∧ exec .ignite t = .next t)

/-- 40_lifecycle.md R128: after NEW and then IGNITE, row H−1 is 36 and every row above it is 0. -/
def Obligations.NewThenIgniteLightsOneRow : Prop :=
  ∀ s : State, 1 ≤ s.argl0.toNat → 1 ≤ s.argl1.toNat →
    s.argl0.toNat * s.argl1.toNat ≤ Config.chip.maxCells →
    ∃ t u, exec .new s = .next t ∧ exec .ignite t = .next u ∧
      ∀ x y, x < s.argl0.toNat → y < s.argl1.toNat →
        gridRead u.grid (y * s.argl0.toNat + x) =
          if y = s.argl1.toNat - 1 then 36 else 0

/-- 40_lifecycle.md R130, R131: EXTINGUISH clears `lit` only; without a field it ends with NOCFG. An
EXTINGUISH right after an IGNITE leaves the grid cell for cell, and only `lit` changes, from 1 to
0. -/
def Obligations.ExtinguishClearsLitOnly : Prop :=
  (∀ s : State,
    (s.cfg = true →
      exec .extinguish s =
        .next { s with lit := false, err := .ok, busy := false, cursor := .idle }) ∧
    (s.cfg = false →
      exec .extinguish s = .next { s with err := .nocfg, busy := false, cursor := .idle })) ∧
  (∀ s t : State, s.cfg = true → exec .ignite s = .next t →
    t.lit = true ∧ exec .extinguish t = .next { t with lit := false })

/-- 40_lifecycle.md R134: ISLIT writes `lit`, zero-extended, to RESULT and nothing else; without a
field it ends with NOCFG and RESULT is unchanged. -/
def Obligations.IslitReadsLit : Prop :=
  ∀ s : State,
    (s.cfg = true →
      exec .islit s = .next { s with
        result := if s.lit then 0x00000001 else 0x00000000,
        err := .ok, busy := false, cursor := .idle }) ∧
    (s.cfg = false →
      exec .islit s = .next { s with err := .nocfg, busy := false, cursor := .idle })

/-- 40_lifecycle.md R135: EXTINGUISH if ISLIT returns 1 and IGNITE otherwise flips `lit`. -/
def Obligations.ToggleFlipsLit : Prop :=
  ∀ s : State, s.cfg = true →
    ∃ t u, exec .islit s = .next t ∧
      exec (if t.result = 1 then .extinguish else .ignite) t = .next u ∧ u.lit = !s.lit

/-! ### STEP -/

/-- 41_step.md R172: from a sound state with a field STEP completes with OK, and writes the grid, the
RNG state and ERR only. No cell outside of the field is written, and no level leaves [0, 36]
(R169). -/
def Obligations.StepCompletesAndKeepsTheRest : Prop :=
  ∀ s : State, Inv Config.chip s → s.cfg = true →
    ∃ g rng, exec .step s = .next { s with
        grid := g, rng := rng, err := .ok, busy := false, cursor := .idle } ∧
      (∀ i, i < s.width.toNat * s.height.toNat → gridRead g i ≤ 36) ∧
      (∀ i, s.width.toNat * s.height.toNat ≤ i → gridRead g i = gridRead s.grid i)

/-- 41_step.md R167: under every legal configuration, the wrapped and clamped destination is the
signed form, for every source outside of row 0 and every drift and row count in 0 to 3. So STEP does
not depend on IDX_BITS, as long as R8 holds (92_eei_decisions.md D16). -/
def Obligations.DestinationHasItsSignedForm : Prop :=
  (∀ (c : Config) (w h s r k : Nat), c.wf = true → 1 ≤ w → w * h ≤ c.maxCells →
    w ≤ s → s ≤ w * h - 1 → r ≤ 3 → k ≤ 3 →
    clampDest (w * h - 1) (wrappedDest c w s r k) =
      (let d : Int := (s : Int) - r + 1 - w * k
       if d < 0 ∨ ((w * h - 1 : Nat) : Int) < d then w * h - 1 else d.toNat)) ∧
  (∀ (c : Config) (n : Nat) (s : State), c.wf = true → Config.wf { c with idxBits := n } = true →
    Inv c s → performCommand { c with idxBits := n } .step s = performCommand c .step s)

/-- 41_step.md R151, R152, R154, R155, R157, R158, R160 to R167: under every configuration, so with
every palette, every grid capacity and every draw source, STEP refines the reference tick, cell for
cell, and makes the same draws in the same order. -/
def Obligations.StepRefinesTheReferenceTick : Prop :=
  ∀ (c : Config) (s : State), c.wf = true → Inv c s → s.cfg = true → s.cursor = .idle →
    ∃ t, performCommand c .step s = .next t ∧
      (∀ i, i < s.width.toNat * s.height.toNat →
        gridRead t.grid i =
          (refTick (refDraw c) s.lit s.width.toNat s.height.toNat
            (fun j => gridRead s.grid j, s.rng)).1 i) ∧
      t.rng =
        (refTick (refDraw c) s.lit s.width.toNat s.height.toNat
          (fun j => gridRead s.grid j, s.rng)).2

/-- 41_step.md R155: a zero source sets the cell one row up to 0, with no draw and no clamp. -/
def Obligations.ZeroSourceClearsTheCellAbove : Prop :=
  ∀ (c : Config) (s : State) (x y : Nat), 1 ≤ y → gridRead s.grid (cellAt s x y) = 0 →
    ∃ g, visitSource c x y s = .goOn { s with grid := g } ∧
      fieldW s ≤ cellAt s x y ∧
      (∀ i, gridRead g i = if i = cellAt s x y - fieldW s then 0 else gridRead s.grid i)

/-- 41_step.md R160, R161: a Lit non-zero source makes one draw and writes its decayed level one row
up, drifted by 1 − rand, or to the last cell where that index is out of the field. -/
def Obligations.LitSourceMovesOneRowUp : Prop :=
  ∀ (c : Config) (s : State) (x y : Nat), c.wf = true → Inv c s → s.cfg = true → s.lit = true →
    x < fieldW s → 1 ≤ y → y < fieldH s → gridRead s.grid (cellAt s x y) ≠ 0 →
    let r := (refDraw c s.rng).1
    let d : Int := ((cellAt s x y : Int) - r + 1) - fieldW s
    let dest := if d < 0 ∨ (fieldCells s : Int) - 1 < d then fieldCells s - 1 else d.toNat
    ∃ g, visitSource c x y s = .goOn { s with grid := g, rng := (c.rngNext s.rng).2 } ∧
      (∀ i, gridRead g i =
        if i = dest then gridRead s.grid (cellAt s x y) - r % 2 else gridRead s.grid i)

/-- 41_step.md R160, R162, R163: an Unlit non-zero source makes a second draw and moves that many
rows up. -/
def Obligations.UnlitSourceMovesRand2RowsUp : Prop :=
  ∀ (c : Config) (s : State) (x y : Nat), c.wf = true → Inv c s → s.cfg = true → s.lit = false →
    x < fieldW s → 1 ≤ y → y < fieldH s → gridRead s.grid (cellAt s x y) ≠ 0 →
    let rng2 := (c.rngNext s.rng).2
    let r := (refDraw c s.rng).1
    let d : Int := ((cellAt s x y : Int) - r + 1) - fieldW s * (refDraw c rng2).1
    let dest := if d < 0 ∨ (fieldCells s : Int) - 1 < d then fieldCells s - 1 else d.toNat
    ∃ g, visitSource c x y s = .goOn { s with grid := g, rng := (c.rngNext rng2).2 } ∧
      (∀ i, gridRead g i =
        if i = dest then gridRead s.grid (cellAt s x y) - r % 2 else gridRead s.grid i)

/-- 41_step.md R171: with H = 1 STEP only completes with OK. With W = 1 a Lit source with rand = 0
has itself as its destination. -/
def Obligations.DegenerateSizes : Prop :=
  (∀ s : State, s.cfg = true → s.height.toNat = 1 → s.cursor = .idle →
    exec .step s = .next { s with err := .ok, busy := false, cursor := .idle }) ∧
  (∀ m src : Nat, src ≤ m → m < Config.chip.maxCells →
    clampDest m (wrappedDest Config.chip 1 src 0 1) = src)

/-- 41_step.md R174: over an all-zero field STEP changes no cell and draws nothing; and no STEP
raises the largest level. -/
def Obligations.NoStepRaisesTheLargestLevel : Prop :=
  (∀ s : State, Inv Config.chip s → s.cfg = true →
    (∀ i, i < s.width.toNat * s.height.toNat → gridRead s.grid i = 0) →
    exec .step s = .next { s with err := .ok, busy := false, cursor := .idle }) ∧
  (∀ (s t : State) (m : Nat), Inv Config.chip s → s.cfg = true → exec .step s = .next t →
    (∀ i, i < s.width.toNat * s.height.toNat → gridRead s.grid i ≤ m) →
    ∀ i, i < s.width.toNat * s.height.toNat → gridRead t.grid i ≤ m)

/-- 41_step.md R158: a draw takes the RNG's next word, moves the RNG state to its next one and nothing
else, and answers the quantized word, which is the reference draw. R157, R159: for 32-bit words the
quantizer's four bands are the intervals whose sizes are 715827883, 1431655765, 1431655766 and
715827882. -/
def Obligations.DrawsAreQuantizedRngWords : Prop :=
  (∀ (c : Config) (s : State),
    drawDrift c s =
      (quantize c.ubits (c.rngNext s.rng).1.toNat, { s with rng := (c.rngNext s.rng).2 }) ∧
    refDraw c s.rng = ((drawDrift c s).1.toNat, (c.rngNext s.rng).2)) ∧
  (∀ m : Nat, m < 2 ^ 32 →
    (quantize 32 m = 0 ↔ m < 715827883) ∧
    (quantize 32 m = 1 ↔ 715827883 ≤ m ∧ m < 715827883 + 1431655765) ∧
    (quantize 32 m = 2 ↔
      715827883 + 1431655765 ≤ m ∧ m < 715827883 + 1431655765 + 1431655766) ∧
    (quantize 32 m = 3 ↔ 2 ^ 32 - 715827882 ≤ m))

/-- 41_step.md R173, 42_render.md R196, 60_exceptions.md R252: a level above 36 that STEP reads as a
source, or RENDER as a palette index, halts the block at once: FATAL = 1, ERR = 0xF, BUSY = 0. The
writes made before the check are kept, no later one is made, and nothing else changes. Stated of the
whole commands and of STEP's next piece. That the fault carries the halted state, and that the
engine's pieces are moves of their own, is the model's choice (entries 13 and 8). -/
def Obligations.IllegalLevelsHaltTheBlock : Prop :=
  (∀ (s u : State) (done todo : List (Nat × Nat)) (x y : Nat), s.cfg = true →
    remainingSources s = done ++ (x, y) :: todo → visitAll Config.chip done s = .goOn u →
    36 < gridRead u.grid (y * s.width.toNat + x) →
    exec .step s = .fault (.invariantViolation
      { s with
        grid := u.grid, rng := u.rng
        fatal := true, err := .fatal, busy := false, cursor := .idle })) ∧
  (∀ (s : State) (rest : List Event) (x y : Nat), s.events = .advance :: rest →
    s.busy = true → s.fatal = false → decodeWord s.cmdl = .ok .step → s.cfg = true →
    s.cursor = .step x y → x < s.width.toNat → y < s.height.toNat →
    36 < gridRead s.grid (y * s.width.toNat + x) →
    step s = .fault (.invariantViolation
      { s with
        events := rest, fatal := true, err := .fatal, busy := false, cursor := .idle })) ∧
  (∀ (s : State) (i : Nat), s.cfg = true → s.cursor = .idle → RenderLegal Config.chip s →
    i < s.width.toNat * s.height.toNat → (∀ j, j < i → gridRead s.grid j ≤ 36) →
    36 < gridRead s.grid i → (∀ a, a ∈ s.busAnswers.take i → a = .ok) →
    ∃ m ans log, exec .render s = .fault (.invariantViolation
        { s with
          mem := m, busAnswers := ans, busLog := log
          fatal := true, err := .fatal, busy := false, cursor := .idle }) ∧
      (∀ j, j < i →
        ∃ p, colorOf Config.chip (gridRead s.grid j) = some p ∧
          memReadWord m (s.argl0.toNat + 4 * j) = some (p.a ++ p.b ++ p.g ++ p.r)) ∧
      (∀ a, a < s.argl0.toNat ∨ s.argl0.toNat + 4 * i ≤ a → memRead m a = memRead s.mem a))

/-! ### RENDER -/

/-- 42_render.md R193, R195: a RENDER that passes its checks and whose writes the bus accepts writes
each cell's colour at base + 4i in the order R, G, B, A, no other byte of memory, and nothing else of
the block but ERR. -/
def Obligations.RenderWritesEveryPixel : Prop :=
  ∀ s : State, Inv Config.chip s → s.cfg = true → s.cursor = .idle →
    RenderLegal Config.chip s →
    (∀ a, a ∈ s.busAnswers.take (s.width.toNat * s.height.toNat) → a = .ok) →
    ∃ m ans log, exec .render s = .next { s with
        mem := m, busAnswers := ans, busLog := log, err := .ok, busy := false, cursor := .idle } ∧
      (∀ i, i < s.width.toNat * s.height.toNat →
        ∃ p, colorOf Config.chip (gridRead s.grid i) = some p ∧
          memRead m (s.argl0.toNat + 4 * i) = some p.r ∧
          memRead m (s.argl0.toNat + 4 * i + 1) = some p.g ∧
          memRead m (s.argl0.toNat + 4 * i + 2) = some p.b ∧
          memRead m (s.argl0.toNat + 4 * i + 3) = some p.a) ∧
      (∀ a, a < s.argl0.toNat ∨ s.argl0.toNat + s.argl1.toNat ≤ a →
        memRead m a = memRead s.mem a)

/-- 20_memory.md R66, 42_render.md R194: the write history grows by the pixels 0, 1, …, W*H − 1 in
that order, each one write at base + 4i, an address that is a multiple of 4. -/
def Obligations.RenderWritesInAscendingOrder : Prop :=
  ∀ s t : State, Inv Config.chip s → s.cfg = true → s.cursor = .idle →
    RenderLegal Config.chip s → exec .render s = .next t → t.err = .ok →
    ∃ ps : List Pixel, ps.length = s.width.toNat * s.height.toNat ∧
      (∀ i (hi : i < ps.length),
        colorOf Config.chip (gridRead s.grid i) = some ps[i] ∧
        (s.argl0.toNat + 4 * i) % 4 = 0) ∧
      t.busLog = s.busLog ++
        ps.mapIdx fun i p => ⟨s.argl0.toNat + 4 * i, p, true⟩

/-- 42_render.md R192: NOCFG, LEN, ALIGN and ADDR in that order, and no byte is written. -/
def Obligations.RenderChecksItsBufferInOrder : Prop :=
  ∀ s : State,
    (s.cfg = false →
      exec .render s = .next { s with err := .nocfg, busy := false, cursor := .idle }) ∧
    (s.cfg = true → s.argl1.toNat ≠ s.width.toNat * s.height.toNat * 4 →
      exec .render s = .next { s with err := .len, busy := false, cursor := .idle }) ∧
    (s.cfg = true → s.argl1.toNat = s.width.toNat * s.height.toNat * 4 → s.argl0.toNat % 4 ≠ 0 →
      exec .render s = .next { s with err := .align, busy := false, cursor := .idle }) ∧
    (s.cfg = true → s.argl1.toNat = s.width.toNat * s.height.toNat * 4 → s.argl0.toNat % 4 = 0 →
      2 ^ Config.chip.addrBits < s.argl0.toNat + s.argl1.toNat →
      exec .render s = .next { s with err := .addr, busy := false, cursor := .idle })

/-- 20_memory.md R70: a RENDER that passes its checks and whose buffer holds an address of the
register window or of a device is refused. That the refusal comes after the checks is the model's
choice (entry 14). -/
def Obligations.RenderOutsidePlainMemoryIsRefused : Prop :=
  ∀ (c : Config) (s : State) (a : Nat), s.cfg = true → renderCheck c s = none →
    s.argl0.toNat ≤ a → a < s.argl0.toNat + s.argl1.toNat →
    (c.regBase ≤ a ∧ a < c.regBase + 64) ∨ (∃ d, d ∈ c.devices ∧ d.1 ≤ a ∧ a < d.1 + d.2) →
    performCommand c .render s = .refused .renderOutsideSpec

/-- 42_render.md R197: the bus fails pixel i. The pixels before it are written, its four bytes hold
what the platform left, no later byte is written, and the command ends with BUS. -/
def Obligations.BusErrorStopsTheRender : Prop :=
  ∀ (s : State) (i : Nat) (left : Pixel), Inv Config.chip s → s.cfg = true → s.cursor = .idle →
    RenderLegal Config.chip s → i < s.width.toNat * s.height.toNat →
    s.busAnswers.take (i + 1) = List.replicate i .ok ++ [.error left] →
    ∃ m ans log, exec .render s = .next { s with
        mem := m, busAnswers := ans, busLog := log, err := .bus, busy := false, cursor := .idle } ∧
      (∀ j, j < i →
        ∃ p, colorOf Config.chip (gridRead s.grid j) = some p ∧
          memRead m (s.argl0.toNat + 4 * j) = some p.r ∧
          memRead m (s.argl0.toNat + 4 * j + 1) = some p.g ∧
          memRead m (s.argl0.toNat + 4 * j + 2) = some p.b ∧
          memRead m (s.argl0.toNat + 4 * j + 3) = some p.a) ∧
      memRead m (s.argl0.toNat + 4 * i) = some left.r ∧
      memRead m (s.argl0.toNat + 4 * i + 1) = some left.g ∧
      memRead m (s.argl0.toNat + 4 * i + 2) = some left.b ∧
      memRead m (s.argl0.toNat + 4 * i + 3) = some left.a ∧
      (∀ a, a < s.argl0.toNat ∨ s.argl0.toNat + 4 * i + 4 ≤ a → memRead m a = memRead s.mem a)

/-- 70_reset_and_hazards.md R289: a RENDER that the bus does not fail completes, and its pixel j holds
cell j's colour, or any value (the answer's `landed`) where a host wrote it at the same moment.
20_memory.md R65: an aligned word of host memory holds, after a piece of a RENDER that the bus answers
`ok`, its four old bytes or the four bytes of one pixel, whole. A RENDER's pieces and the place of the
race's draw are the model's choice (entries 8 and 24). -/
def Obligations.RenderAgainstTheHostsAccesses : Prop :=
  (∀ s : State, Inv Config.chip s → s.cfg = true → s.cursor = .idle → RenderLegal Config.chip s →
    (∀ a left, a ∈ s.busAnswers → a ≠ .error left) →
    ∃ m ans log, exec .render s = .next { s with
        mem := m, busAnswers := ans, busLog := log, err := .ok, busy := false, cursor := .idle } ∧
      (∀ j, j < s.width.toNat * s.height.toNat →
        ∃ p, memReadWord m (s.argl0.toNat + 4 * j) = some (p.a ++ p.b ++ p.g ++ p.r) ∧
          (s.busAnswers[j]? = some (.raced p) ∨
            (∀ l, s.busAnswers[j]? ≠ some (.raced l)) ∧
              colorOf Config.chip (gridRead s.grid j) = some p)) ∧
      (∀ a, a < s.argl0.toNat ∨ s.argl0.toNat + s.argl1.toNat ≤ a →
        memRead m a = memRead s.mem a)) ∧
  (∀ (s t : State) (rest : List Event) (k : Nat), s.events = .advance :: rest →
    decodeWord s.cmdl = .ok .render → s.busAnswers.headD .ok = .ok → step s = .next t →
    (∀ j, j < 4 → memRead t.mem (4 * k + j) = memRead s.mem (4 * k + j)) ∨
    ∃ i p, s.cursor = .render i ∧ 4 * k = s.argl0.toNat + 4 * i ∧
      colorOf Config.chip (gridRead s.grid i) = some p ∧
      memReadWord t.mem (4 * k) = some (p.a ++ p.b ++ p.g ++ p.r))

/-- 42_render.md R198: a field of one level `l` renders to that level's colour in every 4-byte chunk
of the buffer. -/
def Obligations.UniformFieldRendersUniformly : Prop :=
  ∀ (s t : State) (l : Nat) (p : Pixel), Inv Config.chip s → s.cfg = true → s.cursor = .idle →
    (∀ i, i < s.width.toNat * s.height.toNat → gridRead s.grid i = l) →
    colorOf Config.chip l = some p →
    (∀ a, a ∈ s.busAnswers → a = .ok) → exec .render s = .next t → t.err = .ok →
    ∀ i, i < s.width.toNat * s.height.toNat →
      memReadWord t.mem (s.argl0.toNat + 4 * i) = some (p.a ++ p.b ++ p.g ++ p.r)

/-- 42_render.md R199: after NEW(W, H) and IGNITE, a successful RENDER writes 07 07 07 FF into the
first W*(H−1) pixels and FF FF FF FF into the last W. -/
def Obligations.FrameAfterIgnite : Prop :=
  ∀ (s t u v : State) (base len : Word),
    exec .new s = .next t → t.err = .ok → exec .ignite t = .next u →
    (∀ a, a ∈ s.busAnswers → a = .ok) →
    exec .render { u with argl0 := base, argl1 := len } = .next v → v.err = .ok →
    ∀ i, i < s.argl0.toNat * s.argl1.toNat →
      memReadWord v.mem (base.toNat + 4 * i) =
        if i < s.argl0.toNat * (s.argl1.toNat - 1) then some 0xFF070707 else some 0xFFFFFFFF

/-! ### PEEK and POKE -/

/-- 43_debug.md R221: PEEK reads one cell of the field into RESULT, zero-extended and unchecked;
RANGE outside of the field, NOCFG without one. -/
def Obligations.PeekReadsOneCell : Prop :=
  ∀ s : State,
    (s.cfg = true → s.argl0.toNat < s.width.toNat * s.height.toNat →
      ∃ v : Word, v = BitVec.ofNat 32 (gridRead s.grid s.argl0.toNat) ∧
        (Inv Config.chip s → v.toNat = gridRead s.grid s.argl0.toNat) ∧
        exec .peek s =
          .next { s with result := v, err := .ok, busy := false, cursor := .idle }) ∧
    (s.cfg = true → s.width.toNat * s.height.toNat ≤ s.argl0.toNat →
      exec .peek s = .next { s with err := .range, busy := false, cursor := .idle }) ∧
    (s.cfg = false →
      exec .peek s = .next { s with err := .nocfg, busy := false, cursor := .idle })

/-- 43_debug.md R226: POKE writes one cell of the field; RANGE outside of the field or for a value
above 36, taken as the full 32-bit word; NOCFG without a field. -/
def Obligations.PokeWritesOneCell : Prop :=
  ∀ s : State,
    (s.cfg = true → s.argl0.toNat < s.width.toNat * s.height.toNat → s.argl1.toNat ≤ 36 →
      ∃ g, exec .poke s =
          .next { s with grid := g, err := .ok, busy := false, cursor := .idle } ∧
        (∀ i, gridRead g i =
          if i = s.argl0.toNat then s.argl1.toNat else gridRead s.grid i)) ∧
    (s.cfg = true → s.width.toNat * s.height.toNat ≤ s.argl0.toNat ∨ 36 < s.argl1.toNat →
      exec .poke s = .next { s with err := .range, busy := false, cursor := .idle }) ∧
    (s.cfg = false →
      exec .poke s = .next { s with err := .nocfg, busy := false, cursor := .idle })

/-- 43_debug.md R221, 30_encoding.md R99: from a quiescent block with a field, the host's
pseudo-instruction `peek i -> r` binds r to the level of cell i, and leaves the grid, `lit` and the
RNG state (R222). -/
def Obligations.PseudoPeekBindsTheCellsLevel : Prop :=
  ∀ (s : State) (i r : Nat), Inv Config.chip s → s.events = [] → s.busy = false → s.fatal = false → s.cfg = true →
    s.host.program = pseudoPeek (.num i) r → s.host.pc = 0 → i < 2 ^ 32 →
    i < s.width.toNat * s.height.toNat →
    ∃ t, Host.Core.run core 5 s = .next t ∧
      storeGet r t.host.names = some (gridRead s.grid i : Int) ∧
      t.grid = s.grid ∧ t.lit = s.lit ∧ t.rng = s.rng ∧ t.host.pc = 4 ∧ t.busy = false

/-! ### Errors, the fatal state and reset -/

/-- 60_exceptions.md R242: a command ends only with the codes its row marks; FATAL is the model
fault, and a buffer outside the spec the refusal (R263). -/
def Obligations.CommandsEndWithTheirCodesOnly : Prop :=
  ∀ (i : Instr) (s : State),
    (∃ t, exec i s = .next t ∧ t.busy = false ∧
      t.err ∈ codesOf i) ∨
    ((i = .step ∨ i = .render) ∧
      ∃ h, exec i s = .fault (.invariantViolation h) ∧
        h.fatal = true ∧ h.err = .fatal ∧ h.busy = false) ∨
    (i = .render ∧ exec i s = .refused .renderOutsideSpec)

/-- 60_exceptions.md R247: a command that ends with an error other than BUS changes nothing but ERR
and BUSY (and the cursor, which is idle out of flight). One that ends with BUS is a RENDER that failed
at some pixel i: from where it stood, the pixels below i keep what the write left (the colour, or the
draw of a race), the four bytes of pixel i may hold anything (42_render.md R197), no other byte of
host memory changes, and nothing else but the bus's answers and the write history. -/
def Obligations.FailedCommandsChangeOnlyErr : Prop :=
  ∀ (s t : State) (rest : List Event),
    s.events = .engine :: rest → s.busy = true → s.fatal = false → step s = .next t →
    (t.err ≠ .ok → t.err ≠ .bus →
      t = { s with events := rest, err := t.err, busy := false, cursor := .idle }) ∧
    (t.err = .bus →
      t = { s with
        events := rest, err := .bus, busy := false, cursor := .idle,
        mem := t.mem, busAnswers := t.busAnswers, busLog := t.busLog } ∧
      decodeWord s.cmdl = .ok .render ∧ renderLen s = s.width.toNat * s.height.toNat * 4 ∧
      ∃ i, renderPosition s ≤ i ∧ i < s.width.toNat * s.height.toNat ∧
        (∀ j, renderPosition s ≤ j → j < i →
          ∃ p, memReadWord t.mem (renderBase s + 4 * j) = some (p.a ++ p.b ++ p.g ++ p.r) ∧
            (s.busAnswers[j - renderPosition s]? = some (.raced p) ∨
              (∀ l, s.busAnswers[j - renderPosition s]? ≠ some (.raced l)) ∧
                colorOf Config.chip (gridRead s.grid j) = some p)) ∧
        (∀ a, a < renderBase s + 4 * renderPosition s ∨ renderBase s + 4 * i + 4 ≤ a →
          memRead t.mem a = memRead s.mem a))

/-- 10_state.md R50, 60_exceptions.md R241: every command but NEW ends with NOCFG while there is no
field, and changes nothing else. -/
def Obligations.NoFieldNoCommand : Prop :=
  ∀ (i : Instr) (s : State), i ≠ .new → s.cfg = false →
    exec i s = .next { s with err := .nocfg, busy := false, cursor := .idle }

/-- 10_state.md R29: RESULT is written by a successful ISLIT and a successful PEEK alone (and by
reset). -/
def Obligations.OnlyIslitAndPeekWriteResult : Prop :=
  ∀ s t : State, step s = .next t → t.result ≠ s.result →
    (∃ landed rest, s.events = .reset landed :: rest) ∨
    ((decodeWord s.cmdl = .ok .islit ∨ decodeWord s.cmdl = .ok .peek) ∧
      s.busy = true ∧ t.busy = false ∧ t.err = .ok)

/-- 10_state.md R34: IGNITE alone sets `lit`; EXTINGUISH, a successful NEW and reset alone clear
it. -/
def Obligations.OnlyTheLifecycleWritesLit : Prop :=
  ∀ s t : State, step s = .next t → t.lit ≠ s.lit →
    (t.lit = true → decodeWord s.cmdl = .ok .ignite ∧ s.busy = true ∧ t.err = .ok) ∧
    (t.lit = false →
      (∃ landed rest, s.events = .reset landed :: rest) ∨
      ((decodeWord s.cmdl = .ok .extinguish ∨ decodeWord s.cmdl = .ok .new) ∧
        s.busy = true ∧ t.err = .ok))

/-- 10_state.md R31, R35: a successful NEW alone writes WIDTH and HEIGHT and sets CFG (and reset,
which puts all three at 0, alone clears CFG). -/
def Obligations.OnlyNewAndResetWriteTheDimensionsAndCfg : Prop :=
  ∀ s t : State, step s = .next t →
    (t.width ≠ s.width ∨ t.height ≠ s.height ∨ t.cfg ≠ s.cfg →
      ((∃ landed rest, s.events = .reset landed :: rest) ∧
        t.width = 0 ∧ t.height = 0 ∧ t.cfg = false) ∨
      (decodeWord s.cmdl = .ok .new ∧ s.busy = true ∧ s.fatal = false ∧ t.err = .ok ∧
        t.width = s.argl0 ∧ t.height = s.argl1 ∧ t.cfg = true))

/-- 20_memory.md R63: a cell is changed by NEW, IGNITE, STEP and POKE alone, in flight, and only a
cell of the field. 10_state.md R46: the RNG state is changed by NEW and STEP alone. (Reset is the
other way both may change, R49.) -/
def Obligations.OnlyTheirCommandsWriteTheGridAndTheRng : Prop :=
  ∀ s t : State, Inv Config.chip s → step s = .next t →
    (∀ i, gridRead t.grid i ≠ gridRead s.grid i →
      (∃ landed rest, s.events = .reset landed :: rest) ∨
      ((decodeWord s.cmdl = .ok .new ∨ decodeWord s.cmdl = .ok .ignite ∨
          decodeWord s.cmdl = .ok .step ∨ decodeWord s.cmdl = .ok .poke) ∧
        s.busy = true ∧ s.fatal = false ∧ t.cfg = true ∧
        i < t.width.toNat * t.height.toNat)) ∧
    (t.rng ≠ s.rng →
      (∃ landed rest, s.events = .reset landed :: rest) ∨
      ((decodeWord s.cmdl = .ok .new ∨ decodeWord s.cmdl = .ok .step) ∧
        s.busy = true ∧ s.fatal = false))

/-- 20_memory.md R60, R62: the block changes host memory by RENDER alone, and inside its buffer
alone. (A host's own write and a reset that tears the pixel being written are the other two ways a
byte changes.) -/
def Obligations.OnlyRenderWritesHostMemory : Prop :=
  ∀ s t : State, Inv Config.chip s → step s = .next t →
    (∀ a b rest, s.events ≠ .memWrite a b :: rest) →
    (∀ k v rest, s.events ≠ .memWriteWord k v :: rest) →
    ∀ a, memRead t.mem a ≠ memRead s.mem a →
      s.argl0.toNat ≤ a ∧ a < s.argl0.toNat + s.argl1.toNat ∧
      s.argl1.toNat = s.width.toNat * s.height.toNat * 4 ∧
      ((decodeWord s.cmdl = .ok .render ∧ s.busy = true) ∨
        ∃ landed rest i, s.events = .reset landed :: rest ∧ s.cursor = .render i)

/-- 10_state.md R37: FATAL is set by `fatal()` alone, which is the model's fault, and cleared by
reset alone. -/
def Obligations.FatalIsStickyUntilReset : Prop :=
  (∀ s t : State, step s = .next t → (∀ l rest, s.events ≠ .reset l :: rest) →
    t.fatal = s.fatal) ∧
  (∀ (s t : State) (l : Option Pixel) (rest : List Event),
    s.events = .reset l :: rest → step s = .next t → t.fatal = false) ∧
  (∀ s h : State, step s = .fault (.invariantViolation h) → h.fatal = true)

/-- 60_exceptions.md R253: while FATAL = 1 a CMD write does nothing, not even to OVR; the registers
can be read, ARG writes take effect, a STATUS write clears OVR, and only reset leaves the state. -/
def Obligations.HaltedBlockDropsCommands : Prop :=
  ∀ (s : State) (rest : List Event), s.fatal = true →
    (∀ w, s.events = .regWrite 4 0x04 w :: rest →
      step s = .next { s with events := rest, reply := .done }) ∧
    (∀ off, off.toNat % 4 = 0 → s.events = .regRead 4 off :: rest →
      step s =
        .next { s with events := rest, reply := .word (registerValue Config.chip off s) }) ∧
    (∀ v, s.events = .regWrite 4 0x0C v :: rest →
      step s = .next { s with events := rest, arg0 := v, reply := .done }) ∧
    (∀ v, s.events = .regWrite 4 0x10 v :: rest →
      step s = .next { s with events := rest, arg1 := v, reply := .done }) ∧
    (∀ v, s.events = .regWrite 4 0x14 v :: rest →
      step s = .next { s with events := rest, arg2 := v, reply := .done }) ∧
    (∀ v : Word, v.getLsbD 4 = true → s.events = .regWrite 4 0x08 v :: rest →
      step s = .next { s with events := rest, ovr := false, reply := .done }) ∧
    (∀ t, step s = .next t → (∀ l r, s.events ≠ .reset l :: r) → t.fatal = true)

/-- 10_state.md R49, 70_reset_and_hazards.md R280: from every state reset leaves every register at
its reset value, and abandons the command in flight without a code. It does not touch what lies
outside of the block but the pixel being written (R281, R282); that the outside is these fields is the
model's choice (entries 10, 11, 16, 18 and 22). -/
def Obligations.ResetRestoresTheResetTable : Prop :=
  ∀ (s : State) (landed : Option Pixel) (rest : List Event), s.events = .reset landed :: rest →
    ∃ t, step s = .next t ∧
      registerValue Config.chip 0x00 t = 0x44464301 ∧
      registerValue Config.chip 0x04 t = 0 ∧ registerValue Config.chip 0x08 t = 0 ∧
      registerValue Config.chip 0x0C t = 0 ∧ registerValue Config.chip 0x10 t = 0 ∧
      registerValue Config.chip 0x14 t = 0 ∧ registerValue Config.chip 0x18 t = 0 ∧
      registerValue Config.chip 0x1C t = 0 ∧ registerValue Config.chip 0x20 t = 0 ∧
      registerValue Config.chip 0x24 t = BitVec.ofNat 32 Config.chip.maxCells ∧
      t.busy = false ∧ t.cfg = false ∧ t.lit = false ∧ t.fatal = false ∧ t.ovr = false ∧
      t.err = .ok ∧ t.events = rest ∧ t.host = s.host ∧ t.hostCache = s.hostCache ∧
      t.busAnswers = s.busAnswers ∧ t.busLog = s.busLog ∧ t.reply = s.reply ∧
      (pixelInFlight s = none → t.mem = s.mem)

/-- 70_reset_and_hazards.md R282: reset during a RENDER at pixel i. The pixels before i keep their
bytes, the four bytes of pixel i hold any value (`landed`), no later byte is written, and ERR reads
0. -/
def Obligations.ResetDuringRenderTearsOnePixel : Prop :=
  ∀ (s : State) (landed : Option Pixel) (rest : List Event) (i : Nat),
    s.events = .reset landed :: rest → s.cursor = .render i →
    i < s.width.toNat * s.height.toNat →
    ∃ t, step s = .next t ∧ t.err = .ok ∧ t.busy = false ∧
      (∀ a, a < s.argl0.toNat + 4 * i ∨ s.argl0.toNat + 4 * i + 4 ≤ a →
        memRead t.mem a = memRead s.mem a) ∧
      (landed = none → t.mem = s.mem) ∧
      (∀ p, landed = some p →
        memRead t.mem (s.argl0.toNat + 4 * i) = some p.r ∧
        memRead t.mem (s.argl0.toNat + 4 * i + 1) = some p.g ∧
        memRead t.mem (s.argl0.toNat + 4 * i + 2) = some p.b ∧
        memRead t.mem (s.argl0.toNat + 4 * i + 3) = some p.a)

/-! ### The whole machine -/

/-- The invariant holds right after reset. -/
def Obligations.InvariantHoldsAtReset : Prop := Inv Config.chip State.reset

/-- Every step keeps the invariant, under every configuration and so for the host's machine: the
grid's levels in [0, 36] (10_state.md R41, 43_debug.md R227), legal dimensions (10_state.md R31), the
canonical forms of the grid and of host memory, and the rules of BUSY, FATAL, ERR and the cursor. -/
def Obligations.EveryStepKeepsTheInvariant : Prop :=
  (∀ s t : State, Inv Config.chip s → step s = .next t → Inv Config.chip t) ∧
  (∀ (c : Config) (s t : State), Inv c s → stepUnder c s = .next t → Inv c t)

/-- 60_exceptions.md R251, 41_step.md R169: from a sound state no step halts the block, under any
configuration. -/
def Obligations.SoundStatesNeverHalt : Prop :=
  ∀ (c : Config) (s h : State), Inv c s → stepUnder c s ≠ .fault (.invariantViolation h)

/-- 00_scope.md R6, 20_memory.md R76: one piece of a command and then the rest is the command whole.
Whatever pieces the engine does first, performing the command in flight to its end gives the same
answer. The pieces are the model's choice (entry 8). -/
def Obligations.PiecesMakeTheWholeCommand : Prop :=
  ∀ (c : Config) (s t : State), advanceMove c s = .next t → t.busy = true →
    engineMove c t = engineMove c s
end

