-- ==== Sys2Proof/Laws/Store.lean ====
section
/-! SUPPORT. The laws of the sorted store, of the grid RAM and of host memory: a read after a write,
and that every operation keeps the canonical form. -/

namespace Sys2Proof.Machine

section Store
variable {α : Type}

@[simp] theorem storeGet_put (k j : Nat) (v : α) (m : List (Nat × α)) :
    storeGet j (storePut k v m) = if k = j then some v else storeGet j m := by
  induction m with
  | nil => simp [storePut, storeGet]
  | cons e m ih =>
    obtain ⟨k', v'⟩ := e
    simp only [storePut]
    split
    · simp [storeGet]
    · split
      · rename_i h
        subst h
        by_cases hj : k = j <;> simp [storeGet, hj]
      · by_cases hj : k' = j
        · subst hj
          simp [storeGet, *]
        · simp [storeGet, hj, ih]

theorem storeGet_filter (p : Nat → Bool) (j : Nat) (m : List (Nat × α)) :
    storeGet j (m.filter fun e => p e.1) = if p j then storeGet j m else none := by
  induction m with
  | nil => simp [storeGet]
  | cons e m ih =>
    obtain ⟨k', v'⟩ := e
    by_cases hk : k' = j
    · subst hk
      by_cases hp : p k' <;> simp [hp, storeGet, ih]
    · by_cases hp : p k' <;> simp [hp, storeGet, hk, ih]

@[simp] theorem storeGet_erase (k j : Nat) (m : List (Nat × α)) :
    storeGet j (storeErase k m) = if k = j then none else storeGet j m := by
  have h := storeGet_filter (fun k' => k' ≠ k) j m
  simp only [storeErase]
  rw [h]
  by_cases hj : k = j
  · simp [hj]
  · simp [hj, Ne.symm hj]

/-- The store's order, as a relation between every two entries. -/
theorem storeSorted_iff (m : List (Nat × α)) :
    storeSorted m = true ↔ m.Pairwise fun e₁ e₂ => e₁.1 < e₂.1 := by
  induction m with
  | nil => simp [storeSorted]
  | cons e m ih =>
    cases m with
    | nil => simp [storeSorted]
    | cons e' m =>
      simp only [storeSorted, Bool.and_eq_true, decide_eq_true_eq, ih, List.pairwise_cons]
      constructor
      · rintro ⟨h, h', hp⟩
        refine ⟨?_, h', hp⟩
        intro a ha
        rcases List.mem_cons.mp ha with rfl | ha
        · exact h
        · exact h.trans (h' a ha)
      · rintro ⟨h, h', hp⟩
        exact ⟨h e' (List.mem_cons_self ..), h', hp⟩

theorem mem_storePut {k : Nat} {v : α} {m : List (Nat × α)} {e : Nat × α}
    (h : e ∈ storePut k v m) : e = (k, v) ∨ e ∈ m := by
  induction m with
  | nil => simpa [storePut] using h
  | cons e' m ih =>
    obtain ⟨k', v'⟩ := e'
    simp only [storePut] at h
    split at h
    · simpa using h
    · split at h
      · rcases List.mem_cons.mp h with h | h
        · exact .inl h
        · exact .inr (List.mem_cons_of_mem _ h)
      · rcases List.mem_cons.mp h with h | h
        · exact .inr (h ▸ List.mem_cons_self ..)
        · exact (ih h).imp id (List.mem_cons_of_mem _)

theorem storeSorted_put (k : Nat) (v : α) {m : List (Nat × α)} (h : storeSorted m = true) :
    storeSorted (storePut k v m) = true := by
  rw [storeSorted_iff] at h ⊢
  induction m with
  | nil => simp [storePut]
  | cons e m ih =>
    obtain ⟨k', v'⟩ := e
    obtain ⟨hk, hm⟩ := List.pairwise_cons.mp h
    simp only [storePut]
    split
    · rename_i hlt
      refine List.pairwise_cons.mpr ⟨?_, h⟩
      intro a ha
      rcases List.mem_cons.mp ha with rfl | ha
      · exact hlt
      · exact hlt.trans (hk a ha)
    · split
      · rename_i heq
        subst heq
        exact List.pairwise_cons.mpr ⟨hk, hm⟩
      · refine List.pairwise_cons.mpr ⟨?_, ih hm⟩
        intro a ha
        rcases mem_storePut ha with rfl | ha
        · simp only; omega
        · exact hk a ha

theorem storeSorted_filter (p : Nat × α → Bool) {m : List (Nat × α)} (h : storeSorted m = true) :
    storeSorted (m.filter p) = true := by
  rw [storeSorted_iff] at h ⊢
  exact h.filter p

theorem storeGet_none_of_lt {k : Nat} {m : List (Nat × α)} (h : ∀ e ∈ m, k < e.1) :
    storeGet k m = none := by
  induction m with
  | nil => rfl
  | cons e m ih =>
    have hk := h e (List.mem_cons_self ..)
    simp only [storeGet]
    rw [if_neg (by omega)]
    exact ih fun e he => h e (List.mem_cons_of_mem _ he)

/-- Two stores in canonical order that read the same at every key are the same list. -/
theorem store_ext {m n : List (Nat × α)} (hm : storeSorted m = true) (hn : storeSorted n = true)
    (h : ∀ k, storeGet k m = storeGet k n) : m = n := by
  rw [storeSorted_iff] at hm hn
  induction m generalizing n with
  | nil =>
    cases n with
    | nil => rfl
    | cons f n => simpa [storeGet] using h f.1
  | cons e m ih =>
    cases n with
    | nil => simpa [storeGet] using h e.1
    | cons f n =>
      obtain ⟨he, hm'⟩ := List.pairwise_cons.mp hm
      obtain ⟨hf, hn'⟩ := List.pairwise_cons.mp hn
      have hhead : e = f := by
        rcases Nat.lt_trichotomy e.1 f.1 with hl | heq | hl
        · have := h e.1
          rw [storeGet_none_of_lt (m := f :: n) (by
            intro x hx
            rcases List.mem_cons.mp hx with rfl | hx
            · exact hl
            · exact hl.trans (hf x hx))] at this
          simp [storeGet] at this
        · have := h e.1
          simp [storeGet, heq] at this
          exact Prod.ext heq this
        · have := h f.1
          rw [storeGet_none_of_lt (m := e :: m) (by
            intro x hx
            rcases List.mem_cons.mp hx with rfl | hx
            · exact hl
            · exact hl.trans (he x hx))] at this
          simp [storeGet] at this
      subst hhead
      congr 1
      refine ih hm' hn' fun k => ?_
      have hk := h k
      simp only [storeGet] at hk
      by_cases hek : e.1 = k
      · rw [storeGet_none_of_lt (hek ▸ he), storeGet_none_of_lt (hek ▸ hf)]
      · rwa [if_neg hek, if_neg hek] at hk

theorem mem_of_storeGet {k : Nat} {v : α} {m : List (Nat × α)} (h : storeGet k m = some v) :
    (k, v) ∈ m := by
  induction m with
  | nil => cases h
  | cons e m ih =>
    simp only [storeGet] at h
    split at h
    · rename_i heq
      cases h
      rw [← heq]
      exact List.mem_cons_self ..
    · exact List.mem_cons_of_mem _ (ih h)

theorem storeGet_of_mem {m : List (Nat × α)} (h : storeSorted m = true) {e : Nat × α}
    (he : e ∈ m) : storeGet e.1 m = some e.2 := by
  rw [storeSorted_iff] at h
  induction m with
  | nil => cases he
  | cons f m ih =>
    obtain ⟨hf, hm⟩ := List.pairwise_cons.mp h
    rcases List.mem_cons.mp he with rfl | he
    · simp [storeGet]
    · have := hf e he
      simp only [storeGet]
      rw [if_neg (by omega)]
      exact ih hm he

end Store

/-! ### The grid -/

@[simp] theorem gridRead_write (g : List (Nat × Nat)) (i j : Nat) (v : Nat) :
    gridRead (gridWrite g i v) j = if i = j then v else gridRead g j := by
  unfold gridRead gridWrite
  split
  · rename_i hv
    by_cases hj : i = j <;> simp [hv, hj]
  · by_cases hj : i = j <;> simp [hj]

@[simp] theorem gridRead_clear (g : List (Nat × Nat)) (n j : Nat) :
    gridRead (gridClear g n) j = if j < n then 0 else gridRead g j := by
  have h := storeGet_filter (fun k => decide (n ≤ k)) j g
  simp only [gridRead, gridClear]
  rw [h]
  by_cases hj : n ≤ j
  · simp [hj]
  · have hj' : j < n := Nat.lt_of_not_le hj
    simp [hj, hj']

@[simp] theorem gridRead_fill (g : List (Nat × Nat)) (v : Nat) (start n j : Nat) :
    gridRead (gridFill g v start n) j = if start ≤ j ∧ j < start + n then v else gridRead g j := by
  induction n generalizing g start with
  | zero =>
    have h : ¬ (start ≤ j ∧ j < start + 0) := by omega
    simp only [gridFill, if_neg h]
  | succ n ih =>
    simp only [gridFill, ih, gridRead_write]
    by_cases h₁ : start = j
    · have h₂ : ¬ (start + 1 ≤ j ∧ j < start + 1 + n) := by omega
      have h₃ : start ≤ j ∧ j < start + (n + 1) := by omega
      rw [if_neg h₂, if_pos h₁, if_pos h₃]
    · by_cases h₂ : start + 1 ≤ j ∧ j < start + 1 + n
      · have h₃ : start ≤ j ∧ j < start + (n + 1) := by omega
        rw [if_pos h₂, if_pos h₃]
      · have h₃ : ¬ (start ≤ j ∧ j < start + (n + 1)) := by omega
        rw [if_neg h₂, if_neg h₁, if_neg h₃]

theorem gridWf_iff (c : Config) (g : List (Nat × Nat)) :
    gridWf c g = true ↔
      storeSorted g = true ∧ ∀ e ∈ g, e.1 < c.maxCells ∧ e.2 ≠ 0 ∧ e.2 < 2 ^ c.cellBits := by
  simp [gridWf, and_assoc]

theorem gridWf_filter {c : Config} {g : List (Nat × Nat)} (p : Nat × Nat → Bool)
    (h : gridWf c g = true) : gridWf c (g.filter p) = true := by
  rw [gridWf_iff] at h ⊢
  exact ⟨storeSorted_filter p h.1, fun e he => h.2 e (List.mem_of_mem_filter he)⟩

theorem gridWf_write {c : Config} {g : List (Nat × Nat)} {i : Nat} {v : Nat}
    (h : gridWf c g = true) (hi : i < c.maxCells) (hb : v < 2 ^ c.cellBits) :
    gridWf c (gridWrite g i v) = true := by
  unfold gridWrite
  split
  · exact gridWf_filter _ h
  · rename_i hv
    rw [gridWf_iff] at h ⊢
    refine ⟨storeSorted_put i v h.1, fun e he => ?_⟩
    rcases mem_storePut he with rfl | he
    · exact ⟨hi, hv, hb⟩
    · exact h.2 e he

theorem gridWf_clear {c : Config} {g : List (Nat × Nat)} (n : Nat) (h : gridWf c g = true) :
    gridWf c (gridClear g n) = true := gridWf_filter _ h

theorem gridWf_fill {c : Config} {g : List (Nat × Nat)} {v : Nat} {start n : Nat}
    (h : gridWf c g = true) (hn : start + n ≤ c.maxCells) (hb : v < 2 ^ c.cellBits) :
    gridWf c (gridFill g v start n) = true := by
  induction n generalizing g start with
  | zero => exact h
  | succ n ih => exact ih (gridWf_write h (by omega) hb) (by omega)

/-- Two grids in canonical form that read the same at every cell are the same data. -/
theorem grid_ext {c : Config} {g g' : List (Nat × Nat)} (h : gridWf c g = true)
    (h' : gridWf c g' = true) (he : ∀ i, gridRead g i = gridRead g' i) : g = g' := by
  have key : ∀ {g : List (Nat × Nat)}, gridWf c g = true → ∀ k,
      storeGet k g = if gridRead g k = 0 then none else some (gridRead g k) := by
    intro g hg k
    unfold gridRead
    cases hk : storeGet k g with
    | none => rfl
    | some v => exact (if_neg (((gridWf_iff c g).mp hg).2 _ (mem_of_storeGet hk)).2.1).symm
  exact store_ext ((gridWf_iff c g).mp h).1 ((gridWf_iff c g').mp h').1
    fun k => by rw [key h, key h', he k]

/-- Writing 0 to a cell that holds 0 changes nothing. -/
theorem gridWrite_zero {c : Config} {g : List (Nat × Nat)} {i : Nat} (h : gridWf c g = true)
    (hi : gridRead g i = 0) : gridWrite g i 0 = g := by
  unfold gridWrite storeErase
  rw [if_pos rfl, List.filter_eq_self]
  intro e he
  have hg := (gridWf_iff c g).mp h
  have hne : e.1 ≠ i := by
    rintro rfl
    unfold gridRead at hi
    rw [storeGet_of_mem hg.1 he] at hi
    exact (hg.2 e he).2.1 hi
  simpa using hne

/-- A grid in canonical form holds levels of `CELL_BITS` bits alone. -/
theorem gridRead_lt {c : Config} {g : List (Nat × Nat)} (h : gridWf c g = true) (i : Nat) :
    gridRead g i < 2 ^ c.cellBits := by
  unfold gridRead
  cases hk : storeGet i g with
  | none => exact Nat.two_pow_pos _
  | some v => exact (((gridWf_iff c g).mp h).2 _ (mem_of_storeGet hk)).2.2

/-! ### Host memory -/

@[simp] theorem memRead_write (m : List Host.Cell) (a j : Nat) (b : Byte) :
    memRead (memWrite m a b) j = if a = j then some b else memRead m j := storeGet_put a j b m

/-- Everything a pixel write does to host memory. -/
theorem memRead_writePixel (m : List Host.Cell) (a j : Nat) (p : Pixel) :
    memRead (memWritePixel m a p) j =
      if j = a then some p.r
      else if j = a + 1 then some p.g
      else if j = a + 2 then some p.b
      else if j = a + 3 then some p.a
      else memRead m j := by
  simp only [memWritePixel, memRead_write]
  by_cases h₀ : j = a
  · subst h₀; simp
  by_cases h₁ : j = a + 1
  · subst h₁; simp
  by_cases h₂ : j = a + 2
  · subst h₂; simp
  by_cases h₃ : j = a + 3
  · subst h₃; simp
  · simp [h₀, h₁, h₂, h₃, Ne.symm h₀, Ne.symm h₁, Ne.symm h₂, Ne.symm h₃]

theorem memWf_iff (c : Config) (m : List Host.Cell) :
    memWf c m = true ↔ storeSorted m = true ∧ ∀ e ∈ m, e.1 < 2 ^ c.addrBits := by
  simp [memWf]

theorem memWf_write {c : Config} {m : List Host.Cell} {a : Nat} (b : Byte)
    (h : memWf c m = true) (ha : a < 2 ^ c.addrBits) : memWf c (memWrite m a b) = true := by
  rw [memWf_iff] at h ⊢
  refine ⟨storeSorted_put a b h.1, fun e he => ?_⟩
  rcases mem_storePut he with rfl | he
  · exact ha
  · exact h.2 e he

theorem memWf_writePixel {c : Config} {m : List Host.Cell} {a : Nat} (p : Pixel)
    (h : memWf c m = true) (ha : a + 4 ≤ 2 ^ c.addrBits) :
    memWf c (memWritePixel m a p) = true :=
  memWf_write _ (memWf_write _ (memWf_write _ (memWf_write _ h (by omega)) (by omega)) (by omega))
    (by omega)

theorem memWf_reset (c : Config) : memWf c State.reset.mem = true := rfl

theorem gridWf_reset (c : Config) : gridWf c State.reset.grid = true := rfl

end Sys2Proof.Machine
end

