-- ==== Sys2Proof/Laws/HostMemory.lean ====
section
/-! SUPPORT. The laws of the words of host memory and of their copies in the host-side cache
(20_memory.md R64, R65, R78): a read after a write, and that every operation keeps the canonical
forms. -/

namespace Sys2Proof.Machine

/-! ### Bytes of a word -/

/-- The bits of a word built from four bytes. -/
theorem getLsbD_wordOfBytes (b0 b1 b2 b3 : Byte) (i : Nat) :
    (wordOfBytes b0 b1 b2 b3).getLsbD i =
      if i < 8 then b0.getLsbD i else if i < 16 then b1.getLsbD (i - 8)
      else if i < 24 then b2.getLsbD (i - 16) else b3.getLsbD (i - 24) := by
  simp only [wordOfBytes, BitVec.getLsbD_append, Nat.sub_sub]
  by_cases h₀ : i < 8
  · simp [h₀]
  · by_cases h₁ : i < 16
    · simp [h₀, h₁, show i - 8 < 8 by omega]
    · by_cases h₂ : i < 24
      · simp [h₀, h₁, h₂, show ¬ i - 8 < 8 by omega, show i - 16 < 8 by omega]
      · simp [h₀, h₁, h₂, show ¬ i - 8 < 8 by omega, show ¬ i - 16 < 8 by omega]

/-- A word is its four bytes. -/
@[simp] theorem wordOfBytes_bytes (w : Word) :
    wordOfBytes (byteOfWord w 0) (byteOfWord w 1) (byteOfWord w 2) (byteOfWord w 3) = w := by
  refine BitVec.eq_of_getLsbD_eq fun i hi => ?_
  simp only [getLsbD_wordOfBytes, byteOfWord, BitVec.getLsbD_extractLsb']
  split_ifs with h₀ h₁ h₂
  · simp [h₀]
  · simp [show i - 8 < 8 by omega, show 8 + (i - 8) = i by omega]
  · simp [show i - 16 < 8 by omega, show 16 + (i - 16) = i by omega]
  · simp [show i - 24 < 8 by omega, show 24 + (i - 24) = i by omega]

/-- The bytes of a word built from four bytes. -/
theorem byteOfWord_wordOfBytes (b0 b1 b2 b3 : Byte) {j : Nat} (h : j < 4) :
    byteOfWord (wordOfBytes b0 b1 b2 b3) j =
      if j = 0 then b0 else if j = 1 then b1 else if j = 2 then b2 else b3 := by
  have hj : j = 0 ∨ j = 1 ∨ j = 2 ∨ j = 3 := by omega
  refine BitVec.eq_of_getLsbD_eq fun i hi => ?_
  simp only [byteOfWord, BitVec.getLsbD_extractLsb', getLsbD_wordOfBytes, hi, decide_true,
    Bool.true_and]
  rcases hj with rfl | rfl | rfl | rfl
  · simp [hi]
  · simp [show 8 + i < 16 by omega]
  · simp [show ¬ 16 + i < 8 by omega, show 16 + i < 24 by omega]
  · simp [show ¬ 24 + i < 8 by omega, show ¬ 24 + i < 16 by omega]

/-- A replaced byte is the new one, and the others stay. -/
theorem byteOfWord_set (w : Word) (b : Byte) (i : Nat) {j : Nat} (hj : j < 4) :
    byteOfWord (setByteOfWord w i b) j = if j = i then b else byteOfWord w j := by
  rw [setByteOfWord, byteOfWord_wordOfBytes _ _ _ _ hj]
  have hj' : j = 0 ∨ j = 1 ∨ j = 2 ∨ j = 3 := by omega
  rcases hj' with rfl | rfl | rfl | rfl <;> simp [eq_comm]

/-! ### Words of memory -/

/-- Everything a word write does to host memory. -/
theorem memRead_writeWord (m : List Host.Cell) (k j : Nat) (v : Word) :
    memRead (memWriteWord m k v) j =
      if j / 4 = k then some (byteOfWord v (j % 4)) else memRead m j := by
  simp only [memWriteWord, memRead_write]
  by_cases h : j / 4 = k
  · subst h
    have hj : j % 4 = 0 ∨ j % 4 = 1 ∨ j % 4 = 2 ∨ j % 4 = 3 := by omega
    rcases hj with hj | hj | hj | hj <;> rw [hj] <;>
      repeat' split
    all_goals first | rfl | (exfalso; omega)
  · rw [if_neg h, if_neg (by omega), if_neg (by omega), if_neg (by omega), if_neg (by omega)]

/-- A word read after the write of that word. -/
theorem memReadWord_writeWord (m : List Host.Cell) (k : Nat) (v : Word) :
    memReadWord (memWriteWord m k v) (4 * k) = some v := by
  simp only [memReadWord, memRead_writeWord]
  rw [if_pos (by omega), if_pos (by omega), if_pos (by omega), if_pos (by omega),
    show 4 * k % 4 = 0 by omega, show (4 * k + 1) % 4 = 1 by omega,
    show (4 * k + 2) % 4 = 2 by omega, show (4 * k + 3) % 4 = 3 by omega]
  exact congrArg some (wordOfBytes_bytes v)

theorem memWf_writeWord {c : Config} {m : List Host.Cell} {k : Nat} (v : Word)
    (h : memWf c m = true) (hk : 4 * k + 4 ≤ 2 ^ c.addrBits) :
    memWf c (memWriteWord m k v) = true :=
  memWf_write _ (memWf_write _ (memWf_write _ (memWf_write _ h (by omega)) (by omega)) (by omega))
    (by omega)

/-! ### Copies -/

/-- A changed copy is changed if it is there, and every other copy stays. -/
@[simp] theorem storeGet_changeCopy (k j : Nat) (f : Word → Word) (cache : List (Nat × Word)) :
    storeGet j (changeCopy k f cache) =
      if k = j then (storeGet j cache).map f else storeGet j cache := by
  unfold changeCopy
  cases h : storeGet k cache with
  | some w =>
    simp only [storeGet_put]
    by_cases hj : k = j
    · subst hj
      simp [h]
    · simp [hj]
  | none =>
    by_cases hj : k = j
    · subst hj
      simp [h]
    · simp [hj]

theorem cacheWf_iff (c : Config) (cache : List (Nat × Word)) :
    cacheWf c cache = true ↔
      storeSorted cache = true ∧ ∀ e ∈ cache, 4 * e.1 + 4 ≤ 2 ^ c.addrBits := by
  simp [cacheWf]

theorem cacheWf_put {c : Config} {cache : List (Nat × Word)} {k : Nat} (w : Word)
    (h : cacheWf c cache = true) (hk : 4 * k + 4 ≤ 2 ^ c.addrBits) :
    cacheWf c (storePut k w cache) = true := by
  rw [cacheWf_iff] at h ⊢
  refine ⟨storeSorted_put k w h.1, fun e he => ?_⟩
  rcases mem_storePut he with rfl | he
  · exact hk
  · exact h.2 e he

theorem cacheWf_changeCopy {c : Config} {cache : List (Nat × Word)} (k : Nat) (f : Word → Word)
    (h : cacheWf c cache = true) : cacheWf c (changeCopy k f cache) = true := by
  unfold changeCopy
  split
  · rename_i w hw
    exact cacheWf_put _ h (((cacheWf_iff c cache).mp h).2 _ (mem_of_storeGet hw))
  · exact h

theorem cacheWf_filter {c : Config} {cache : List (Nat × Word)} (p : Nat × Word → Bool)
    (h : cacheWf c cache = true) : cacheWf c (cache.filter p) = true := by
  rw [cacheWf_iff] at h ⊢
  exact ⟨storeSorted_filter p h.1, fun e he => h.2 e (List.mem_of_mem_filter he)⟩

end Sys2Proof.Machine
end

