-- ==== Sys2Proof/Laws/Render.lean ====
section
/-! SUPPORT. What the pieces of a RENDER do: a pixel write changes host memory, the bus's answers
and the write history alone (42_render.md R195), and a guard passes only a legal RENDER (R192). -/

namespace Sys2Proof.Machine

/-- Everything a pixel write does. -/
theorem busWritePixel_state (a : Nat) (p : Pixel) (s : State) :
    (busWritePixel a p s).1 =
      { s with
        mem := memWritePixel s.mem a (landedPixel p (nextAnswer s))
        busAnswers := s.busAnswers.tail
        busLog := s.busLog ++ [⟨a, p, answeredOk (nextAnswer s)⟩] } := rfl

/-- Everything a pixel of a RENDER can do: halt on a level above 36, write the pixel, or write it
and end with BUS. -/
theorem renderPixel_cases (c : Config) (i : Nat) (s : State) :
    (colorOf c (gridRead s.grid i) = none ∧ renderPixel c i s = .ended (raiseFatal s)) ∨
    (∃ p, colorOf c (gridRead s.grid i) = some p ∧
      ((answeredOk (nextAnswer s) = true ∧
        renderPixel c i s = .goOn (busWritePixel (renderBase s + 4 * i) p s).1) ∨
       (answeredOk (nextAnswer s) = false ∧
        renderPixel c i s =
          .ended (raiseError .bus (busWritePixel (renderBase s + 4 * i) p s).1)))) := by
  unfold renderPixel
  split
  · rename_i h
    exact .inl ⟨h, rfl⟩
  · rename_i p h
    refine .inr ⟨p, h, ?_⟩
    cases ha : answeredOk (nextAnswer s)
    · exact .inr ⟨rfl, by simp [busWritePixel, ha]⟩
    · exact .inl ⟨rfl, by simp [busWritePixel, ha]⟩

/-- A pixel changes host memory, the bus's answers and the write history alone. -/
theorem renderPixel_frame {c : Config} {i : Nat} {s t : State}
    (h : renderPixel c i s = .goOn t) :
    t = { s with mem := t.mem, busAnswers := t.busAnswers, busLog := t.busLog } := by
  rcases renderPixel_cases c i s with ⟨_, e⟩ | ⟨p, _, ⟨_, e⟩ | ⟨_, e⟩⟩ <;> rw [e] at h <;> cases h
  rfl

/-- The pixels of a RENDER change host memory, the bus's answers and the write history alone. -/
theorem renderPixels_frame {c : Config} {n i : Nat} {s t : State}
    (h : renderPixels c n i s = .goOn t) :
    t = { s with mem := t.mem, busAnswers := t.busAnswers, busLog := t.busLog } := by
  induction n generalizing i s with
  | zero => cases h; rfl
  | succ n ih =>
    simp only [renderPixels] at h
    split at h
    · rename_i s' hs'
      have h₁ := renderPixel_frame hs'
      have h₂ := ih h
      rw [h₁] at h₂
      exact h₂
    · cases h

/-- What the checks of a RENDER say when they all pass (42_render.md R192). -/
theorem renderCheck_none {c : Config} {s : State} (h : renderCheck c s = none) :
    renderLen s = fieldCells s * 4 ∧ renderBase s % 4 = 0 ∧
      renderBase s + renderLen s ≤ 2 ^ c.addrBits := by
  unfold renderCheck at h
  split at h
  · cases h
  · split at h
    · cases h
    · split at h
      · cases h
      · omega

/-- Everything the guard of a RENDER can answer. -/
theorem renderGuard_cases (c : Config) (s : State) (body : Result) :
    (s.cfg = false ∧ renderGuard c s body = raiseError .nocfg s) ∨
    (s.cfg = true ∧ ∃ code, renderCheck c s = some code ∧
      renderGuard c s body = raiseError code s) ∨
    (s.cfg = true ∧ renderCheck c s = none ∧
      outsidePlainMemory c (renderBase s) (renderLen s) = true ∧
      renderGuard c s body = .refused .renderOutsideSpec) ∨
    (s.cfg = true ∧ RenderLegal c s ∧ renderGuard c s body = body) := by
  cases hc : s.cfg
  · exact .inl ⟨rfl, by simp [renderGuard, needsField, hc]⟩
  · cases hk : renderCheck c s with
    | some code => exact .inr (.inl ⟨rfl, code, rfl, by simp [renderGuard, needsField, hc, hk]⟩)
    | none =>
      cases ho : outsidePlainMemory c (renderBase s) (renderLen s)
      · exact .inr (.inr (.inr ⟨rfl, ⟨hk, ho⟩, by simp [renderGuard, needsField, hc, hk, ho]⟩))
      · exact .inr (.inr (.inl ⟨rfl, rfl, rfl, by simp [renderGuard, needsField, hc, hk, ho]⟩))

/-- Every level of a sound grid has a colour (42_render.md R196). -/
theorem colorOf_isSome (c : Config) {l : Nat} (h : l ≤ maxLevel) : (colorOf c l).isSome = true := by
  unfold colorOf
  split
  · rfl
  · split
    · rfl
    · rw [if_pos (by omega)]
      rfl

end Sys2Proof.Machine
end

