-- ==== Sys2Proof/Laws/State.lean ====
section
/-! SUPPORT. The fields of the state after each named update: one lemma per field per update, true
by unfolding, so that no proof unfolds a record update. -/

namespace Sys2Proof.Machine

variable (s : State)


/-! ### After the end of a command -/

@[simp] theorem finish_arg0 (code : Completion) : (finish code s).arg0 = s.arg0 := rfl
@[simp] theorem finish_arg1 (code : Completion) : (finish code s).arg1 = s.arg1 := rfl
@[simp] theorem finish_arg2 (code : Completion) : (finish code s).arg2 = s.arg2 := rfl
@[simp] theorem finish_result (code : Completion) : (finish code s).result = s.result := rfl
@[simp] theorem finish_width (code : Completion) : (finish code s).width = s.width := rfl
@[simp] theorem finish_height (code : Completion) : (finish code s).height = s.height := rfl
@[simp] theorem finish_busy (code : Completion) : (finish code s).busy = false := rfl
@[simp] theorem finish_cfg (code : Completion) : (finish code s).cfg = s.cfg := rfl
@[simp] theorem finish_lit (code : Completion) : (finish code s).lit = s.lit := rfl
@[simp] theorem finish_fatal (code : Completion) : (finish code s).fatal = s.fatal := rfl
@[simp] theorem finish_ovr (code : Completion) : (finish code s).ovr = s.ovr := rfl
@[simp] theorem finish_err (code : Completion) : (finish code s).err = code := rfl
@[simp] theorem finish_grid (code : Completion) : (finish code s).grid = s.grid := rfl
@[simp] theorem finish_rng (code : Completion) : (finish code s).rng = s.rng := rfl
@[simp] theorem finish_cmdl (code : Completion) : (finish code s).cmdl = s.cmdl := rfl
@[simp] theorem finish_argl0 (code : Completion) : (finish code s).argl0 = s.argl0 := rfl
@[simp] theorem finish_argl1 (code : Completion) : (finish code s).argl1 = s.argl1 := rfl
@[simp] theorem finish_argl2 (code : Completion) : (finish code s).argl2 = s.argl2 := rfl
@[simp] theorem finish_cursor (code : Completion) : (finish code s).cursor = .idle := rfl
@[simp] theorem finish_mem (code : Completion) : (finish code s).mem = s.mem := rfl
@[simp] theorem finish_hostCache (code : Completion) :
    (finish code s).hostCache = s.hostCache := rfl
@[simp] theorem finish_busAnswers (code : Completion) :
    (finish code s).busAnswers = s.busAnswers := rfl
@[simp] theorem finish_busLog (code : Completion) : (finish code s).busLog = s.busLog := rfl
@[simp] theorem finish_reply (code : Completion) : (finish code s).reply = s.reply := rfl
@[simp] theorem finish_events (code : Completion) : (finish code s).events = s.events := rfl
@[simp] theorem finish_host (code : Completion) : (finish code s).host = s.host := rfl

/-! ### After `fatal()` -/

@[simp] theorem haltFatal_arg0 : (haltFatal s).arg0 = s.arg0 := rfl
@[simp] theorem haltFatal_arg1 : (haltFatal s).arg1 = s.arg1 := rfl
@[simp] theorem haltFatal_arg2 : (haltFatal s).arg2 = s.arg2 := rfl
@[simp] theorem haltFatal_result : (haltFatal s).result = s.result := rfl
@[simp] theorem haltFatal_width : (haltFatal s).width = s.width := rfl
@[simp] theorem haltFatal_height : (haltFatal s).height = s.height := rfl
@[simp] theorem haltFatal_busy : (haltFatal s).busy = false := rfl
@[simp] theorem haltFatal_cfg : (haltFatal s).cfg = s.cfg := rfl
@[simp] theorem haltFatal_lit : (haltFatal s).lit = s.lit := rfl
@[simp] theorem haltFatal_fatal : (haltFatal s).fatal = true := rfl
@[simp] theorem haltFatal_ovr : (haltFatal s).ovr = s.ovr := rfl
@[simp] theorem haltFatal_err : (haltFatal s).err = .fatal := rfl
@[simp] theorem haltFatal_grid : (haltFatal s).grid = s.grid := rfl
@[simp] theorem haltFatal_rng : (haltFatal s).rng = s.rng := rfl
@[simp] theorem haltFatal_cmdl : (haltFatal s).cmdl = s.cmdl := rfl
@[simp] theorem haltFatal_argl0 : (haltFatal s).argl0 = s.argl0 := rfl
@[simp] theorem haltFatal_argl1 : (haltFatal s).argl1 = s.argl1 := rfl
@[simp] theorem haltFatal_argl2 : (haltFatal s).argl2 = s.argl2 := rfl
@[simp] theorem haltFatal_cursor : (haltFatal s).cursor = .idle := rfl
@[simp] theorem haltFatal_mem : (haltFatal s).mem = s.mem := rfl
@[simp] theorem haltFatal_hostCache : (haltFatal s).hostCache = s.hostCache := rfl
@[simp] theorem haltFatal_busAnswers : (haltFatal s).busAnswers = s.busAnswers := rfl
@[simp] theorem haltFatal_busLog : (haltFatal s).busLog = s.busLog := rfl
@[simp] theorem haltFatal_reply : (haltFatal s).reply = s.reply := rfl
@[simp] theorem haltFatal_events : (haltFatal s).events = s.events := rfl
@[simp] theorem haltFatal_host : (haltFatal s).host = s.host := rfl

/-! ### After an accepted issue -/

@[simp] theorem acceptIssue_arg0 (w : Word) : (acceptIssue w s).arg0 = s.arg0 := rfl
@[simp] theorem acceptIssue_arg1 (w : Word) : (acceptIssue w s).arg1 = s.arg1 := rfl
@[simp] theorem acceptIssue_arg2 (w : Word) : (acceptIssue w s).arg2 = s.arg2 := rfl
@[simp] theorem acceptIssue_result (w : Word) : (acceptIssue w s).result = s.result := rfl
@[simp] theorem acceptIssue_width (w : Word) : (acceptIssue w s).width = s.width := rfl
@[simp] theorem acceptIssue_height (w : Word) : (acceptIssue w s).height = s.height := rfl
@[simp] theorem acceptIssue_busy (w : Word) : (acceptIssue w s).busy = true := rfl
@[simp] theorem acceptIssue_cfg (w : Word) : (acceptIssue w s).cfg = s.cfg := rfl
@[simp] theorem acceptIssue_lit (w : Word) : (acceptIssue w s).lit = s.lit := rfl
@[simp] theorem acceptIssue_fatal (w : Word) : (acceptIssue w s).fatal = s.fatal := rfl
@[simp] theorem acceptIssue_ovr (w : Word) : (acceptIssue w s).ovr = s.ovr := rfl
@[simp] theorem acceptIssue_err (w : Word) : (acceptIssue w s).err = s.err := rfl
@[simp] theorem acceptIssue_grid (w : Word) : (acceptIssue w s).grid = s.grid := rfl
@[simp] theorem acceptIssue_rng (w : Word) : (acceptIssue w s).rng = s.rng := rfl
@[simp] theorem acceptIssue_cmdl (w : Word) : (acceptIssue w s).cmdl = w := rfl
@[simp] theorem acceptIssue_argl0 (w : Word) : (acceptIssue w s).argl0 = s.arg0 := rfl
@[simp] theorem acceptIssue_argl1 (w : Word) : (acceptIssue w s).argl1 = s.arg1 := rfl
@[simp] theorem acceptIssue_argl2 (w : Word) : (acceptIssue w s).argl2 = s.arg2 := rfl
@[simp] theorem acceptIssue_cursor (w : Word) : (acceptIssue w s).cursor = .idle := rfl
@[simp] theorem acceptIssue_mem (w : Word) : (acceptIssue w s).mem = s.mem := rfl
@[simp] theorem acceptIssue_hostCache (w : Word) : (acceptIssue w s).hostCache = s.hostCache := rfl
@[simp] theorem acceptIssue_busAnswers (w : Word) :
    (acceptIssue w s).busAnswers = s.busAnswers := rfl
@[simp] theorem acceptIssue_busLog (w : Word) : (acceptIssue w s).busLog = s.busLog := rfl
@[simp] theorem acceptIssue_reply (w : Word) : (acceptIssue w s).reply = s.reply := rfl
@[simp] theorem acceptIssue_events (w : Word) : (acceptIssue w s).events = s.events := rfl
@[simp] theorem acceptIssue_host (w : Word) : (acceptIssue w s).host = s.host := rfl

/-! ### After a STATUS write -/

@[simp] theorem writeStatus_arg0 (v : Word) : (writeStatus v s).arg0 = s.arg0 := rfl
@[simp] theorem writeStatus_arg1 (v : Word) : (writeStatus v s).arg1 = s.arg1 := rfl
@[simp] theorem writeStatus_arg2 (v : Word) : (writeStatus v s).arg2 = s.arg2 := rfl
@[simp] theorem writeStatus_result (v : Word) : (writeStatus v s).result = s.result := rfl
@[simp] theorem writeStatus_width (v : Word) : (writeStatus v s).width = s.width := rfl
@[simp] theorem writeStatus_height (v : Word) : (writeStatus v s).height = s.height := rfl
@[simp] theorem writeStatus_busy (v : Word) : (writeStatus v s).busy = s.busy := rfl
@[simp] theorem writeStatus_cfg (v : Word) : (writeStatus v s).cfg = s.cfg := rfl
@[simp] theorem writeStatus_lit (v : Word) : (writeStatus v s).lit = s.lit := rfl
@[simp] theorem writeStatus_fatal (v : Word) : (writeStatus v s).fatal = s.fatal := rfl
@[simp] theorem writeStatus_ovr (v : Word) : (writeStatus v s).ovr = (s.ovr && !v.getLsbD 4) := rfl
@[simp] theorem writeStatus_err (v : Word) : (writeStatus v s).err = s.err := rfl
@[simp] theorem writeStatus_grid (v : Word) : (writeStatus v s).grid = s.grid := rfl
@[simp] theorem writeStatus_rng (v : Word) : (writeStatus v s).rng = s.rng := rfl
@[simp] theorem writeStatus_cmdl (v : Word) : (writeStatus v s).cmdl = s.cmdl := rfl
@[simp] theorem writeStatus_argl0 (v : Word) : (writeStatus v s).argl0 = s.argl0 := rfl
@[simp] theorem writeStatus_argl1 (v : Word) : (writeStatus v s).argl1 = s.argl1 := rfl
@[simp] theorem writeStatus_argl2 (v : Word) : (writeStatus v s).argl2 = s.argl2 := rfl
@[simp] theorem writeStatus_cursor (v : Word) : (writeStatus v s).cursor = s.cursor := rfl
@[simp] theorem writeStatus_mem (v : Word) : (writeStatus v s).mem = s.mem := rfl
@[simp] theorem writeStatus_hostCache (v : Word) : (writeStatus v s).hostCache = s.hostCache := rfl
@[simp] theorem writeStatus_busAnswers (v : Word) :
    (writeStatus v s).busAnswers = s.busAnswers := rfl
@[simp] theorem writeStatus_busLog (v : Word) : (writeStatus v s).busLog = s.busLog := rfl
@[simp] theorem writeStatus_reply (v : Word) : (writeStatus v s).reply = s.reply := rfl
@[simp] theorem writeStatus_events (v : Word) : (writeStatus v s).events = s.events := rfl
@[simp] theorem writeStatus_host (v : Word) : (writeStatus v s).host = s.host := rfl

/-! ### After hardware reset -/

@[simp] theorem hardwareReset_arg0 (landed : Option Pixel) :
    (hardwareReset landed s).arg0 = State.reset.arg0 := rfl
@[simp] theorem hardwareReset_arg1 (landed : Option Pixel) :
    (hardwareReset landed s).arg1 = State.reset.arg1 := rfl
@[simp] theorem hardwareReset_arg2 (landed : Option Pixel) :
    (hardwareReset landed s).arg2 = State.reset.arg2 := rfl
@[simp] theorem hardwareReset_result (landed : Option Pixel) :
    (hardwareReset landed s).result = State.reset.result := rfl
@[simp] theorem hardwareReset_width (landed : Option Pixel) :
    (hardwareReset landed s).width = State.reset.width := rfl
@[simp] theorem hardwareReset_height (landed : Option Pixel) :
    (hardwareReset landed s).height = State.reset.height := rfl
@[simp] theorem hardwareReset_busy (landed : Option Pixel) :
    (hardwareReset landed s).busy = State.reset.busy := rfl
@[simp] theorem hardwareReset_cfg (landed : Option Pixel) :
    (hardwareReset landed s).cfg = State.reset.cfg := rfl
@[simp] theorem hardwareReset_lit (landed : Option Pixel) :
    (hardwareReset landed s).lit = State.reset.lit := rfl
@[simp] theorem hardwareReset_fatal (landed : Option Pixel) :
    (hardwareReset landed s).fatal = State.reset.fatal := rfl
@[simp] theorem hardwareReset_ovr (landed : Option Pixel) :
    (hardwareReset landed s).ovr = State.reset.ovr := rfl
@[simp] theorem hardwareReset_err (landed : Option Pixel) :
    (hardwareReset landed s).err = State.reset.err := rfl
@[simp] theorem hardwareReset_grid (landed : Option Pixel) :
    (hardwareReset landed s).grid = State.reset.grid := rfl
@[simp] theorem hardwareReset_rng (landed : Option Pixel) :
    (hardwareReset landed s).rng = State.reset.rng := rfl
@[simp] theorem hardwareReset_cmdl (landed : Option Pixel) :
    (hardwareReset landed s).cmdl = State.reset.cmdl := rfl
@[simp] theorem hardwareReset_argl0 (landed : Option Pixel) :
    (hardwareReset landed s).argl0 = State.reset.argl0 := rfl
@[simp] theorem hardwareReset_argl1 (landed : Option Pixel) :
    (hardwareReset landed s).argl1 = State.reset.argl1 := rfl
@[simp] theorem hardwareReset_argl2 (landed : Option Pixel) :
    (hardwareReset landed s).argl2 = State.reset.argl2 := rfl
@[simp] theorem hardwareReset_cursor (landed : Option Pixel) :
    (hardwareReset landed s).cursor = State.reset.cursor := rfl
@[simp] theorem hardwareReset_mem (landed : Option Pixel) :
    (hardwareReset landed s).mem = memAtReset landed s := rfl
@[simp] theorem hardwareReset_hostCache (landed : Option Pixel) :
    (hardwareReset landed s).hostCache = s.hostCache := rfl
@[simp] theorem hardwareReset_busAnswers (landed : Option Pixel) :
    (hardwareReset landed s).busAnswers = s.busAnswers := rfl
@[simp] theorem hardwareReset_busLog (landed : Option Pixel) :
    (hardwareReset landed s).busLog = s.busLog := rfl
@[simp] theorem hardwareReset_reply (landed : Option Pixel) :
    (hardwareReset landed s).reply = s.reply := rfl
@[simp] theorem hardwareReset_events (landed : Option Pixel) :
    (hardwareReset landed s).events = s.events := rfl
@[simp] theorem hardwareReset_host (landed : Option Pixel) :
    (hardwareReset landed s).host = s.host := rfl

/-! ### After the host's next position -/

@[simp] theorem hostGoto_arg0 (pc : Nat) : (hostGoto pc s).arg0 = s.arg0 := rfl
@[simp] theorem hostGoto_arg1 (pc : Nat) : (hostGoto pc s).arg1 = s.arg1 := rfl
@[simp] theorem hostGoto_arg2 (pc : Nat) : (hostGoto pc s).arg2 = s.arg2 := rfl
@[simp] theorem hostGoto_result (pc : Nat) : (hostGoto pc s).result = s.result := rfl
@[simp] theorem hostGoto_width (pc : Nat) : (hostGoto pc s).width = s.width := rfl
@[simp] theorem hostGoto_height (pc : Nat) : (hostGoto pc s).height = s.height := rfl
@[simp] theorem hostGoto_busy (pc : Nat) : (hostGoto pc s).busy = s.busy := rfl
@[simp] theorem hostGoto_cfg (pc : Nat) : (hostGoto pc s).cfg = s.cfg := rfl
@[simp] theorem hostGoto_lit (pc : Nat) : (hostGoto pc s).lit = s.lit := rfl
@[simp] theorem hostGoto_fatal (pc : Nat) : (hostGoto pc s).fatal = s.fatal := rfl
@[simp] theorem hostGoto_ovr (pc : Nat) : (hostGoto pc s).ovr = s.ovr := rfl
@[simp] theorem hostGoto_err (pc : Nat) : (hostGoto pc s).err = s.err := rfl
@[simp] theorem hostGoto_grid (pc : Nat) : (hostGoto pc s).grid = s.grid := rfl
@[simp] theorem hostGoto_rng (pc : Nat) : (hostGoto pc s).rng = s.rng := rfl
@[simp] theorem hostGoto_cmdl (pc : Nat) : (hostGoto pc s).cmdl = s.cmdl := rfl
@[simp] theorem hostGoto_argl0 (pc : Nat) : (hostGoto pc s).argl0 = s.argl0 := rfl
@[simp] theorem hostGoto_argl1 (pc : Nat) : (hostGoto pc s).argl1 = s.argl1 := rfl
@[simp] theorem hostGoto_argl2 (pc : Nat) : (hostGoto pc s).argl2 = s.argl2 := rfl
@[simp] theorem hostGoto_cursor (pc : Nat) : (hostGoto pc s).cursor = s.cursor := rfl
@[simp] theorem hostGoto_mem (pc : Nat) : (hostGoto pc s).mem = s.mem := rfl
@[simp] theorem hostGoto_hostCache (pc : Nat) : (hostGoto pc s).hostCache = s.hostCache := rfl
@[simp] theorem hostGoto_busAnswers (pc : Nat) : (hostGoto pc s).busAnswers = s.busAnswers := rfl
@[simp] theorem hostGoto_busLog (pc : Nat) : (hostGoto pc s).busLog = s.busLog := rfl
@[simp] theorem hostGoto_reply (pc : Nat) : (hostGoto pc s).reply = s.reply := rfl
@[simp] theorem hostGoto_events (pc : Nat) : (hostGoto pc s).events = s.events := rfl
@[simp] theorem hostGoto_host (pc : Nat) : (hostGoto pc s).host = { s.host with pc := pc } := rfl

/-! ### After the host's binding of a name -/

@[simp] theorem hostBind_arg0 (k : Nat) (v : Int) : (hostBind k v s).arg0 = s.arg0 := rfl
@[simp] theorem hostBind_arg1 (k : Nat) (v : Int) : (hostBind k v s).arg1 = s.arg1 := rfl
@[simp] theorem hostBind_arg2 (k : Nat) (v : Int) : (hostBind k v s).arg2 = s.arg2 := rfl
@[simp] theorem hostBind_result (k : Nat) (v : Int) : (hostBind k v s).result = s.result := rfl
@[simp] theorem hostBind_width (k : Nat) (v : Int) : (hostBind k v s).width = s.width := rfl
@[simp] theorem hostBind_height (k : Nat) (v : Int) : (hostBind k v s).height = s.height := rfl
@[simp] theorem hostBind_busy (k : Nat) (v : Int) : (hostBind k v s).busy = s.busy := rfl
@[simp] theorem hostBind_cfg (k : Nat) (v : Int) : (hostBind k v s).cfg = s.cfg := rfl
@[simp] theorem hostBind_lit (k : Nat) (v : Int) : (hostBind k v s).lit = s.lit := rfl
@[simp] theorem hostBind_fatal (k : Nat) (v : Int) : (hostBind k v s).fatal = s.fatal := rfl
@[simp] theorem hostBind_ovr (k : Nat) (v : Int) : (hostBind k v s).ovr = s.ovr := rfl
@[simp] theorem hostBind_err (k : Nat) (v : Int) : (hostBind k v s).err = s.err := rfl
@[simp] theorem hostBind_grid (k : Nat) (v : Int) : (hostBind k v s).grid = s.grid := rfl
@[simp] theorem hostBind_rng (k : Nat) (v : Int) : (hostBind k v s).rng = s.rng := rfl
@[simp] theorem hostBind_cmdl (k : Nat) (v : Int) : (hostBind k v s).cmdl = s.cmdl := rfl
@[simp] theorem hostBind_argl0 (k : Nat) (v : Int) : (hostBind k v s).argl0 = s.argl0 := rfl
@[simp] theorem hostBind_argl1 (k : Nat) (v : Int) : (hostBind k v s).argl1 = s.argl1 := rfl
@[simp] theorem hostBind_argl2 (k : Nat) (v : Int) : (hostBind k v s).argl2 = s.argl2 := rfl
@[simp] theorem hostBind_cursor (k : Nat) (v : Int) : (hostBind k v s).cursor = s.cursor := rfl
@[simp] theorem hostBind_mem (k : Nat) (v : Int) : (hostBind k v s).mem = s.mem := rfl
@[simp] theorem hostBind_hostCache (k : Nat) (v : Int) :
    (hostBind k v s).hostCache = s.hostCache := rfl
@[simp] theorem hostBind_busAnswers (k : Nat) (v : Int) :
    (hostBind k v s).busAnswers = s.busAnswers := rfl
@[simp] theorem hostBind_busLog (k : Nat) (v : Int) : (hostBind k v s).busLog = s.busLog := rfl
@[simp] theorem hostBind_reply (k : Nat) (v : Int) : (hostBind k v s).reply = s.reply := rfl
@[simp] theorem hostBind_events (k : Nat) (v : Int) : (hostBind k v s).events = s.events := rfl
@[simp] theorem hostBind_host (k : Nat) (v : Int) :
    (hostBind k v s).host = { s.host with names := storePut k v s.host.names } := rfl

/-! ### After a new field -/

@[simp] theorem buildField_arg0 (c : Config) : (buildField c s).arg0 = s.arg0 := rfl
@[simp] theorem buildField_arg1 (c : Config) : (buildField c s).arg1 = s.arg1 := rfl
@[simp] theorem buildField_arg2 (c : Config) : (buildField c s).arg2 = s.arg2 := rfl
@[simp] theorem buildField_result (c : Config) : (buildField c s).result = s.result := rfl
@[simp] theorem buildField_width (c : Config) : (buildField c s).width = s.argl0 := rfl
@[simp] theorem buildField_height (c : Config) : (buildField c s).height = s.argl1 := rfl
@[simp] theorem buildField_busy (c : Config) : (buildField c s).busy = s.busy := rfl
@[simp] theorem buildField_cfg (c : Config) : (buildField c s).cfg = true := rfl
@[simp] theorem buildField_lit (c : Config) : (buildField c s).lit = false := rfl
@[simp] theorem buildField_fatal (c : Config) : (buildField c s).fatal = s.fatal := rfl
@[simp] theorem buildField_ovr (c : Config) : (buildField c s).ovr = s.ovr := rfl
@[simp] theorem buildField_err (c : Config) : (buildField c s).err = s.err := rfl
@[simp] theorem buildField_grid (c : Config) :
    (buildField c s).grid = gridClear s.grid (newWidth s * newHeight s) := rfl
@[simp] theorem buildField_rng (c : Config) : (buildField c s).rng = c.rngSeed (newSeed s) := rfl
@[simp] theorem buildField_cmdl (c : Config) : (buildField c s).cmdl = s.cmdl := rfl
@[simp] theorem buildField_argl0 (c : Config) : (buildField c s).argl0 = s.argl0 := rfl
@[simp] theorem buildField_argl1 (c : Config) : (buildField c s).argl1 = s.argl1 := rfl
@[simp] theorem buildField_argl2 (c : Config) : (buildField c s).argl2 = s.argl2 := rfl
@[simp] theorem buildField_cursor (c : Config) : (buildField c s).cursor = s.cursor := rfl
@[simp] theorem buildField_mem (c : Config) : (buildField c s).mem = s.mem := rfl
@[simp] theorem buildField_hostCache (c : Config) : (buildField c s).hostCache = s.hostCache := rfl
@[simp] theorem buildField_busAnswers (c : Config) :
    (buildField c s).busAnswers = s.busAnswers := rfl
@[simp] theorem buildField_busLog (c : Config) : (buildField c s).busLog = s.busLog := rfl
@[simp] theorem buildField_reply (c : Config) : (buildField c s).reply = s.reply := rfl
@[simp] theorem buildField_events (c : Config) : (buildField c s).events = s.events := rfl
@[simp] theorem buildField_host (c : Config) : (buildField c s).host = s.host := rfl

/-! ### After the lit bottom row -/

@[simp] theorem lightBottomRow_arg0 : (lightBottomRow s).arg0 = s.arg0 := rfl
@[simp] theorem lightBottomRow_arg1 : (lightBottomRow s).arg1 = s.arg1 := rfl
@[simp] theorem lightBottomRow_arg2 : (lightBottomRow s).arg2 = s.arg2 := rfl
@[simp] theorem lightBottomRow_result : (lightBottomRow s).result = s.result := rfl
@[simp] theorem lightBottomRow_width : (lightBottomRow s).width = s.width := rfl
@[simp] theorem lightBottomRow_height : (lightBottomRow s).height = s.height := rfl
@[simp] theorem lightBottomRow_busy : (lightBottomRow s).busy = s.busy := rfl
@[simp] theorem lightBottomRow_cfg : (lightBottomRow s).cfg = s.cfg := rfl
@[simp] theorem lightBottomRow_lit : (lightBottomRow s).lit = true := rfl
@[simp] theorem lightBottomRow_fatal : (lightBottomRow s).fatal = s.fatal := rfl
@[simp] theorem lightBottomRow_ovr : (lightBottomRow s).ovr = s.ovr := rfl
@[simp] theorem lightBottomRow_err : (lightBottomRow s).err = s.err := rfl
@[simp] theorem lightBottomRow_grid :
    (lightBottomRow s).grid = gridFill s.grid maxLevel (cellAt s 0 (fieldH s - 1)) (fieldW s) := rfl
@[simp] theorem lightBottomRow_rng : (lightBottomRow s).rng = s.rng := rfl
@[simp] theorem lightBottomRow_cmdl : (lightBottomRow s).cmdl = s.cmdl := rfl
@[simp] theorem lightBottomRow_argl0 : (lightBottomRow s).argl0 = s.argl0 := rfl
@[simp] theorem lightBottomRow_argl1 : (lightBottomRow s).argl1 = s.argl1 := rfl
@[simp] theorem lightBottomRow_argl2 : (lightBottomRow s).argl2 = s.argl2 := rfl
@[simp] theorem lightBottomRow_cursor : (lightBottomRow s).cursor = s.cursor := rfl
@[simp] theorem lightBottomRow_mem : (lightBottomRow s).mem = s.mem := rfl
@[simp] theorem lightBottomRow_hostCache : (lightBottomRow s).hostCache = s.hostCache := rfl
@[simp] theorem lightBottomRow_busAnswers : (lightBottomRow s).busAnswers = s.busAnswers := rfl
@[simp] theorem lightBottomRow_busLog : (lightBottomRow s).busLog = s.busLog := rfl
@[simp] theorem lightBottomRow_reply : (lightBottomRow s).reply = s.reply := rfl
@[simp] theorem lightBottomRow_events : (lightBottomRow s).events = s.events := rfl
@[simp] theorem lightBottomRow_host : (lightBottomRow s).host = s.host := rfl

/-! ### After a byte stored by a host agent -/

@[simp] theorem hostStore_arg0 (a : Nat) (b : Byte) : (hostStore a b s).arg0 = s.arg0 := rfl
@[simp] theorem hostStore_arg1 (a : Nat) (b : Byte) : (hostStore a b s).arg1 = s.arg1 := rfl
@[simp] theorem hostStore_arg2 (a : Nat) (b : Byte) : (hostStore a b s).arg2 = s.arg2 := rfl
@[simp] theorem hostStore_result (a : Nat) (b : Byte) : (hostStore a b s).result = s.result := rfl
@[simp] theorem hostStore_width (a : Nat) (b : Byte) : (hostStore a b s).width = s.width := rfl
@[simp] theorem hostStore_height (a : Nat) (b : Byte) : (hostStore a b s).height = s.height := rfl
@[simp] theorem hostStore_busy (a : Nat) (b : Byte) : (hostStore a b s).busy = s.busy := rfl
@[simp] theorem hostStore_cfg (a : Nat) (b : Byte) : (hostStore a b s).cfg = s.cfg := rfl
@[simp] theorem hostStore_lit (a : Nat) (b : Byte) : (hostStore a b s).lit = s.lit := rfl
@[simp] theorem hostStore_fatal (a : Nat) (b : Byte) : (hostStore a b s).fatal = s.fatal := rfl
@[simp] theorem hostStore_ovr (a : Nat) (b : Byte) : (hostStore a b s).ovr = s.ovr := rfl
@[simp] theorem hostStore_err (a : Nat) (b : Byte) : (hostStore a b s).err = s.err := rfl
@[simp] theorem hostStore_grid (a : Nat) (b : Byte) : (hostStore a b s).grid = s.grid := rfl
@[simp] theorem hostStore_rng (a : Nat) (b : Byte) : (hostStore a b s).rng = s.rng := rfl
@[simp] theorem hostStore_cmdl (a : Nat) (b : Byte) : (hostStore a b s).cmdl = s.cmdl := rfl
@[simp] theorem hostStore_argl0 (a : Nat) (b : Byte) : (hostStore a b s).argl0 = s.argl0 := rfl
@[simp] theorem hostStore_argl1 (a : Nat) (b : Byte) : (hostStore a b s).argl1 = s.argl1 := rfl
@[simp] theorem hostStore_argl2 (a : Nat) (b : Byte) : (hostStore a b s).argl2 = s.argl2 := rfl
@[simp] theorem hostStore_cursor (a : Nat) (b : Byte) : (hostStore a b s).cursor = s.cursor := rfl
@[simp] theorem hostStore_mem (a : Nat) (b : Byte) :
    (hostStore a b s).mem = memWrite s.mem a b := rfl
@[simp] theorem hostStore_hostCache (a : Nat) (b : Byte) :
    (hostStore a b s).hostCache =
      changeCopy (a / 4) (fun w => setByteOfWord w (a % 4) b) s.hostCache := rfl
@[simp] theorem hostStore_busAnswers (a : Nat) (b : Byte) :
    (hostStore a b s).busAnswers = s.busAnswers := rfl
@[simp] theorem hostStore_busLog (a : Nat) (b : Byte) : (hostStore a b s).busLog = s.busLog := rfl
@[simp] theorem hostStore_reply (a : Nat) (b : Byte) : (hostStore a b s).reply = s.reply := rfl
@[simp] theorem hostStore_events (a : Nat) (b : Byte) : (hostStore a b s).events = s.events := rfl
@[simp] theorem hostStore_host (a : Nat) (b : Byte) : (hostStore a b s).host = s.host := rfl

/-! ### After a word stored by a host agent -/

@[simp] theorem hostStoreWord_arg0 (k : Nat) (v : Word) :
    (hostStoreWord k v s).arg0 = s.arg0 := rfl
@[simp] theorem hostStoreWord_arg1 (k : Nat) (v : Word) :
    (hostStoreWord k v s).arg1 = s.arg1 := rfl
@[simp] theorem hostStoreWord_arg2 (k : Nat) (v : Word) :
    (hostStoreWord k v s).arg2 = s.arg2 := rfl
@[simp] theorem hostStoreWord_result (k : Nat) (v : Word) :
    (hostStoreWord k v s).result = s.result := rfl
@[simp] theorem hostStoreWord_width (k : Nat) (v : Word) :
    (hostStoreWord k v s).width = s.width := rfl
@[simp] theorem hostStoreWord_height (k : Nat) (v : Word) :
    (hostStoreWord k v s).height = s.height := rfl
@[simp] theorem hostStoreWord_busy (k : Nat) (v : Word) :
    (hostStoreWord k v s).busy = s.busy := rfl
@[simp] theorem hostStoreWord_cfg (k : Nat) (v : Word) : (hostStoreWord k v s).cfg = s.cfg := rfl
@[simp] theorem hostStoreWord_lit (k : Nat) (v : Word) : (hostStoreWord k v s).lit = s.lit := rfl
@[simp] theorem hostStoreWord_fatal (k : Nat) (v : Word) :
    (hostStoreWord k v s).fatal = s.fatal := rfl
@[simp] theorem hostStoreWord_ovr (k : Nat) (v : Word) : (hostStoreWord k v s).ovr = s.ovr := rfl
@[simp] theorem hostStoreWord_err (k : Nat) (v : Word) : (hostStoreWord k v s).err = s.err := rfl
@[simp] theorem hostStoreWord_grid (k : Nat) (v : Word) :
    (hostStoreWord k v s).grid = s.grid := rfl
@[simp] theorem hostStoreWord_rng (k : Nat) (v : Word) : (hostStoreWord k v s).rng = s.rng := rfl
@[simp] theorem hostStoreWord_cmdl (k : Nat) (v : Word) :
    (hostStoreWord k v s).cmdl = s.cmdl := rfl
@[simp] theorem hostStoreWord_argl0 (k : Nat) (v : Word) :
    (hostStoreWord k v s).argl0 = s.argl0 := rfl
@[simp] theorem hostStoreWord_argl1 (k : Nat) (v : Word) :
    (hostStoreWord k v s).argl1 = s.argl1 := rfl
@[simp] theorem hostStoreWord_argl2 (k : Nat) (v : Word) :
    (hostStoreWord k v s).argl2 = s.argl2 := rfl
@[simp] theorem hostStoreWord_cursor (k : Nat) (v : Word) :
    (hostStoreWord k v s).cursor = s.cursor := rfl
@[simp] theorem hostStoreWord_mem (k : Nat) (v : Word) :
    (hostStoreWord k v s).mem = memWriteWord s.mem k v := rfl
@[simp] theorem hostStoreWord_hostCache (k : Nat) (v : Word) :
    (hostStoreWord k v s).hostCache = changeCopy k (fun _ => v) s.hostCache := rfl
@[simp] theorem hostStoreWord_busAnswers (k : Nat) (v : Word) :
    (hostStoreWord k v s).busAnswers = s.busAnswers := rfl
@[simp] theorem hostStoreWord_busLog (k : Nat) (v : Word) :
    (hostStoreWord k v s).busLog = s.busLog := rfl
@[simp] theorem hostStoreWord_reply (k : Nat) (v : Word) :
    (hostStoreWord k v s).reply = s.reply := rfl
@[simp] theorem hostStoreWord_events (k : Nat) (v : Word) :
    (hostStoreWord k v s).events = s.events := rfl
@[simp] theorem hostStoreWord_host (k : Nat) (v : Word) :
    (hostStoreWord k v s).host = s.host := rfl

end Sys2Proof.Machine
end

