-- ==== Sys2Proof/Laws/Draw.lean ====
section
/-! SUPPORT. What a draw and a choice of rows do (41_step.md R157, R158, R161, R162): the RNG state
moves, and nothing else. -/

namespace Sys2Proof.Machine

/-- A draw changes the RNG state alone. -/
theorem drawDrift_state (c : Config) (s : State) :
    (drawDrift c s).2 = { s with rng := (c.rngNext s.rng).2 } := rfl

/-- The choice of rows changes the RNG state alone. -/
theorem drawRows_state (c : Config) (s : State) :
    (drawRows c s).2 = { s with rng := (drawRows c s).2.rng } := by
  unfold drawRows
  split <;> rfl

/-- The rows the heat moves up are 0 to 3 (41_step.md R163). -/
theorem drawRows_le (c : Config) (s : State) : (drawRows c s).1 ≤ 3 := by
  unfold drawRows
  split
  · omega
  · exact Nat.le_of_lt_succ (drawDrift c s).1.isLt

/-- The quantizer by its thresholds (41_step.md R157), as one value. -/
theorem quantize_toNat (ubits m : Nat) :
    (quantize ubits m).toNat =
      if 6 * m < 2 ^ ubits then 0
      else if 6 * m < 3 * 2 ^ ubits then 1
      else if 6 * m < 5 * 2 ^ ubits then 2 else 3 := by
  unfold quantize
  rw [Nat.one_mul]
  repeat' split
  all_goals rfl

/-- The reference draw of `Safety.lean` is the machine's (41_step.md R157, R158). -/
theorem refDraw_eq (c : Config) (s : State) :
    refDraw c s.rng = ((drawDrift c s).1.toNat, (drawDrift c s).2.rng) := by
  unfold refDraw drawDrift
  simp only [quantize_toNat]
  have := Nat.two_pow_pos c.ubits
  congr 1
  split_ifs <;> omega

/-- Decay as arithmetic on levels (41_step.md R160). -/
theorem decayed_eq (v : Nat) (r : Drift) : decayed v r = v - r.toNat % 2 := by
  rw [decayed, BitVec.toNat_and]
  exact congrArg (v - ·) (Nat.and_one_is_mod _)

end Sys2Proof.Machine
end

