-- ==== Sys2Proof/Laws/Tick.lean ====
section
/-! SUPPORT. What the pieces of a STEP do: the traversal stays in the field (41_step.md R152, R153),
a destination is a cell of the field (R165, R169), and a visit changes the grid and the RNG state
alone (R172). -/

namespace Sys2Proof.Machine

/-! ### The traversal -/

theorem mem_columnFrom {h x y : Nat} {p : Nat × Nat} (hp : p ∈ columnFrom h x y) :
    p.1 = x ∧ y ≤ p.2 ∧ p.2 < h := by
  obtain ⟨y', hy, rfl⟩ := List.mem_map.mp hp
  rw [List.mem_range'_1] at hy
  exact ⟨rfl, hy.1, by omega⟩

/-- Every source of the traversal is a cell of the field outside of row 0. -/
theorem mem_sweepFrom {w h x y : Nat} {p : Nat × Nat} (hy : 1 ≤ y) (hp : p ∈ sweepFrom w h x y) :
    p.1 < w ∧ 1 ≤ p.2 ∧ p.2 < h := by
  unfold sweepFrom at hp
  split at hp
  · rcases List.mem_append.mp hp with hp | hp
    · have := mem_columnFrom hp
      omega
    · obtain ⟨x', hx', hp⟩ := List.mem_flatMap.mp hp
      rw [List.mem_range'_1] at hx'
      have := mem_columnFrom hp
      omega
  · cases hp

theorem columnFrom_cons {h x y : Nat} (hy : y < h) :
    columnFrom h x y = (x, y) :: columnFrom h x (y + 1) := by
  unfold columnFrom
  rw [show h - y = (h - (y + 1)) + 1 by omega, List.range'_succ, List.map_cons]

theorem columnFrom_nil {h x y : Nat} (hy : h ≤ y) : columnFrom h x y = [] := by
  unfold columnFrom
  rw [Nat.sub_eq_zero_of_le hy]
  rfl

/-- The columns after a finished one are the traversal from the next column's row 1. -/
theorem sweepFrom_column_end {w h x y : Nat} (hy : h ≤ y) :
    sweepFrom w h x y = sweepFrom w h (x + 1) 1 := by
  unfold sweepFrom
  rw [columnFrom_nil hy, List.nil_append]
  split
  · split
    · rename_i h₁ h₂
      rw [show w - (x + 1) = (w - (x + 1 + 1)) + 1 by omega, List.range'_succ, List.flatMap_cons]
    · rename_i h₁ h₂
      rw [show w - (x + 1) = 0 by omega]
      rfl
  · rw [if_neg (by omega)]

/-- After the source at the head of the traversal, the traversal goes on from the next position. -/
theorem sweepFrom_next {w h x y : Nat} {p : Nat × Nat} {ps : List (Nat × Nat)}
    (hs : sweepFrom w h x y = p :: ps) :
    sweepFrom w h (nextSource h p).1 (nextSource h p).2 = ps := by
  have key : ∀ x y, x < w → y < h →
      sweepFrom w h x y =
        (x, y) :: sweepFrom w h (nextSource h (x, y)).1 (nextSource h (x, y)).2 := by
    intro x y hx hy
    have h₁ : sweepFrom w h x y = (x, y) :: sweepFrom w h x (y + 1) := by
      simp only [sweepFrom, if_pos hx, columnFrom_cons hy, List.cons_append]
    rw [h₁]
    unfold nextSource
    split
    · rfl
    · rename_i hn
      rw [sweepFrom_column_end (by simpa using hn)]
  have step : ∀ x y, x < w → y < h → sweepFrom w h x y = p :: ps →
      sweepFrom w h (nextSource h p).1 (nextSource h p).2 = ps := by
    intro x y hx hy hs
    rw [key x y hx hy] at hs
    injection hs with h₁ h₂
    rw [← h₁]
    exact h₂
  have hx : x < w := by
    by_contra hx
    rw [sweepFrom, if_neg hx] at hs
    cases hs
  by_cases hy : y < h
  · exact step x y hx hy hs
  · rw [sweepFrom_column_end (by omega)] at hs
    have hx' : x + 1 < w := by
      by_contra hx'
      rw [sweepFrom, if_neg hx'] at hs
      cases hs
    by_cases h1 : 1 < h
    · exact step (x + 1) 1 hx' h1 hs
    · exfalso
      have hmem : p ∈ sweepFrom w h (x + 1) 1 := hs ▸ List.mem_cons_self ..
      have := mem_sweepFrom (le_refl 1) hmem
      omega

theorem one_le_nextSource {h : Nat} {p : Nat × Nat} : 1 ≤ (nextSource h p).2 := by
  unfold nextSource
  split
  · exact Nat.le_add_left 1 p.2
  · exact le_refl 1

/-- A cell (x, y) of the field has a flat index below W*H (10_state.md R40). -/
theorem cellAt_lt {s : State} {x y : Nat} (hx : x < fieldW s) (hy : y < fieldH s) :
    cellAt s x y < fieldCells s := by
  unfold cellAt fieldCells
  have h₁ : (y + 1) * fieldW s ≤ fieldH s * fieldW s := Nat.mul_le_mul_right _ hy
  have h₂ : fieldW s * fieldH s = fieldH s * fieldW s := Nat.mul_comm ..
  have h₃ : (y + 1) * fieldW s = y * fieldW s + fieldW s := Nat.succ_mul ..
  omega

/-- A clamped destination is a cell of the field (41_step.md R165, R169). -/
theorem clampDest_lt {n d : Nat} (hn : 0 < n) : clampDest (n - 1) d < n := by
  unfold clampDest
  split <;> omega

/-! ### A visit -/

/-- Everything a visit of a non-zero source does. -/
theorem spreadHeat_state (c : Config) (src : Nat) (v : Nat) (s : State) :
    ∃ (r : Drift) (k d rng : Nat),
      k ≤ 3 ∧ (s.lit = true → k = 1) ∧
      d = clampDest (fieldCells s - 1) (wrappedDest c (fieldW s) src r.toNat k) ∧
      spreadHeat c src v s =
        { s with grid := gridWrite s.grid d (decayed v r), rng := rng } := by
  refine ⟨(drawDrift c s).1, (drawRows c (drawDrift c s).2).1, _,
    (drawRows c (drawDrift c s).2).2.rng, drawRows_le _ _, ?_, rfl, ?_⟩
  · intro hl
    have : (drawDrift c s).2.lit = true := by rw [drawDrift_state]; exact hl
    unfold drawRows
    rw [if_pos this]
  · simp only [spreadHeat]
    rw [drawRows_state c (drawDrift c s).2]
    simp only [drawDrift_state]

/-- Everything a visit can do: halt on a level above 36, clear the cell one row up, or write one
decayed level to one cell. -/
theorem visitSource_cases (c : Config) (x y : Nat) (s : State) :
    (maxLevel < gridRead s.grid (cellAt s x y) ∧
      visitSource c x y s = .ended (raiseFatal s)) ∨
    (gridRead s.grid (cellAt s x y) = 0 ∧
      visitSource c x y s =
        .goOn { s with grid := gridWrite s.grid (cellAt s x y - fieldW s) 0 }) ∨
    (gridRead s.grid (cellAt s x y) ≤ maxLevel ∧ gridRead s.grid (cellAt s x y) ≠ 0 ∧
      visitSource c x y s =
        .goOn (spreadHeat c (cellAt s x y) (gridRead s.grid (cellAt s x y)) s)) := by
  simp only [visitSource]
  split
  · exact .inl ⟨‹_›, rfl⟩
  · split
    · exact .inr (.inl ⟨‹_›, rfl⟩)
    · exact .inr (.inr ⟨by omega, ‹_›, rfl⟩)

/-- A visit changes the grid and the RNG state alone. -/
theorem visitSource_frame {c : Config} {x y : Nat} {s t : State}
    (h : visitSource c x y s = .goOn t) :
    t = { s with grid := t.grid, rng := t.rng } := by
  rcases visitSource_cases c x y s with ⟨_, e⟩ | ⟨_, e⟩ | ⟨_, _, e⟩
  · rw [e] at h; cases h
  · rw [e] at h; cases h; rfl
  · rw [e] at h
    obtain ⟨r, k, d, rng, _, _, _, e⟩ :=
      spreadHeat_state c (cellAt s x y) (gridRead s.grid (cellAt s x y)) s
    rw [e] at h; cases h; rfl

/-- The visits of a list change the grid and the RNG state alone. -/
theorem visitAll_frame {c : Config} {ps : List (Nat × Nat)} {s t : State}
    (h : visitAll c ps s = .goOn t) :
    t = { s with grid := t.grid, rng := t.rng } := by
  induction ps generalizing s with
  | nil => cases h; rfl
  | cons p ps ih =>
    simp only [visitAll] at h
    split at h
    · rename_i s' hs'
      have h₁ := visitSource_frame hs'
      have h₂ := ih h
      rw [h₁] at h₂
      exact h₂
    · cases h

/-- A visit that ends the command halts the block. -/
theorem visitSource_ended {c : Config} {x y : Nat} {s : State} {r : Result}
    (h : visitSource c x y s = .ended r) : r = raiseFatal s := by
  rcases visitSource_cases c x y s with ⟨_, e⟩ | ⟨_, e⟩ | ⟨_, _, e⟩ <;> rw [e] at h <;> cases h
  rfl

end Sys2Proof.Machine
end

