-- ==== Sys2Proof/Laws/Step.lean ====
section
/-! SUPPORT. What a step does, by the event at the head of the order, and what a command can answer:
the lemmas the proofs over every step cite. -/

namespace Sys2Proof.Machine

/-- The host's machine is a configuration of this hardware (00_scope.md R8). -/
theorem chip_wf : Config.chip.wf = true := by decide

theorem step_eq (s : State) : step s = nextMove Config.chip s := by
  simp [step, stepUnder, chip_wf]

/-- The host's `exec` is the command under the host's configuration. -/
theorem performCommand_chip (i : Instr) (s : State) : performCommand Config.chip i s = exec i s := by
  cases i <;> rfl

theorem nextMove_of_event {c : Config} {s : State} {e : Event} {rest : List Event}
    (h : s.events = e :: rest) : nextMove c s = respond c e { s with events := rest } := by
  simp [nextMove, h]

theorem nextMove_of_none {c : Config} {s : State} (h : s.events = []) :
    nextMove c s = if inFlight s then engineMove c s else .next (hostMove c s) := by
  simp [nextMove, h]

theorem step_of_event {s : State} {e : Event} {rest : List Event} (h : s.events = e :: rest) :
    step s = respond Config.chip e { s with events := rest } := by
  rw [step_eq, nextMove_of_event h]

theorem step_of_none {s : State} (h : s.events = []) :
    step s =
      if inFlight s then engineMove Config.chip s else .next (hostMove Config.chip s) := by
  rw [step_eq, nextMove_of_none h]

/-- Everything a step under a configuration can be: a refusal of the configuration, or a move. -/
theorem stepUnder_cases (c : Config) (s : State) :
    (c.wf = false ∧ stepUnder c s = .refused .notAConfiguration) ∨
    (c.wf = true ∧ stepUnder c s = nextMove c s) := by
  cases h : c.wf <;> simp [stepUnder, h]

theorem needsField_cases (s : State) (body : Result) :
    (s.cfg = false ∧ needsField s body = raiseError .nocfg s) ∨
    (s.cfg = true ∧ needsField s body = body) := by
  cases h : s.cfg <;> simp [needsField, h]

/-- Everything NEW can answer. -/
theorem newCommand_cases (c : Config) (s : State) :
    (legalDims c (newWidth s) (newHeight s) = true ∧
      newCommand c s = .next (finish .ok (buildField c s))) ∨
    (legalDims c (newWidth s) (newHeight s) = false ∧
      newCommand c s = .next (finish .dim s)) := by
  cases h : legalDims c (newWidth s) (newHeight s) <;>
    simp [newCommand, h, completeOk, raiseError]

/-- Everything a STEP can answer: NOCFG, a completion that changed the grid and the RNG state, or a
fault. -/
theorem stepCommand_cases (c : Config) (s : State) :
    (s.cfg = false ∧ stepCommand c s = .next (finish .nocfg s)) ∨
    (s.cfg = true ∧ ∃ t, visitAll c (remainingSources s) s = .goOn t ∧
      stepCommand c s = .next (finish .ok t)) ∨
    (s.cfg = true ∧ ∃ r, visitAll c (remainingSources s) s = .ended r ∧ stepCommand c s = r) := by
  rcases needsField_cases s _ with ⟨h, e⟩ | ⟨h, e⟩
  · exact .inl ⟨h, e⟩
  · rw [stepCommand, e]
    split
    · rename_i t ht
      exact .inr (.inl ⟨h, t, ht, rfl⟩)
    · rename_i r hr
      exact .inr (.inr ⟨h, r, hr, rfl⟩)

/-- Everything the end of a pixel loop can answer. -/
theorem renderPixels_ended {c : Config} {n i : Nat} {s : State} {r : Result}
    (h : renderPixels c n i s = .ended r) :
    ∃ m ans log,
      r = raiseFatal { s with mem := m, busAnswers := ans, busLog := log } ∨
      r = raiseError .bus { s with mem := m, busAnswers := ans, busLog := log } := by
  induction n generalizing i s with
  | zero => cases h
  | succ n ih =>
    simp only [renderPixels] at h
    split at h
    · rename_i s' hs'
      obtain ⟨m, ans, log, hr⟩ := ih h
      have hf := renderPixel_frame hs'
      rw [hf] at hr
      exact ⟨m, ans, log, hr⟩
    · rename_i r' hr'
      cases h
      rcases renderPixel_cases c i s with ⟨_, e⟩ | ⟨p, _, ⟨_, e⟩ | ⟨_, e⟩⟩ <;> rw [e] at hr'
        <;> cases hr'
      · exact ⟨s.mem, s.busAnswers, s.busLog, .inl rfl⟩
      · exact ⟨_, _, _, .inr rfl⟩

/-- The end of a list of visits that halts the block: the grid and the RNG state may have
changed. -/
theorem visitAll_ended {c : Config} {ps : List (Nat × Nat)} {s : State} {r : Result}
    (h : visitAll c ps s = .ended r) :
    ∃ g rng, r = raiseFatal { s with grid := g, rng := rng } := by
  induction ps generalizing s with
  | nil => cases h
  | cons p ps ih =>
    simp only [visitAll] at h
    split at h
    · rename_i s' hs'
      obtain ⟨g, rng, hr⟩ := ih h
      have hf := visitSource_frame hs'
      rw [hf] at hr
      exact ⟨g, rng, hr⟩
    · rename_i r' hr'
      cases h
      rw [visitSource_ended hr']
      exact ⟨s.grid, s.rng, rfl⟩

/-- Everything a RENDER can answer: an error of its guard, a refusal, a completion that changed host
memory, the bus's answers and the write history, or the end of its pixel loop. -/
theorem renderCommand_cases (c : Config) (s : State) :
    (s.cfg = false ∧ renderCommand c s = .next (finish .nocfg s)) ∨
    (s.cfg = true ∧ ∃ code, renderCheck c s = some code ∧
      renderCommand c s = .next (finish code s)) ∨
    (s.cfg = true ∧ renderCheck c s = none ∧
      outsidePlainMemory c (renderBase s) (renderLen s) = true ∧
      renderCommand c s = .refused .renderOutsideSpec) ∨
    (s.cfg = true ∧ RenderLegal c s ∧ ∃ t,
      renderPixels c (fieldCells s - renderPosition s) (renderPosition s) s = .goOn t ∧
      renderCommand c s = .next (finish .ok t)) ∨
    (s.cfg = true ∧ RenderLegal c s ∧ ∃ r,
      renderPixels c (fieldCells s - renderPosition s) (renderPosition s) s = .ended r ∧
      renderCommand c s = r) := by
  rcases renderGuard_cases c s _ with ⟨h, e⟩ | ⟨h, code, hk, e⟩ | ⟨h, hk, ho, e⟩ | ⟨h, hl, e⟩
  · exact .inl ⟨h, e⟩
  · exact .inr (.inl ⟨h, code, hk, e⟩)
  · exact .inr (.inr (.inl ⟨h, hk, ho, e⟩))
  · rw [renderCommand, e]
    split
    · rename_i t ht
      exact .inr (.inr (.inr (.inl ⟨h, hl, t, ht, rfl⟩)))
    · rename_i r hr
      exact .inr (.inr (.inr (.inr ⟨h, hl, r, hr, rfl⟩)))

/-- The codes the checks of a RENDER can give. -/
theorem renderCheck_code {c : Config} {s : State} {code : Completion}
    (h : renderCheck c s = some code) : code = .len ∨ code = .align ∨ code = .addr := by
  unfold renderCheck at h
  split at h
  · exact .inl (Option.some.inj h).symm
  · split at h
    · exact .inr (.inl (Option.some.inj h).symm)
    · split at h
      · exact .inr (.inr (Option.some.inj h).symm)
      · cases h

/-- What a command that answers a next state leaves, by the fields each command may write
(10_state.md R50): the command has ended, and every field not named here is unchanged. -/
theorem performCommand_next {c : Config} {i : Instr} {s t : State}
    (h : performCommand c i s = .next t) :
    t = { s with
      result := t.result, width := t.width, height := t.height, cfg := t.cfg, lit := t.lit,
      grid := t.grid, rng := t.rng, mem := t.mem, busAnswers := t.busAnswers,
      busLog := t.busLog, err := t.err, busy := false, cursor := .idle } ∧
    (t.result ≠ s.result → (i = .islit ∨ i = .peek) ∧ t.err = .ok) ∧
    (t.width ≠ s.width ∨ t.height ≠ s.height → i = .new ∧ t.err = .ok) ∧
    (t.cfg ≠ s.cfg → i = .new ∧ t.err = .ok ∧ t.cfg = true) ∧
    (t.lit ≠ s.lit → t.err = .ok ∧
      ((i = .ignite ∧ t.lit = true) ∨ ((i = .extinguish ∨ i = .new) ∧ t.lit = false))) ∧
    (t.grid ≠ s.grid → (i = .new ∨ i = .ignite ∨ i = .step ∨ i = .poke) ∧ t.err = .ok) ∧
    (t.rng ≠ s.rng → (i = .new ∨ i = .step) ∧ t.err = .ok) ∧
    (t.mem ≠ s.mem ∨ t.busAnswers ≠ s.busAnswers ∨ t.busLog ≠ s.busLog →
      i = .render ∧ RenderLegal c s ∧ s.cfg = true ∧ (t.err = .ok ∨ t.err = .bus)) ∧
    t.err ∈ codesOf i := by
  cases i with
  | new =>
    rcases newCommand_cases c s with ⟨_, e⟩ | ⟨_, e⟩ <;>
      (rw [show performCommand c .new s = _ from e] at h; cases h; simp [codesOf, finish, buildField])
  | ignite =>
    rcases needsField_cases s (completeOk (lightBottomRow s)) with ⟨_, e⟩ | ⟨_, e⟩ <;>
      (rw [show performCommand c .ignite s = _ from e] at h; cases h; simp [codesOf, finish, lightBottomRow])
  | extinguish =>
    rcases needsField_cases s (completeOk { s with lit := false }) with ⟨_, e⟩ | ⟨_, e⟩ <;>
      (rw [show performCommand c .extinguish s = _ from e] at h; cases h; simp [codesOf, finish])
  | step =>
    rcases stepCommand_cases c s with ⟨_, e⟩ | ⟨_, t', ht, e⟩ | ⟨_, r, hr, e⟩
    · rw [show performCommand c .step s = _ from e] at h; cases h; simp [codesOf, finish]
    · rw [show performCommand c .step s = _ from e] at h; cases h
      rw [visitAll_frame ht]
      simp [codesOf, finish]
    · obtain ⟨g, rng, rfl⟩ := visitAll_ended hr
      rw [show performCommand c .step s = _ from e] at h; cases h
  | render =>
    rcases renderCommand_cases c s with
      ⟨_, e⟩ | ⟨_, code, hk, e⟩ | ⟨_, _, _, e⟩ | ⟨hc, hl, t', ht, e⟩ | ⟨hc, hl, r, hr, e⟩
    · rw [show performCommand c .render s = _ from e] at h; cases h; simp [codesOf, finish]
    · rw [show performCommand c .render s = _ from e] at h; cases h
      rcases renderCheck_code hk with rfl | rfl | rfl <;> simp [codesOf, finish]
    · rw [show performCommand c .render s = _ from e] at h; cases h
    · rw [show performCommand c .render s = _ from e] at h; cases h
      rw [renderPixels_frame ht]
      simp [codesOf, finish, hl, hc]
    · obtain ⟨m, ans, log, rfl | rfl⟩ := renderPixels_ended hr
      · rw [show performCommand c .render s = _ from e] at h; cases h
      · rw [show performCommand c .render s = _ from e] at h; cases h
        simp [codesOf, finish, hl, hc]
  | islit =>
    rcases needsField_cases s (completeOk { s with result := bitWord s.lit }) with ⟨_, e⟩ | ⟨_, e⟩ <;>
      (rw [show performCommand c .islit s = _ from e] at h; cases h; simp [codesOf, finish])
  | peek =>
    change execPeek s = _ at h
    unfold execPeek at h
    rcases needsField_cases s _ with ⟨_, e⟩ | ⟨_, e⟩ <;> rw [e] at h
    · cases h; simp [codesOf, finish]
    · split at h <;> cases h <;> simp [codesOf, finish]
  | poke =>
    change execPoke s = _ at h
    unfold execPoke at h
    rcases needsField_cases s _ with ⟨_, e⟩ | ⟨_, e⟩ <;> rw [e] at h
    · cases h; simp [codesOf, finish]
    · split at h <;> cases h <;> simp [codesOf, finish]

theorem exec_next {i : Instr} {s t : State} (h : exec i s = .next t) :
    t = { s with
      result := t.result, width := t.width, height := t.height, cfg := t.cfg, lit := t.lit,
      grid := t.grid, rng := t.rng, mem := t.mem, busAnswers := t.busAnswers,
      busLog := t.busLog, err := t.err, busy := false, cursor := .idle } ∧ t.err ∈ codesOf i := by
  have h := performCommand_next ((performCommand_chip i s).trans h)
  exact ⟨h.1, h.2.2.2.2.2.2.2.2⟩

/-- One piece of a STEP either is its end, as the whole command gives it, or visits the source at the
head of the traversal and moves the cursor on. -/
theorem stepPiece_cases (c : Config) (s : State) :
    stepPiece c s = stepCommand c s ∨
    (s.cfg = true ∧ ∃ p ps t, remainingSources s = p :: ps ∧ visitSource c p.1 p.2 s = .goOn t ∧
      stepPiece c s = .next { t with
        cursor := .step (nextSource (fieldH s) p).1 (nextSource (fieldH s) p).2 }) := by
  unfold stepPiece stepCommand
  cases hc : s.cfg
  · exact .inl (by simp [needsField, hc])
  · cases hr : remainingSources s with
    | nil => exact .inl (by simp [needsField, hc, visitAll])
    | cons p ps =>
      cases hv : visitSource c p.1 p.2 s with
      | goOn t => exact .inr ⟨rfl, p, ps, t, rfl, hv, by simp [needsField, hc, hv]⟩
      | ended r => exact .inl (by simp [needsField, hc, visitAll, hv])

/-- One piece of a RENDER is its end, as the whole command gives it, or its checks, or one pixel. -/
theorem renderPiece_cases (c : Config) (s : State) :
    renderPiece c s = renderCommand c s ∨
    (s.cfg = true ∧ RenderLegal c s ∧ (∀ i, s.cursor ≠ .render i) ∧
      renderPiece c s = .next { s with cursor := .render 0 }) ∨
    (s.cfg = true ∧ RenderLegal c s ∧ ∃ i t, s.cursor = .render i ∧ i < fieldCells s ∧
      renderPixel c i s = .goOn t ∧ renderPiece c s = .next { t with cursor := .render (i + 1) }) := by
  unfold renderPiece renderCommand
  rcases renderGuard_cases c s (match renderPixels c (fieldCells s - renderPosition s)
      (renderPosition s) s with
    | .goOn s' => completeOk s'
    | .ended r => r) with ⟨h, e⟩ | ⟨h, code, hk, e⟩ | ⟨h, hk, ho, e⟩ | ⟨h, hl, e⟩
  · exact .inl (by simp [renderGuard, needsField, h])
  · exact .inl (by simp [renderGuard, needsField, h, hk])
  · exact .inl (by simp [renderGuard, needsField, h, hk, ho])
  · have hg : ∀ body, renderGuard c s body = body := fun body => by
      simp [renderGuard, needsField, h, hl.1, hl.2]
    simp only [hg]
    cases hcur : s.cursor with
    | idle => exact .inr (.inl ⟨h, hl, by simp, rfl⟩)
    | step x y => exact .inr (.inl ⟨h, hl, by simp, rfl⟩)
    | render i =>
      have hp : renderPosition s = i := by simp [renderPosition, hcur]
      by_cases hi : i < fieldCells s
      · rw [hp, show fieldCells s - i = (fieldCells s - (i + 1)) + 1 by omega]
        cases hv : renderPixel c i s with
        | goOn t => exact .inr (.inr ⟨h, hl, i, t, rfl, hi, hv, by simp [hi, hv]⟩)
        | ended r => exact .inl (by simp [hi, renderPixels, hv])
      · rw [hp, show fieldCells s - i = 0 by omega]
        exact .inl (by simp [hi, renderPixels])

/-- Everything a piece of the command in flight can answer: what performing the command whole
answers, or one more piece done with the command still in flight. -/
theorem advanceMove_cases (c : Config) (s : State) :
    advanceMove c s = engineMove c s ∨
    (inFlight s = true ∧ s.cfg = true ∧ decodeWord s.cmdl = .ok .step ∧
      ∃ p ps t, remainingSources s = p :: ps ∧
        visitSource c p.1 p.2 s = .goOn t ∧
        advanceMove c s = .next { t with
          cursor := .step (nextSource (fieldH s) p).1 (nextSource (fieldH s) p).2 }) ∨
    (inFlight s = true ∧ s.cfg = true ∧ decodeWord s.cmdl = .ok .render ∧
      RenderLegal c s ∧
      (((∀ i, s.cursor ≠ .render i) ∧ advanceMove c s = .next { s with cursor := .render 0 }) ∨
       ∃ i t, s.cursor = .render i ∧ i < fieldCells s ∧ renderPixel c i s = .goOn t ∧
         advanceMove c s = .next { t with cursor := .render (i + 1) })) := by
  cases hf : inFlight s
  · exact .inl (by simp [advanceMove, engineMove, hf])
  · cases hd : decodeWord s.cmdl with
    | error e => exact .inl (by simp [advanceMove, engineMove, hf, hd])
    | ok i =>
      cases i with
      | step =>
        have ha : advanceMove c s = stepPiece c s := by simp [advanceMove, hf, hd]
        have he : engineMove c s = stepCommand c s := by
          simp [engineMove, hf, hd, performCommand]
        rw [ha, he]
        rcases stepPiece_cases c s with h | ⟨hc, h⟩
        · exact .inl h
        · exact .inr (.inl ⟨rfl, hc, rfl, h⟩)
      | render =>
        have ha : advanceMove c s = renderPiece c s := by simp [advanceMove, hf, hd]
        have he : engineMove c s = renderCommand c s := by
          simp [engineMove, hf, hd, performCommand]
        rw [ha, he]
        rcases renderPiece_cases c s with h | ⟨hc, hl, h⟩ | ⟨hc, hl, h⟩
        · exact .inl h
        · exact .inr (.inr ⟨rfl, hc, rfl, hl, .inl h⟩)
        · exact .inr (.inr ⟨rfl, hc, rfl, hl, .inr h⟩)
      | new => exact .inl (by simp [advanceMove, engineMove, hf, hd])
      | ignite => exact .inl (by simp [advanceMove, engineMove, hf, hd])
      | extinguish => exact .inl (by simp [advanceMove, engineMove, hf, hd])
      | islit => exact .inl (by simp [advanceMove, engineMove, hf, hd])
      | peek => exact .inl (by simp [advanceMove, engineMove, hf, hd])
      | poke => exact .inl (by simp [advanceMove, engineMove, hf, hd])

/-- Everything the engine can answer. -/
theorem engineMove_cases (c : Config) (s : State) :
    (inFlight s = false ∧ engineMove c s = .next s) ∨
    (inFlight s = true ∧ ∃ i, decodeWord s.cmdl = .ok i ∧ engineMove c s = performCommand c i s) ∨
    (inFlight s = true ∧ (∃ e, decodeWord s.cmdl = .error e) ∧
      engineMove c s = .next (finish .illegal s)) := by
  cases hf : inFlight s
  · exact .inl ⟨rfl, by simp [engineMove, hf]⟩
  · cases hd : decodeWord s.cmdl with
    | ok i => exact .inr (.inl ⟨rfl, i, rfl, by simp [engineMove, hf, hd]⟩)
    | error e => exact .inr (.inr ⟨rfl, ⟨e, rfl⟩, by simp [engineMove, hf, hd, raiseError]⟩)

end Sys2Proof.Machine
end

