-- ==== Sys2Proof/Laws/Window.lean ====
section
/-! SUPPORT. What a host's accesses, to the register window and by host address, and a host
statement can change (10_state.md R22, R27, R28; 30_encoding.md R90, R98; 20_memory.md R60): never
the field, the RNG state, RESULT, ERR or FATAL. -/

namespace Sys2Proof.Machine

/-- Everything an issue can do (30_encoding.md R90). -/
theorem issueCommand_cases (w : Word) (s : State) :
    (s.fatal = true ∧ issueCommand w s = s) ∨
    (s.fatal = false ∧ s.busy = true ∧ issueCommand w s = { s with ovr := true }) ∨
    (s.fatal = false ∧ s.busy = false ∧ issueCommand w s = acceptIssue w s) := by
  cases hf : s.fatal <;> cases hb : s.busy <;> simp [issueCommand, hf, hb]

/-- A read of the window changes the reply alone. -/
theorem readWindow_state (c : Config) (width : Nat) (off : Offset) (s : State) :
    readWindow c width off s = { s with reply := (readWindow c width off s).reply } := by
  unfold readWindow
  split <;> rfl

/-- A write of the window changes the ARG registers, OVR, what an accepted issue writes, and the
reply. -/
theorem writeWindow_state (width : Nat) (off : Offset) (v : Word) (s : State) :
    writeWindow width off v s =
      { s with
        arg0 := (writeWindow width off v s).arg0, arg1 := (writeWindow width off v s).arg1
        arg2 := (writeWindow width off v s).arg2, ovr := (writeWindow width off v s).ovr
        busy := (writeWindow width off v s).busy, cmdl := (writeWindow width off v s).cmdl
        argl0 := (writeWindow width off v s).argl0, argl1 := (writeWindow width off v s).argl1
        argl2 := (writeWindow width off v s).argl2, cursor := (writeWindow width off v s).cursor
        reply := (writeWindow width off v s).reply } := by
  unfold writeWindow writeRegister
  split
  · split <;> try rfl
    rcases issueCommand_cases v s with ⟨_, e⟩ | ⟨_, _, e⟩ | ⟨_, _, e⟩ <;> (rw [e]; try rfl)
  · rfl

/-- A write of the window leaves the command in flight and the cursor, or accepts a command from a
block that is neither busy nor halted. -/
theorem writeWindow_flight (width : Nat) (off : Offset) (v : Word) (s : State) :
    ((writeWindow width off v s).busy = s.busy ∧ (writeWindow width off v s).cursor = s.cursor) ∨
    (s.busy = false ∧ s.fatal = false ∧ (writeWindow width off v s).busy = true ∧
      (writeWindow width off v s).cursor = .idle) := by
  unfold writeWindow writeRegister
  split
  · split <;> try exact .inl ⟨rfl, rfl⟩
    rcases issueCommand_cases v s with ⟨_, e⟩ | ⟨_, _, e⟩ | ⟨hf, hb, e⟩ <;> rw [e]
    · exact .inl ⟨rfl, rfl⟩
    · exact .inl ⟨rfl, rfl⟩
    · exact .inr ⟨hb, hf, rfl, rfl⟩
  · exact .inl ⟨rfl, rfl⟩

/-- A write of another width than 4 gets a bus error. -/
theorem writeWindow_narrow (off : Offset) (v : Word) (s : State) :
    writeWindow 1 off v s = { s with reply := .busError } := rfl

/-- Everything a host's move can leave: what a write of the window leaves, but for the host's own
fields, or nothing but the reply and the host's own fields changed. -/
theorem hostMove_cases (c : Config) (s : State) :
    (∃ off e v, s.host.program[s.host.pc]? = some (.wr off e) ∧
      hostMove c s = { writeWindow 4 off v s with host := (hostMove c s).host }) ∨
    hostMove c s = { s with reply := (hostMove c s).reply, host := (hostMove c s).host } := by
  unfold hostMove
  split
  · exact .inr rfl
  · rename_i st hst
    cases st with
    | wr off e => exact .inl ⟨off, e, _, hst, rfl⟩
    | rd off k =>
      refine .inr ?_
      simp only [performStmt, hostRead]
      split <;> (rw [readWindow_state]; rfl)
    | wait => exact .inr rfl
    | label l => exact .inr rfl
    | ifGoto cond l =>
      refine .inr ?_
      simp only [performStmt, hostBranch]
      split <;> rfl
    | assign k e => exact .inr rfl

/-! ### Accesses by host address -/

/-- The offset of an address of the window. -/
theorem placeOf_window {c : Config} {a n : Nat} {off : Offset} (h : placeOf c a n = .window off) :
    a = c.regBase + off.toNat := by
  unfold placeOf at h
  split at h
  · rename_i hw
    simp only [inWindow, Bool.and_eq_true, decide_eq_true_eq] at hw
    cases h
    rw [BitVec.toNat_ofNat, Nat.mod_eq_of_lt (by omega)]
    omega
  · repeat' split at h
    all_goals cases h

/-- An access that reaches host memory lies in the address space. -/
theorem placeOf_memory {c : Config} {a n : Nat} (h : placeOf c a n = .memory) :
    a + n ≤ 2 ^ c.addrBits ∧ outsidePlainMemory c a n = false := by
  unfold placeOf at h
  split at h
  · cases h
  · split at h
    · cases h
    · rename_i h₁
      split at h
      · cases h
      · rename_i h₂
        simp only [Bool.or_eq_true, decide_eq_true_eq, not_or] at h₁
        exact ⟨Nat.le_of_not_lt h₁.2, by simpa using h₂⟩

/-- A read by host address changes the reply alone. -/
theorem hostMemRead_state (c : Config) (a : Nat) (s : State) :
    hostMemRead c a s = { s with reply := (hostMemRead c a s).reply } := by
  unfold hostMemRead
  split <;> rfl

/-- A read of a word by host address changes the reply alone. -/
theorem hostMemReadWord_state (c : Config) (k : Nat) (s : State) :
    hostMemReadWord c k s = { s with reply := (hostMemReadWord c k s).reply } := by
  unfold hostMemReadWord
  split <;> first | rfl | exact readWindow_state ..

/-- Everything a byte write by host address can do: store the byte, or change the reply alone. -/
theorem hostMemWrite_cases (c : Config) (a : Nat) (b : Byte) (s : State) :
    (placeOf c a 1 = .memory ∧ hostMemWrite c a b s = { hostStore a b s with reply := .done }) ∨
    (placeOf c a 1 ≠ .memory ∧
      hostMemWrite c a b s = { s with reply := (hostMemWrite c a b s).reply }) := by
  unfold hostMemWrite
  cases h : placeOf c a 1 with
  | memory => exact .inl ⟨rfl, rfl⟩
  | window off => exact .inr ⟨by simp, rfl⟩
  | absent => exact .inr ⟨by simp, rfl⟩
  | device => exact .inr ⟨by simp, rfl⟩

/-- Everything a word write by host address can do: store the word, write the register at that
address, or change the reply alone. -/
theorem hostMemWriteWord_cases (c : Config) (k : Nat) (v : Word) (s : State) :
    (placeOf c (4 * k) 4 = .memory ∧
      hostMemWriteWord c k v s = { hostStoreWord k v s with reply := .done }) ∨
    (∃ off : Offset, 4 * k = c.regBase + off.toNat ∧
      hostMemWriteWord c k v s = writeWindow 4 off v s) ∨
    hostMemWriteWord c k v s = { s with reply := (hostMemWriteWord c k v s).reply } := by
  unfold hostMemWriteWord
  cases h : placeOf c (4 * k) 4 with
  | memory => exact .inl ⟨rfl, rfl⟩
  | window off => exact .inr (.inl ⟨off, placeOf_window h, rfl⟩)
  | absent => exact .inr (.inr rfl)
  | device => exact .inr (.inr rfl)

/-- A fill of the host-side cache changes the cache alone. -/
theorem cacheFill_state (c : Config) (a : Nat) (s : State) :
    cacheFill c a s = { s with hostCache := (cacheFill c a s).hostCache } := by
  unfold cacheFill
  split <;> rfl

end Sys2Proof.Machine
end

