-- ==== Sys2Proof/Laws/Agents.lean ====
section
/-! SUPPORT. What one move of any agent can answer, said once (00_scope.md R6; 60_exceptions.md
R255): the lemma the proofs over every step start from. -/

namespace Sys2Proof.Machine

/-- A copy that enters the host-side cache keeps its canonical form. -/
theorem cacheFill_wf {c : Config} {k : Nat} {s : State} (h : cacheWf c s.hostCache = true) :
    cacheWf c (cacheFill c k s).hostCache = true := by
  unfold cacheFill
  split
  · rename_i hp
    exact cacheWf_put _ h (placeOf_memory hp).1
  · exact h

/-- Everything one move of one agent can be, from a state `s` whose first event is taken away in
`s₁`. -/
inductive Move (c : Config) (s s₁ : State) : Result → Prop where
  /-- The engine performs the command in flight. -/
  | engine : Move c s s₁ (engineMove c s₁)
  /-- The engine does one piece of it. -/
  | advance : Move c s s₁ (advanceMove c s₁)
  /-- A host agent writes the register at an offset. -/
  | register (off : Offset) (v : Word) (reply : Reply) (host : HostAgent)
      (h : WritesRegister c s off) :
      Move c s s₁ (.next { writeWindow 4 off v s₁ with reply := reply, host := host })
  /-- A host agent changes its own fields and the reply alone. -/
  | answer (reply : Reply) (host : HostAgent) :
      Move c s s₁ (.next { s₁ with reply := reply, host := host })
  /-- A host agent writes host memory. -/
  | store (m : List Host.Cell) (cache : List (Nat × Word))
      (h : (∃ a b rest, s.events = .memWrite a b :: rest) ∨
        ∃ k v rest, s.events = .memWriteWord k v :: rest)
      (hm : memWf c s₁.mem = true → memWf c m = true)
      (hc : cacheWf c s₁.hostCache = true → cacheWf c cache = true) :
      Move c s s₁ (.next { s₁ with mem := m, hostCache := cache, reply := .done })
  /-- The host-side cache changes alone. -/
  | cache (cache : List (Nat × Word))
      (hc : cacheWf c s₁.hostCache = true → cacheWf c cache = true) :
      Move c s s₁ (.next { s₁ with hostCache := cache })
  /-- Reset is asserted. -/
  | reset (landed : Option Pixel) (h : ∃ rest, s.events = .reset landed :: rest) :
      Move c s s₁ (.next (hardwareReset landed s₁))

/-- A move of the host program. -/
theorem hostMove_move {c : Config} {s s₁ : State}
    (h : (∃ rest, s.events = .host :: rest) ∨ s.events = []) (hs : s₁.host = s.host) :
    Move c s s₁ (.next (hostMove c s₁)) := by
  rcases hostMove_cases c s₁ with ⟨off, e, v, hp, hm⟩ | hm <;> rw [hm]
  · have hw : WritesRegister c s off := .inr (.inr ⟨h, e, by rw [← hs]; exact hp⟩)
    have h₁ := Move.register (s₁ := s₁) off v (writeWindow 4 off v s₁).reply
      (hostMove c s₁).host hw
    exact h₁
  · exact .answer ..

/-- A write of the window of any width, at the offset the event names. -/
theorem writeWindow_move {c : Config} {s s₁ : State} {width : Nat} {off : Offset} {v : Word}
    (h : width = 4 → WritesRegister c s off) :
    Move c s s₁ (.next (writeWindow width off v s₁)) := by
  by_cases hw : width = 4
  · subst hw
    have h₁ := Move.register (s₁ := s₁) off v (writeWindow 4 off v s₁).reply
      (writeWindow 4 off v s₁).host (h rfl)
    exact h₁
  · have e : writeWindow width off v s₁ = { s₁ with reply := .busError } := by
      simp [writeWindow, legalAccess, hw]
    rw [e]
    exact Move.answer (s₁ := s₁) .busError s₁.host

/-- A byte written by host address. -/
theorem hostMemWrite_move {c : Config} {s s₁ : State} {a : Nat} {b : Byte} {rest : List Event}
    (h : s.events = .memWrite a b :: rest) : Move c s s₁ (.next (hostMemWrite c a b s₁)) := by
  rcases hostMemWrite_cases c a b s₁ with ⟨hp, e⟩ | ⟨_, e⟩ <;> rw [e]
  · have ha := (placeOf_memory hp).1
    exact .store (memWrite s₁.mem a b) _ (.inl ⟨a, b, rest, h⟩)
      (fun hm => memWf_write b hm (by omega)) (cacheWf_changeCopy _ _)
  · exact Move.answer (s₁ := s₁) _ s₁.host

/-- A word written by host address. -/
theorem hostMemWriteWord_move {c : Config} {s s₁ : State} {k : Nat} {v : Word} {rest : List Event}
    (h : s.events = .memWriteWord k v :: rest) :
    Move c s s₁ (.next (hostMemWriteWord c k v s₁)) := by
  rcases hostMemWriteWord_cases c k v s₁ with ⟨hp, e⟩ | ⟨off, ho, e⟩ | e <;> rw [e]
  · have ha := (placeOf_memory hp).1
    exact .store (memWriteWord s₁.mem k v) _ (.inr ⟨k, v, rest, h⟩)
      (fun hm => memWf_writeWord v hm ha) (cacheWf_changeCopy _ _)
  · exact writeWindow_move fun _ => .inr (.inl ⟨k, v, rest, h, ho⟩)
  · exact Move.answer (s₁ := s₁) _ s₁.host

/-- The effect of the first event is one of the moves. -/
theorem respond_move {c : Config} {s s₁ : State} {e : Event} {rest : List Event}
    (h : s.events = e :: rest) (hs : s₁.host = s.host) : Move c s s₁ (respond c e s₁) := by
  cases e with
  | engine => exact .engine
  | advance => exact .advance
  | host => exact hostMove_move (.inl ⟨rest, h⟩) hs
  | regRead width off =>
    rw [respond, readWindow_state]
    exact Move.answer (s₁ := s₁) _ s₁.host
  | regWrite width off v =>
    exact writeWindow_move fun hw => .inl ⟨v, rest, by rw [h, hw]⟩
  | memRead a =>
    rw [respond, hostMemRead_state]
    exact Move.answer (s₁ := s₁) _ s₁.host
  | memReadWord k =>
    rw [respond, hostMemReadWord_state]
    exact Move.answer (s₁ := s₁) _ s₁.host
  | memWrite a b => exact hostMemWrite_move h
  | memWriteWord k v => exact hostMemWriteWord_move h
  | cacheFill a =>
    rw [respond, cacheFill_state]
    exact .cache _ cacheFill_wf
  | invalidate base len => exact .cache _ (cacheWf_filter _)
  | reset landed => exact .reset landed ⟨rest, h⟩

/-- Every step's move is one of the moves. -/
theorem nextMove_move (c : Config) (s : State) :
    Move c s { s with events := s.events.tail } (nextMove c s) := by
  cases he : s.events with
  | nil =>
    have hs : { s with events := List.tail [] } = s := by
      cases s; cases he; rfl
    rw [nextMove_of_none he, hs]
    split
    · exact .engine
    · exact hostMove_move (.inr he) rfl
  | cons e rest =>
    rw [nextMove_of_event he]
    exact respond_move he rfl

end Sys2Proof.Machine
end

