-- ==== Sys2Proof/Laws/PerInstr.lean ====
section
/-! SUPPORT. The per-instruction family `Encoding`: the command word of a command is well formed and
decodes to it, as a word and as the bytes of a CMD write (30_encoding.md R92, R93; 10_state.md
R23). -/

namespace Sys2Proof.Laws.Encoding

/-- What the family states of one command. -/
def Statement (i : Instr) : Prop :=
  commandWordWf (encode i) = true ∧ decodeWord (encode i) = .ok i ∧
    decodeBytes (encodeBytes i) = .ok i

theorem new : Statement .new := ⟨rfl, rfl, rfl⟩
theorem ignite : Statement .ignite := ⟨rfl, rfl, rfl⟩
theorem extinguish : Statement .extinguish := ⟨rfl, rfl, rfl⟩
theorem step : Statement .step := ⟨rfl, rfl, rfl⟩
theorem render : Statement .render := ⟨rfl, rfl, rfl⟩
theorem islit : Statement .islit := ⟨rfl, rfl, rfl⟩
theorem peek : Statement .peek := ⟨rfl, rfl, rfl⟩
theorem poke : Statement .poke := ⟨rfl, rfl, rfl⟩

end Sys2Proof.Laws.Encoding
end

