-- ==== Sys2Proof/Tests/Slice0.lean ====
section
/-! SUPPORT. The model's own tests. Expected results come from spec/95_test_vectors.md (V-…), or by
hand from the rule named. The second half holds, for each statement with hypotheses, a state and
operands that meet them. -/

namespace Sys2Proof.Tests

open Sys2Proof Sys2Proof.Machine

/-! ### Small states -/

/-- A quiescent block with a field: its cells, row by row. -/
def field (w h : Word) (lit : Bool) (cells : List Nat) : State :=
  { State.reset with
    width := w, height := h, cfg := true, lit := lit
    grid := (cells.mapIdx fun i v => (i, v)).filter fun e => e.2 ≠ 0 }

/-- 95_test_vectors.md, start grid A: 3×2, Lit, rows [0,0,0] / [36,36,36]. -/
def gridA (lit : Bool) : State := field 3 2 lit [0, 0, 0, 36, 36, 36]

/-- A state with the latched words of a command in flight. -/
def inFlightWith (w a0 a1 a2 : Word) (s : State) : State :=
  { s with cmdl := w, argl0 := a0, argl1 := a1, argl2 := a2, busy := true }

/-- A state whose next move is one event. -/
def upTo (e : Event) (s : State) : State := { s with events := [e] }

/-- A halted block (60_exceptions.md R252). -/
def halted : State := haltFatal (gridA true)

/-- The next state, if there is one. -/
def nextOf : Result → Option State
  | .next s => some s
  | .fault _ => none
  | .refused _ => none

/-- The levels of the field a command leaves. -/
def cellsAfter (r : Result) : Option (List Nat) :=
  (nextOf r).map fun s => (List.range (fieldCells s)).map fun i => gridRead s.grid i

/-- STATUS as a command or a step leaves it. -/
def statusAfter (r : Result) : Option Word := (nextOf r).map statusWord

/-- The word that the quantizer of 41_step.md R157 turns into a drift value. -/
def wordFor (d : Drift) : BitVec 32 :=
  if d = 0 then 0x00000000 else if d = 1 then 0x40000000 else if d = 2 then 0x90000000
  else 0xF0000000

/-- A configuration whose draw source answers the given drift values, in order, from RNG state 0 on:
the draws as a free input (41_step.md R158, 92_eei_decisions.md D37). -/
def drawing (ds : List Drift) : Config :=
  { Config.chip with rngNext := fun n => (wordFor (ds.getD n 0), n + 1) }

/-- A configuration whose host-side cache is not coherent (20_memory.md R78). -/
def incoherent : Config := { Config.chip with coherent := false }

/-- A configuration with a device of two bytes at 0x9002 (20_memory.md R70). -/
def withDevice : Config := { Config.chip with devices := [(0x9002, 2)] }

/-! ### Well-formedness: an ill-formed term for each check -/

/-- RSV is not 0 (V-D4); OP is 0 (V-D1); OP is 9 (V-D2). -/
theorem test_ill_formed_words :
    commandWordWf 0x00000014 = false ∧ commandWordWf 0x00000000 = false ∧
      commandWordWf 0x00000009 = false ∧ commandWordWf 0x00000008 = true := by decide

/-- 00_scope.md R8: each constraint on the parameters, broken alone. -/
theorem test_ill_formed_configs :
    Config.wf { Config.chip with maxCells := 0 } = false ∧
      Config.wf { Config.chip with maxCells := 1073741824 } = false ∧
      Config.wf { Config.chip with idxBits := 16 } = false ∧
      Config.wf { Config.chip with cellBits := 5 } = false ∧
      Config.wf { Config.chip with ubits := 2, rngNext := fun n => (0, n) } = false ∧
      Config.wf { Config.chip with addrBits := 0 } = false ∧
      Config.wf { Config.chip with addrBits := 33 } = false ∧ Config.wf Config.chip = true := by
  decide

/-! ### Decoding: words written out from 30_encoding.md R91 and R93 (RSV, then OP) -/

theorem test_decode_lifecycle :
    decodeWord (0b0000000000000000000000000000#28 ++ 0b0001#4) = .ok .new ∧
      decodeWord (0b0000000000000000000000000000#28 ++ 0b0010#4) = .ok .ignite ∧
      decodeWord (0b0000000000000000000000000000#28 ++ 0b0011#4) = .ok .extinguish ∧
      decodeWord (0b0000000000000000000000000000#28 ++ 0b0110#4) = .ok .islit := by decide

theorem test_decode_step_render :
    decodeWord (0b0000000000000000000000000000#28 ++ 0b0100#4) = .ok .step ∧
      decodeWord (0b0000000000000000000000000000#28 ++ 0b0101#4) = .ok .render := by decide

theorem test_decode_cell_access :
    decodeWord (0b0000000000000000000000000000#28 ++ 0b0111#4) = .ok .peek ∧
      decodeWord (0b0000000000000000000000000000#28 ++ 0b1000#4) = .ok .poke := by decide

/-- V-D1 to V-D7. -/
theorem test_decode_reserved :
    decodeWord 0x00000000 = .error (.reservedOp 0) ∧
      decodeWord 0x00000009 = .error (.reservedOp 9) ∧
      decodeWord 0x0000000F = .error (.reservedOp 15) ∧
      decodeWord 0x00000014 = .error .reservedBits ∧
      decodeWord 0x80000001 = .error .reservedBits ∧
      decodeWord 0xFFFFFFFF = .error .reservedBits ∧
      decodeWord 0x00000010 = .error .reservedBits := by decide

/-- 10_state.md R23: the least significant byte comes first. -/
theorem test_decode_bytes :
    decodeBytes [0x04, 0x00, 0x00, 0x00] = .ok .step ∧
      decodeBytes [0x00, 0x00, 0x00, 0x04] = .error .reservedBits ∧
      decodeBytes [0x04] = .error .wrongLength := by decide

/-! ### The commands -/

/-- V-N6: the exact product is compared, not a 32-bit one. -/
theorem test_new_exact_product :
    statusAfter (exec .new (inFlightWith 1 0x10000 0x10000 0 State.reset)) = some 0x00000300 := by
  decide

/-- V-N9: a new field over an old one is all 0 and Unlit. -/
theorem test_new_replaces_field :
    cellsAfter (exec .new (inFlightWith 1 2 2 9 (field 3 2 true [0, 35, 36, 36, 36, 35]))) =
        some [0, 0, 0, 0] ∧
      statusAfter (exec .new (inFlightWith 1 2 2 9 (field 3 2 true [0, 35, 36, 36, 36, 35]))) =
        some 0x00000002 := by decide

/-- V-I4: only the bottom row is rewritten. -/
theorem test_ignite_bottom_row :
    cellsAfter (exec .ignite (field 3 2 true [0, 35, 36, 36, 36, 35])) =
      some [0, 35, 36, 36, 36, 36] := by decide

/-- V-L4: IGNITE without a field. -/
theorem test_ignite_nocfg : statusAfter (exec .ignite State.reset) = some 0x00000200 := by decide

/-- V-E1: the heat stays, `lit` goes. -/
theorem test_extinguish_keeps_cells :
    cellsAfter (exec .extinguish (gridA true)) = some [0, 0, 0, 36, 36, 36] ∧
      statusAfter (exec .extinguish (gridA true)) = some 0x00000002 := by decide

/-- V-L4: EXTINGUISH without a field. -/
theorem test_extinguish_nocfg :
    statusAfter (exec .extinguish State.reset) = some 0x00000200 := by decide

/-- V-S9: columns are the outer loop, and a source is read after the tick wrote it. -/
theorem test_step_traversal :
    cellsAfter (performCommand (drawing [0, 1]) .step (field 2 3 true [0, 0, 0, 7, 20, 0])) =
      some [0, 19, 0, 0, 20, 0] := by decide

/-- V-S8: Unlit, two draws a source, wrap below 0 and clamp to the last cell. -/
theorem test_step_unlit :
    cellsAfter (performCommand (drawing [2, 2, 3, 3, 0, 1]) .step (gridA false)) =
      some [0, 0, 0, 35, 36, 35] := by decide

/-- V-R1: R at the lowest address. -/
theorem test_render_bytes :
    (nextOf (exec .render (inFlightWith 5 0x1000 8 0 (field 2 1 false [36, 0])))).map (·.mem) =
      some [(0x1000, 0xFF), (0x1001, 0xFF), (0x1002, 0xFF), (0x1003, 0xFF),
        (0x1004, 0x07), (0x1005, 0x07), (0x1006, 0x07), (0x1007, 0xFF)] := by decide

/-- V-R6: LEN comes before ALIGN; V-R7: ADDR. -/
theorem test_render_checks :
    statusAfter (exec .render (inFlightWith 5 0x1002 15 0 (field 2 2 false []))) =
        some 0x00000402 ∧
      statusAfter (exec .render (inFlightWith 5 0xFFFFFFF4 16 0 (field 2 2 false []))) =
        some 0x00000602 := by decide

/-- V-L1. -/
theorem test_islit_lit :
    (nextOf (exec .islit (gridA true))).map (·.result) = some 0x00000001 := by decide

/-- V-L3: NOCFG leaves RESULT. -/
theorem test_islit_nocfg :
    nextOf (exec .islit { State.reset with result := 5 }) =
      some { State.reset with result := 5, err := .nocfg } := by decide

/-- V-P3: the last cell is legal. -/
theorem test_peek_last :
    (nextOf (exec .peek (inFlightWith 7 5 0 0 (gridA true)))).map (·.result) =
      some 0x00000024 := by decide

/-- V-P4: one past it is not, and RESULT stays. -/
theorem test_peek_range :
    (nextOf (exec .peek (inFlightWith 7 6 0 0 { gridA true with result := 36 }))).map
        (fun s => (s.result, s.err)) = some (36, .range) := by decide

/-- V-P6. -/
theorem test_poke_cell :
    cellsAfter (exec .poke (inFlightWith 8 3 5 0 (field 2 2 false []))) = some [0, 0, 0, 5] := by
  decide

/-- V-P9: the value is checked before it is truncated. -/
theorem test_poke_full_word :
    statusAfter (exec .poke (inFlightWith 8 3 0x40 0 (field 2 2 false []))) =
      some 0x00000802 := by decide

/-! ### The quantizer, the palette and the window -/

/-- 95_test_vectors.md, UBITS = 3. -/
theorem test_quantize_small :
    (List.range 8).map (quantize 3) = [0, 0, 1, 1, 2, 2, 2, 3] := by decide

/-- 95_test_vectors.md, UBITS = 32: the words where the bands meet. -/
theorem test_quantize_bands :
    [0x2AAAAAAA, 0x2AAAAAAB, 0x7FFFFFFF, 0x80000000, 0xD5555555, 0xD5555556].map (quantize 32) =
      [0, 1, 1, 2, 2, 3] := by decide

/-- 10_state.md R44: the default table, at levels 5 (V-R3) and 35 (V-R12). -/
theorem test_default_palette :
    Config.defaultRamp.length = 35 ∧
      colorOf { Config.chip with palette := Config.defaultPalette } 5 =
        some ⟨0x67, 0x1F, 0x07, 0xFF⟩ ∧
      colorOf { Config.chip with palette := Config.defaultPalette } 35 =
        some ⟨0xEF, 0xEF, 0xC7, 0xFF⟩ := by decide

/-- V-G1, V-G3. -/
theorem test_window_constants :
    (nextOf (step (upTo (.regRead 4 0x00) State.reset))).map (·.reply) =
        some (.word 0x44464301) ∧
      (nextOf (step (upTo (.regRead 4 0x24) State.reset))).map (·.reply) =
        some (.word 0x00010000) := by decide

/-- V-G10: a 16-bit read, and a 32-bit read at a misaligned offset. -/
theorem test_window_bad_access :
    nextOf (step (upTo (.regRead 2 0x08) State.reset)) =
        some { State.reset with reply := .busError } ∧
      nextOf (step (upTo (.regRead 4 0x06) State.reset)) =
        some { State.reset with reply := .busError } := by decide

/-- V-B1: the dropped IGNITE sets OVR, and leaves the command in flight. -/
theorem test_overrun :
    nextOf (step (upTo (.regWrite 4 0x04 2) (inFlightWith 4 0 0 0 (gridA false)))) =
      some { inFlightWith 4 0 0 0 (gridA false) with ovr := true, reply := .done } := by decide

/-- V-B2: while FATAL a CMD write does nothing, not even to OVR. -/
theorem test_halted_drops :
    nextOf (step (upTo (.regWrite 4 0x04 2) halted)) = some { halted with reply := .done } := by
  decide

/-- V-X2: reset while pixel 2 is being written tears that pixel alone. -/
theorem test_reset_tears :
    (nextOf (step (upTo (.reset (some ⟨1, 2, 3, 4⟩))
      { inFlightWith 5 0x2000 24 0 (gridA true) with
        cursor := .render 2, mem := [(0x2007, 0xFF), (0x200C, 0x55)] }))).map
        (fun s => (s.mem, statusWord s)) =
      some ([(0x2007, 0xFF), (0x2008, 1), (0x2009, 2), (0x200A, 3), (0x200B, 4), (0x200C, 0x55)],
        0x00000000) := by decide

/-- 42_render.md R197, V-R10: the failing pixel's bytes are the platform's, the next is not written. -/
theorem test_bus_error :
    (nextOf (exec .render { inFlightWith 5 0x1000 8 0 (field 2 1 false [36, 0]) with
        busAnswers := [.error ⟨1, 2, 3, 4⟩] })).map (fun s => (s.mem, s.err)) =
      some ([(0x1000, 1), (0x1001, 2), (0x1002, 3), (0x1003, 4)], .bus) := by decide

/-! ### Sound sample states -/

/-- A block with a field, not halted, with no traversal begun, is sound if its data are. -/
theorem sound_of {s : State} (hm : memWf Config.chip s.mem = true)
    (hk : cacheWf Config.chip s.hostCache = true) (hg : gridWf Config.chip s.grid = true)
    (hc : s.cfg = true)
    (hd : legalDims Config.chip (fieldW s) (fieldH s) = true) (hl : LevelsLegal s)
    (hf : s.fatal = false) (he : s.err = .ok) (hi : s.cursor = .idle) : Inv Config.chip s where
  mem := hm
  cache := hk
  grid := hg
  dims := fun _ => hd
  levels := fun _ => hl
  noField := fun h => by simp [hc] at h
  halted := fun h => by simp [hf] at h
  fatalCode := fun h => by simp [he] at h
  idle := fun _ => hi
  stepCursor := fun x y h => by simp [hi] at h
  renderCursor := fun i h => by simp [hi] at h

/-- Grid A with any command in flight, any bus answers and any events. -/
def ready (lit : Bool) (w a0 a1 a2 : Word) (ans : List BusAnswer) (es : List Event) : State :=
  { inFlightWith w a0 a1 a2 (gridA lit) with busAnswers := ans, events := es }

theorem test_ready_sound (lit : Bool) (w a0 a1 a2 : Word) (ans : List BusAnswer)
    (es : List Event) : Inv Config.chip (ready lit w a0 a1 a2 ans es) :=
  sound_of rfl rfl rfl rfl (by decide : legalDims Config.chip 3 2 = true)
    (by cases lit <;> exact (by decide : ∀ i, i < 6 → gridRead (gridA true).grid i ≤ 36))
    rfl rfl rfl

/-- A RENDER of grid A into [0x2000, 0x2018), its checks passed (V-R2). -/
theorem test_ready_render_legal (ans : List BusAnswer) (es : List Event) :
    RenderLegal Config.chip (ready true 5 0x2000 24 0 ans es) := by
  have h : RenderLegal Config.chip (ready true 5 0x2000 24 0 [] []) := by
    constructor <;> decide
  exact h

/-- A RENDER of grid A about to write its last pixel. -/
def atLastPixel (es : List Event) : State :=
  { ready true 5 0x2000 24 0 [] es with cursor := .render 5 }

theorem test_last_pixel_sound (es : List Event) : Inv Config.chip (atLastPixel es) :=
  have h := test_ready_sound true 5 0x2000 24 0 [] es
  { mem := h.mem
    cache := h.cache
    grid := h.grid
    dims := h.dims
    levels := h.levels
    noField := h.noField
    halted := h.halted
    fatalCode := h.fatalCode
    idle := fun hb => nomatch hb
    stepCursor := fun _ _ hs => nomatch hs
    renderCursor := fun _ _ => ⟨rfl, test_ready_render_legal [] es⟩ }

/-- A field with a level above 36 in its first source, and a STEP in flight. -/
def brokenStep : State :=
  { inFlightWith 4 0 0 0 (field 2 2 true [0, 0, 37, 0]) with events := [.engine] }

/-- The state a fault carries. -/
def haltedBy : Result → Option State
  | .next _ => none
  | .fault (.invariantViolation h) => some h
  | .refused _ => none

/-- The machine's step on a state whose next move is `e`. -/
def after (e : Event) (s : State) : Option State := nextOf (step (upTo e s))

/-! ### Witnesses: encoding and the window -/

theorem test_witness_BytesDecodeAsTheirLittleEndianWord :
    ([1, 0, 0] : List Byte).length ≠ 4 ∧ ([1, 0, 0, 0, 0] : List Byte).length ≠ 4 ∧
      Instr.wf .poke = true := by decide

theorem test_witness_EngineStepRunsTheDecodedCommand :
    (ready true 8 3 5 0 [] [.engine]).busy = true ∧
      (ready true 8 3 5 0 [] [.engine]).fatal = false ∧
      decodeWord (ready true 8 3 5 0 [] [.engine]).cmdl = .ok .poke ∧
      (ready true 8 3 5 0 [] [.engine]).events = .engine :: [] ∧
      decodeWord (ready true 8 3 5 0 [] []).cmdl = .ok .poke ∧
      (ready true 8 3 5 0 [] []).events = [] ∧ Config.wf incoherent = true ∧
      Config.wf { Config.chip with maxCells := 0 } = false := by decide

/-- Both outcomes: OP = 8 is performed, OP = 9 and RSV = 1 are not. -/
theorem test_witness_LatchedWordIsPerformedOrIllegal :
    (ready true 8 3 5 0 [] [.engine]).events = .engine :: [] ∧
      (ready true 8 3 5 0 [] [.engine]).busy = true ∧
      (ready true 8 3 5 0 [] [.engine]).fatal = false ∧
      (nextOf (step (ready true 8 3 5 0 [] [.engine]))).map (·.err) = some .ok ∧
      (nextOf (step (ready true 9 3 5 0 [] [.engine]))).map (·.err) = some .illegal ∧
      (nextOf (step (ready true 0x18 3 5 0 [] [.engine]))).map (·.err) = some .illegal := by
  decide

theorem test_witness_StatusWordHasItsFields :
    (upTo (.regRead 4 0x08) halted).events = .regRead 4 0x08 :: [] ∧
      statusWord halted = 0x00000F0E := by decide

/-- One access for each clause, at the last offset; and a read of each register (V-G1 to V-G7). -/
theorem test_witness_WindowAccessRules :
    ¬ (4 = 4 ∧ (0x3E : Offset).toNat % 4 = 0) ∧ ¬ (2 = 4 ∧ (0x3C : Offset).toNat % 4 = 0) ∧
      (4 = 4 ∧ (0x3C : Offset).toNat % 4 = 0 ∧ 0x18 ≤ (0x3C : Offset).toNat) ∧
      (4 = 4 ∧ (0x18 : Offset).toNat % 4 = 0 ∧ 0x18 ≤ (0x18 : Offset).toNat) ∧
      after (.regWrite 4 0x3C 5) (gridA true) = some { gridA true with reply := .done } ∧
      after (.regWrite 4 0x00 5) (gridA true) = some { gridA true with reply := .done } := by
  decide

theorem test_register_reads :
    [0x04, 0x18, 0x1C, 0x20].map (fun off =>
        (after (.regRead 4 off) { gridA true with result := 7 }).map (·.reply)) =
      [some (.word 0), some (.word 7), some (.word 3), some (.word 2)] := by decide

theorem test_witness_ConstantAndReservedRegisters :
    (0x28 ≤ (0x28 : Offset).toNat ∧ (0x28 : Offset).toNat % 4 = 0) ∧
      (0x28 ≤ (0x3C : Offset).toNat ∧ (0x3C : Offset).toNat % 4 = 0) ∧
      after (.regRead 4 0x28) halted = some { halted with reply := .word 0 } ∧
      after (.regRead 4 0x3C) halted = some { halted with reply := .word 0 } := by decide

/-- Each register written and read, an accepted issue, and a move of the engine of each kind. -/
theorem test_witness_ArgRegistersAreTheHosts :
    (after (.regWrite 4 0x0C 5) (gridA true)).map (·.arg0) = some 5 ∧
      (after (.regWrite 4 0x10 5) (gridA true)).map (·.arg1) = some 5 ∧
      (after (.regWrite 4 0x14 5) (gridA true)).map (·.arg2) = some 5 ∧
      (after (.regRead 4 0x14) { gridA true with arg2 := 5 }).map (·.reply) = some (.word 5) ∧
      (after (.regWrite 4 0x04 4) { gridA true with arg2 := 5 }).map (·.argl2) = some 5 ∧
      (nextOf (engineMove Config.chip (ready true 8 3 5 0 [] []))).isSome = true ∧
      (nextOf (advanceMove Config.chip (ready true 5 0x2000 24 0 [] []))).isSome = true := by decide

/-- V-G8 and V-G9. -/
theorem test_witness_StatusWriteClearsOverrun :
    (0x10 : Word).getLsbD 4 = true ∧ (0xEF : Word).getLsbD 4 = false ∧
      (after (.regWrite 4 0x08 0x10) { gridA true with ovr := true }).map (·.ovr) = some false ∧
      (after (.regWrite 4 0x08 0xEF) { gridA true with ovr := true }).map (·.ovr) = some true := by
  decide

/-- An issue dropped by FATAL, dropped by BUSY and accepted, and an end of a command. -/
theorem test_witness_CommandIssue :
    halted.fatal = true ∧
      ((ready true 4 0 0 0 [] []).fatal = false ∧ (ready true 4 0 0 0 [] []).busy = true) ∧
      ((gridA true).fatal = false ∧ (gridA true).busy = false) ∧
      (nextOf (exec .islit (ready true 6 0 0 0 [] []))).map (·.busy) = some false := by decide

/-- Each event that writes OVR, and a host statement that sets it. -/
theorem test_witness_OverrunIsWrittenByItsEventsAlone :
    (after .host { ready true 4 0 0 0 [] [] with host := ⟨[.wr 0x04 (.num 2)], 0, []⟩ }).map
        (·.ovr) = some true ∧
      (after (.regWrite 4 0x04 2) (ready true 4 0 0 0 [] [])).map (·.ovr) = some true ∧
      (after (.regWrite 4 0x04 2) halted).map (·.ovr) = some false ∧
      (after (.regWrite 4 0x08 0x10) { gridA true with ovr := true }).map (·.ovr) = some false ∧
      (after (.reset none) { gridA true with ovr := true }).map (·.ovr) = some false ∧
      (after .engine { ready true 6 0 0 0 [] [] with ovr := true }).map (·.ovr) =
        some true := by decide

/-- The first pieces of a RENDER and of a STEP, and a host's write, leave the command in flight. -/
theorem test_witness_RegistersHoldTheirValuesInFlight :
    (ready true 5 0x2000 24 0 [] [.advance]).busy = true ∧
      (nextOf (step (ready true 5 0x2000 24 0 [] [.advance]))).map (·.busy) = some true ∧
      (nextOf (step (ready true 4 0 0 0 [] [.advance]))).map (·.busy) = some true ∧
      (after (.regWrite 4 0x0C 5) (ready true 4 0 0 0 [] [])).map
        (fun t => (t.busy, t.arg0)) = some (true, 5) ∧
      (after (.memWriteWord 0x20000005 5) (ready true 4 0 0 0 [] [])).map
        (fun t => (t.busy, t.arg2)) = some (true, 5) := by decide

/-- The largest 32-bit value written, the last offset read, a misaligned read, and a `wait` on each
value of BUSY. -/
theorem test_witness_HostStatementsAccessTheWindow :
    ([Stmt.wr 0x3C (.num 0xFFFFFFFF)][0]? = some (.wr 0x3C (.num 0xFFFFFFFF)) ∧
        evalExpr Config.chip [] (.num 0xFFFFFFFF) = ((0xFFFFFFFF : Nat) : Int) ∧
        0xFFFFFFFF < 2 ^ 32) ∧
      (after .host { gridA true with host := ⟨[.wr 0x3C (.num 0xFFFFFFFF)], 0, []⟩ }).map
        (·.host.pc) = some 1 ∧
      (after .host { gridA true with host := ⟨[.rd 0x3C 1], 0, []⟩ }).map
        (fun s => storeGet 1 s.host.names) = some (some 0) ∧
      (after .host { gridA true with host := ⟨[.rd 0x3D 1], 0, []⟩ }).map
        (fun s => (s.host.names, s.reply)) = some ([], .busError) ∧
      (after .host { ready true 4 0 0 0 [] [] with host := ⟨[.wait], 0, []⟩ }).map
        (·.host.pc) = some 0 ∧
      (after .host { gridA true with host := ⟨[.wait], 0, []⟩ }).map (·.host.pc) = some 1 := by
  decide

/-- One statement for each clause: `if s[0] = 1 goto` the label at 0 with s = 1 and with s = 0, a
difference below 0, and a field; then the values of the second half. -/
theorem test_witness_HostControlFlowMakesNoAccess :
    (after .host { gridA true with host := ⟨[.label 9, .wait], 0, []⟩ }).map (·.host.pc) = some 1 ∧
      [(1 : Int), 0].map (fun v => (after .host { gridA true with
          host := ⟨[.label 9, .ifGoto (.eq (.slice (.name 0) 0 0) (.num 1)) 9], 1, [(0, v)]⟩ }).map
        (·.host.pc)) = [some 0, some 2] ∧
      (after .host { gridA true with
          host := ⟨[.assign 3 (.sub (.num 1) (.num 2))], 0, []⟩ }).map (·.host.names) =
        some [(3, -1)] ∧
      (after .host { gridA true with
          host := ⟨[.assign 3 (.slice (.name 0) 11 8)], 0, [(0, 0x302)]⟩ }).map (·.host.names) =
        some [(0, 0x302), (3, 3)] ∧
      (∀ q, q < 2 → [Stmt.label 9, .wait][q]? = some (.label 9) → q = 0) ∧
      storeGet 3 [((3 : Nat), (-1 : Int))] = some (-1) ∧
      evalExpr Config.chip [(3, -1)] (.mul (.name 3) (.num 2)) = -2 ∧
      evalCond Config.chip [(3, -1)] (.ne (.name 3) (.num 1)) = true ∧
      evalExpr Config.chip [] (.num 7) = ((7 : Nat) : Int) ∧
      evalCond Config.chip [] (.bit (.num 6) 1) = true ∧
      evalCond Config.chip [] (.bit (.num 6) 0) = false := by decide

/-- Grid A with word 2 of memory written and an older copy of it in the host-side cache. -/
def withCopy : State :=
  { gridA true with mem := [(8, 1), (9, 2), (10, 3), (11, 4)], hostCache := [(2, 0x44332211)] }

/-- The premises at the edges of the address space and of a device; then bytes and words of plain
memory, with the copy seen (a platform that is not coherent) and not. -/
theorem test_witness_HostAccessesByAddress :
    (Config.wf incoherent = true ∧ 0xFFFFFFFF < 2 ^ incoherent.addrBits ∧
        outsidePlainMemory incoherent 0xFFFFFFFF 1 = false ∧
        4 * 0x3FFFFFFF + 4 ≤ 2 ^ incoherent.addrBits ∧
        outsidePlainMemory incoherent (4 * 0x3FFFFFFF) 4 = false) ∧
      (after (.memRead 9) withCopy).map (·.reply) = some (.byte 2) ∧
      (nextOf (stepUnder incoherent (upTo (.memRead 9) withCopy))).map (·.reply) =
        some (.byte 0x22) ∧
      (after (.memReadWord 2) withCopy).map (·.reply) = some (.word 0x04030201) ∧
      (nextOf (stepUnder incoherent (upTo (.memReadWord 2) withCopy))).map (·.reply) =
        some (.word 0x44332211) ∧
      (after (.memWrite 9 7) withCopy).map (fun s => (s.mem, s.hostCache)) =
        some ([(8, 1), (9, 7), (10, 3), (11, 4)], [(2, 0x44330711)]) ∧
      (after (.memWrite 0xFFFFFFFF 7) (gridA true)).map (·.mem) = some [(0xFFFFFFFF, 7)] := by
  decide

/-- A word write with its copy, a fill, an invalidation by one byte of a word, the register window,
an address outside of the address space, and a word that shares two bytes with a device. -/
theorem test_witness_HostAccessesByAddress_words :
    (after (.memWriteWord 2 0x08070605) withCopy).map (fun s => (s.mem, s.hostCache)) =
        some ([(8, 5), (9, 6), (10, 7), (11, 8)], [(2, 0x08070605)]) ∧
      (after (.cacheFill 2) withCopy).map (·.hostCache) = some [(2, 0x04030201)] ∧
      (after (.invalidate 11 1) withCopy).map (·.hostCache) = some [] ∧
      (after (.invalidate 11 0) withCopy).map (·.hostCache) = some [(2, 0x44332211)] ∧
      (4 * 0x20000007 = Config.chip.regBase + (0x1C : Offset).toNat ∧
        (after (.memReadWord 0x20000007) (gridA true)).map (·.reply) = some (.word 3)) ∧
      (after (.memWrite 0x8000000C 1) (gridA true)).map (·.reply) = some .busError ∧
      (after (.memRead (2 ^ 32)) (gridA true)).map (·.reply) = some .busError ∧
      (Config.wf withDevice = true ∧ (0x9002, 2) ∈ withDevice.devices ∧
        0x9002 < 4 * 0x2400 + 4 ∧ 4 * 0x2400 + 4 ≤ withDevice.regBase ∧
        (nextOf (stepUnder withDevice (upTo (.memReadWord 0x2400) (gridA true)))).map (·.reply) =
          some .device) := by decide

/-- 20_memory.md R65, R78: over the write of pixel 5, at 0x2014, a word read is old or new, whole:
stale where the platform is not coherent and the copy was taken before, new after an invalidation. -/
theorem test_word_read_is_whole :
    [[.cacheFill 0x805, .advance, .memReadWord 0x805],
      [.cacheFill 0x805, .advance, .invalidate 0x2015 1, .memReadWord 0x805]].map (fun es =>
        (nextOf (es.foldl (fun r e => match r with
            | .next s => stepUnder incoherent (upTo e s)
            | r => r) (.next { atLastPixel [] with
              mem := [(0x2014, 1), (0x2015, 2), (0x2016, 3), (0x2017, 4)] }))).map (·.reply)) =
      [some (.word 0x04030201), some (.word 0xFFFFFFFF)] := by decide

/-! ### Witnesses: the lifecycle commands and cell access -/

/-- Legal at 1×1 and at W*H = MAX_CELLS (V-N4), DIM on each ground (V-N2, V-N3, V-N5). -/
theorem test_witness_NewBuildsAZeroedField :
    (1 ≤ (1 : Word).toNat ∧ (1 : Word).toNat * (1 : Word).toNat ≤ Config.chip.maxCells) ∧
      (1 ≤ (256 : Word).toNat ∧
        (256 : Word).toNat * (256 : Word).toNat ≤ Config.chip.maxCells) ∧
      statusAfter (exec .new (inFlightWith 1 0 4 0 State.reset)) = some 0x00000300 ∧
      statusAfter (exec .new (inFlightWith 1 4 0 0 State.reset)) = some 0x00000300 ∧
      Config.chip.maxCells < (256 : Word).toNat * (257 : Word).toNat := by decide

theorem test_witness_IgniteLightsTheBottomRow :
    (gridA false).cfg = true ∧ State.reset.cfg = false ∧
      cellsAfter (exec .ignite (field 3 1 false [])) = some [36, 36, 36] := by decide

theorem test_witness_IgniteIsIdempotent :
    Inv Config.chip (ready true 2 0 0 0 [] []) ∧ (ready true 2 0 0 0 [] []).cfg = true ∧
      (nextOf (exec .ignite (ready true 2 0 0 0 [] []))).isSome = true :=
  ⟨test_ready_sound .., rfl, by decide⟩

theorem test_witness_NewThenIgniteLightsOneRow :
    1 ≤ (inFlightWith 1 3 2 0 State.reset).argl0.toNat ∧
      1 ≤ (inFlightWith 1 3 2 0 State.reset).argl1.toNat ∧
      (inFlightWith 1 3 2 0 State.reset).argl0.toNat *
        (inFlightWith 1 3 2 0 State.reset).argl1.toNat ≤ Config.chip.maxCells := by decide

/-- With and without a field: EXTINGUISH, also after IGNITE, ISLIT, the toggle, PEEK and POKE. -/
theorem test_witness_commands_of_a_field :
    (gridA true).cfg = true ∧ (gridA false).cfg = true ∧ State.reset.cfg = false ∧
      (nextOf (exec .ignite (gridA false))).map (·.lit) = some true := by decide

/-- The last cell, the first index past it (V-P3, V-P4), and a sound state. -/
theorem test_witness_PeekReadsOneCell :
    ((5 : Word).toNat < (gridA true).width.toNat * (gridA true).height.toNat) ∧
      ((gridA true).width.toNat * (gridA true).height.toNat ≤ (6 : Word).toNat) ∧
      Inv Config.chip (ready true 7 5 0 0 [] []) :=
  ⟨by decide, by decide, test_ready_sound ..⟩

/-- The largest legal value and the first illegal one (V-P7, V-P8), and V-P10. -/
theorem test_witness_PokeWritesOneCell :
    cellsAfter (exec .poke (inFlightWith 8 3 36 0 (field 2 2 false []))) = some [0, 0, 0, 36] ∧
      statusAfter (exec .poke (inFlightWith 8 3 37 0 (field 2 2 false []))) = some 0x00000802 ∧
      statusAfter (exec .poke (inFlightWith 8 4 1 0 (field 2 2 false []))) = some 0x00000802 := by
  decide

/-- The last cell of grid A, from a quiescent block. -/
theorem test_witness_PseudoPeekBindsTheCellsLevel :
    let s := { gridA true with host := ⟨pseudoPeek (.num 5) 1, 0, []⟩ }
    Inv Config.chip s ∧ s.events = [] ∧ s.busy = false ∧ s.fatal = false ∧ s.cfg = true ∧
      s.host.program = pseudoPeek (.num 5) 1 ∧ s.host.pc = 0 ∧ 5 < 2 ^ 32 ∧
      5 < s.width.toNat * s.height.toNat :=
  ⟨sound_of rfl rfl rfl rfl (by decide)
      (by exact (by decide : ∀ i, i < 6 → gridRead (gridA true).grid i ≤ 36)) rfl rfl rfl,
    by decide⟩

/-! ### Witnesses: STEP -/

theorem test_witness_StepCompletesAndKeepsTheRest :
    Inv Config.chip (ready true 4 0 0 0 [] []) ∧ (ready true 4 0 0 0 [] []).cfg = true :=
  ⟨test_ready_sound .., rfl⟩

/-- The first and the last source of a 3×2 field, at the largest drift and row count; and the least
width of the index arithmetic. -/
theorem test_witness_DestinationHasItsSignedForm :
    (Config.wf Config.chip = true ∧ 1 ≤ 3 ∧ 3 * 2 ≤ Config.chip.maxCells ∧ 3 ≤ 3 ∧ 3 ≤ 3 * 2 - 1) ∧
      clampDest 5 (wrappedDest Config.chip 3 3 3 3) = 5 ∧
      (3 ≤ 5 ∧ 5 ≤ 3 * 2 - 1) ∧ clampDest 5 (wrappedDest Config.chip 3 5 0 1) = 3 ∧
      Config.wf { Config.chip with idxBits := 18 } = true ∧
      Inv Config.chip (ready true 4 0 0 0 [] []) :=
  ⟨by decide, by decide, by decide, by decide, by decide, test_ready_sound ..⟩

theorem test_witness_StepRefinesTheReferenceTick :
    Config.wf Config.chip = true ∧ Inv Config.chip (ready false 4 0 0 0 [] []) ∧
      (ready false 4 0 0 0 [] []).cfg = true ∧ (ready false 4 0 0 0 [] []).cursor = .idle :=
  ⟨rfl, test_ready_sound .., rfl, rfl⟩

theorem test_witness_ZeroSourceClearsTheCellAbove :
    1 ≤ 1 ∧ gridRead (field 3 2 true [5, 5, 5, 0, 36, 0]).grid
      (cellAt (field 3 2 true [5, 5, 5, 0, 36, 0]) 2 1) = 0 := by decide

theorem test_witness_LitSourceMovesOneRowUp :
    Inv Config.chip (ready true 4 0 0 0 [] []) ∧
      (ready true 4 0 0 0 [] []).cfg = true ∧ (ready true 4 0 0 0 [] []).lit = true ∧
      2 < fieldW (ready true 4 0 0 0 [] []) ∧ 1 ≤ 1 ∧
      1 < fieldH (ready true 4 0 0 0 [] []) ∧
      gridRead (ready true 4 0 0 0 [] []).grid
        (cellAt (ready true 4 0 0 0 [] []) 2 1) ≠ 0 :=
  ⟨test_ready_sound .., by decide⟩

theorem test_witness_UnlitSourceMovesRand2RowsUp :
    Inv Config.chip (ready false 4 0 0 0 [] []) ∧
      (ready false 4 0 0 0 [] []).cfg = true ∧
      (ready false 4 0 0 0 [] []).lit = false ∧
      2 < fieldW (ready false 4 0 0 0 [] []) ∧ 1 ≤ 1 ∧
      1 < fieldH (ready false 4 0 0 0 [] []) ∧
      gridRead (ready false 4 0 0 0 [] []).grid
        (cellAt (ready false 4 0 0 0 [] []) 2 1) ≠ 0 :=
  ⟨test_ready_sound .., by decide⟩

/-- V-S15's field, and the least and the largest last index. -/
theorem test_witness_DegenerateSizes :
    ((field 3 1 true [36, 36, 36]).cfg = true ∧ (field 3 1 true [36, 36, 36]).height.toNat = 1 ∧
        (field 3 1 true [36, 36, 36]).cursor = .idle) ∧
      (0 ≤ 0 ∧ 0 < Config.chip.maxCells) ∧ (65535 ≤ 65535 ∧ 65535 < Config.chip.maxCells) := by
  decide

/-- A field of zeros, and a 1×2 field with its largest level. -/
theorem test_witness_NoStepRaisesTheLargestLevel :
    (Inv Config.chip (field 2 2 false []) ∧ (field 2 2 false []).cfg = true ∧
        (∀ i, i < (field 2 2 false []).width.toNat * (field 2 2 false []).height.toNat →
          gridRead (field 2 2 false []).grid i = 0)) ∧
      Inv Config.chip (field 1 2 true [0, 36]) ∧
      (nextOf (exec .step (field 1 2 true [0, 36]))).isSome = true ∧
      (∀ i, i < 2 → gridRead (field 1 2 true [0, 36]).grid i ≤ 36) :=
  ⟨⟨sound_of rfl rfl rfl rfl (by decide) (fun _ _ => Nat.zero_le 36) rfl rfl rfl, rfl,
      fun _ _ => rfl⟩,
    sound_of rfl rfl rfl rfl (by decide)
      (by exact (by decide : ∀ i, i < 2 → gridRead (field 1 2 true [0, 36]).grid i ≤ 36))
      rfl rfl rfl,
    rfl, by decide⟩

theorem test_witness_DrawsAreQuantizedRngWords : 0xFFFFFFFF < 2 ^ 32 := by decide

/-- STEP's first source; its second one, after a write that is kept; a piece at the last source; and
RENDER's pixel 2 after two that are kept. -/
theorem test_witness_IllegalLevelsHaltTheBlock :
    (remainingSources brokenStep = [] ++ (0, 1) :: [(1, 1)] ∧
        visitAll Config.chip [] brokenStep = .goOn brokenStep ∧
        36 < gridRead brokenStep.grid (1 * brokenStep.width.toNat + 0)) ∧
      (haltedBy (performCommand (drawing [0]) .step (field 2 2 true [0, 0, 36, 37]))).map
        (fun h => (h.grid, h.fatal, h.err, h.busy)) =
        some ([(1, 36), (2, 36), (3, 37)], true, .fatal, false) ∧
      (1 < (field 2 2 true [0, 5, 0, 37]).width.toNat ∧
        (haltedBy (step { inFlightWith 4 0 0 0 (field 2 2 true [0, 5, 0, 37]) with
          cursor := .step 1 1, events := [.advance] })).map (·.grid) =
          some [(1, 5), (3, 37)]) ∧
      RenderLegal Config.chip (inFlightWith 5 0x1000 16 0 (field 2 2 false [36, 0, 40, 1])) ∧
      (haltedBy (exec .render (inFlightWith 5 0x1000 16 0 (field 2 2 false [36, 0, 40, 1])))).map
        (·.mem) =
        some [(0x1000, 0xFF), (0x1001, 0xFF), (0x1002, 0xFF), (0x1003, 0xFF),
          (0x1004, 0x07), (0x1005, 0x07), (0x1006, 0x07), (0x1007, 0xFF)] :=
  ⟨⟨by decide, rfl, by decide⟩, by decide, by decide, ⟨by decide, by decide⟩, by decide⟩

/-! ### Witnesses: RENDER -/

theorem test_witness_RenderWritesEveryPixel :
    Inv Config.chip (ready true 5 0x2000 24 0 [.ok] []) ∧
      (ready true 5 0x2000 24 0 [.ok] []).cfg = true ∧
      (ready true 5 0x2000 24 0 [.ok] []).cursor = .idle ∧
      RenderLegal Config.chip (ready true 5 0x2000 24 0 [.ok] []) ∧
      (∀ a, a ∈ [BusAnswer.ok].take 6 → a = .ok) :=
  ⟨test_ready_sound .., rfl, rfl, test_ready_render_legal .., by decide⟩

theorem test_witness_RenderWritesInAscendingOrder :
    Inv Config.chip (ready true 5 0x2000 24 0 [] []) ∧
      (ready true 5 0x2000 24 0 [] []).cfg = true ∧
      (ready true 5 0x2000 24 0 [] []).cursor = .idle ∧
      RenderLegal Config.chip (ready true 5 0x2000 24 0 [] []) ∧
      (nextOf (exec .render (ready true 5 0x2000 24 0 [] []))).map (·.err) = some .ok :=
  ⟨test_ready_sound .., rfl, rfl, test_ready_render_legal .., by decide⟩

/-- V-R4, V-R5 and V-R7, and V-R8's buffer, which is legal. -/
theorem test_witness_RenderChecksItsBufferInOrder :
    State.reset.cfg = false ∧ (field 2 2 false []).cfg = true ∧
      renderCheck Config.chip (inFlightWith 5 0x1000 17 0 (field 2 2 false [])) = some .len ∧
      renderCheck Config.chip (inFlightWith 5 0x1002 16 0 (field 2 2 false [])) = some .align ∧
      renderCheck Config.chip (inFlightWith 5 0xFFFFFFF4 16 0 (field 2 2 false [])) = some .addr ∧
      renderCheck Config.chip (inFlightWith 5 0xFFFFFFF0 16 0 (field 2 2 false [])) = none := by
  decide

/-- The last byte of the window, and the last byte of a device, each in the buffer's last pixel. -/
theorem test_witness_RenderOutsidePlainMemoryIsRefused :
    let s := ready true 5 0x80000028 24 0 [] []
    let u := ready true 5 0x2000 24 0 [] []
    let c := { Config.chip with devices := [(0x2014, 4)] }
    (s.cfg = true ∧ renderCheck Config.chip s = none ∧ s.argl0.toNat ≤ 0x8000003F ∧
        0x8000003F < s.argl0.toNat + s.argl1.toNat ∧ Config.chip.regBase ≤ 0x8000003F ∧
        0x8000003F < Config.chip.regBase + 64) ∧
      (u.cfg = true ∧ renderCheck c u = none ∧ u.argl0.toNat ≤ 0x2017 ∧
        0x2017 < u.argl0.toNat + u.argl1.toNat ∧
        ∃ d, d ∈ c.devices ∧ d.1 ≤ 0x2017 ∧ 0x2017 < d.1 + d.2) := by decide

/-- V-R10, on grid A: the bus fails pixel 2. -/
theorem test_witness_BusErrorStopsTheRender :
    Inv Config.chip (ready true 5 0x2000 24 0 [.ok, .ok, .error ⟨1, 2, 3, 4⟩] []) ∧
      RenderLegal Config.chip (ready true 5 0x2000 24 0 [.ok, .ok, .error ⟨1, 2, 3, 4⟩] []) ∧
      2 < (gridA true).width.toNat * (gridA true).height.toNat ∧
      [BusAnswer.ok, .ok, .error ⟨1, 2, 3, 4⟩].take (2 + 1) =
        List.replicate 2 .ok ++ [.error ⟨1, 2, 3, 4⟩] :=
  ⟨test_ready_sound .., test_ready_render_legal .., by decide⟩

/-- A race on pixel 1 of grid A, and the piece that writes the last pixel. -/
theorem test_witness_RenderAgainstTheHostsAccesses :
    (Inv Config.chip (ready true 5 0x2000 24 0 [.ok, .raced ⟨1, 2, 3, 4⟩] []) ∧
        RenderLegal Config.chip (ready true 5 0x2000 24 0 [.ok, .raced ⟨1, 2, 3, 4⟩] []) ∧
        (∀ a left, a ∈ [BusAnswer.ok, .raced ⟨1, 2, 3, 4⟩] → a ≠ .error left)) ∧
      (nextOf (exec .render (ready true 5 0x2000 24 0 [.ok, .raced ⟨1, 2, 3, 4⟩] []))).map
        (memReadWord ·.mem 0x2004) = some (some 0x04030201) ∧
      (decodeWord (atLastPixel [.advance]).cmdl = .ok .render ∧
        (atLastPixel [.advance]).busAnswers.headD .ok = .ok ∧
        (nextOf (step (atLastPixel [.advance]))).map (memReadWord ·.mem (4 * 0x805)) =
          some (some 0xFFFFFFFF)) :=
  ⟨⟨test_ready_sound .., test_ready_render_legal .., by rintro a left h rfl; simp at h⟩,
    by decide, by decide⟩

theorem test_witness_UniformFieldRendersUniformly :
    let s := inFlightWith 5 0x1000 16 0 (field 2 2 false [36, 36, 36, 36])
    Inv Config.chip s ∧ s.cfg = true ∧ s.cursor = .idle ∧
      (∀ i, i < s.width.toNat * s.height.toNat → gridRead s.grid i = 36) ∧
      colorOf Config.chip 36 = some ⟨0xFF, 0xFF, 0xFF, 0xFF⟩ ∧
      (∀ a, a ∈ s.busAnswers → a = .ok) ∧
      (nextOf (exec .render s)).map (·.err) = some .ok :=
  ⟨sound_of rfl rfl rfl rfl (by decide)
      (by exact (by decide :
        ∀ i, i < 4 → gridRead (field 2 2 false [36, 36, 36, 36]).grid i ≤ 36))
      rfl rfl rfl,
    by decide⟩

/-- NEW(3, 2), IGNITE and V-R2's RENDER. -/
theorem test_witness_FrameAfterIgnite :
    ((nextOf (exec .new (inFlightWith 1 3 2 0 State.reset))).bind fun t =>
      (nextOf (exec .ignite t)).bind fun u =>
        (nextOf (exec .render { u with argl0 := 0x2000, argl1 := 24 })).map fun v =>
          (t.err, v.err, u.busAnswers)) = some (.ok, .ok, []) := by decide

/-! ### Witnesses: errors, the fatal state, reset and the whole machine -/

/-- A command that ends with an error other than BUS, and one that ends with BUS. -/
theorem test_witness_FailedCommandsChangeOnlyErr :
    ((ready true 1 0 4 0 [] [.engine]).busy = true ∧
        (ready true 1 0 4 0 [] [.engine]).fatal = false ∧
        (nextOf (step (ready true 1 0 4 0 [] [.engine]))).map (·.err) = some .dim) ∧
      (nextOf (step (ready true 5 0x2000 24 0 [.error ⟨1, 2, 3, 4⟩] [.engine]))).map (·.err) =
        some .bus := by decide

theorem test_witness_NoFieldNoCommand : Instr.poke ≠ .new ∧ State.reset.cfg = false := by decide

/-- ISLIT, PEEK and reset each change RESULT. -/
theorem test_witness_OnlyIslitAndPeekWriteResult :
    (nextOf (step (ready true 6 0 0 0 [] [.engine]))).map (·.result) = some 1 ∧
      (nextOf (step (ready true 7 5 0 0 [] [.engine]))).map (·.result) = some 36 ∧
      (ready true 6 0 0 0 [] [.engine]).result = 0 ∧
      (after (.reset none) { gridA true with result := 5 }).map (·.result) = some 0 := by decide

/-- IGNITE sets `lit`; EXTINGUISH, NEW and reset clear it. -/
theorem test_witness_OnlyTheLifecycleWritesLit :
    (nextOf (step (ready false 2 0 0 0 [] [.engine]))).map (·.lit) = some true ∧
      (nextOf (step (ready true 3 0 0 0 [] [.engine]))).map (·.lit) = some false ∧
      (nextOf (step (ready true 1 2 2 0 [] [.engine]))).map (·.lit) = some false ∧
      (after (.reset none) (gridA true)).map (·.lit) = some false := by decide

/-- NEW sets CFG and the dimensions; reset clears them. -/
theorem test_witness_OnlyNewAndResetWriteTheDimensionsAndCfg :
    (after .engine (inFlightWith 1 2 3 0 State.reset)).map
        (fun t => (t.cfg, t.width, t.height)) = some (true, 2, 3) ∧
      (after (.reset none) (gridA true)).map (fun t => (t.cfg, t.width, t.height)) =
        some (false, 0, 0) := by decide

/-- NEW, from an RNG state other than the seed's, and reset; POKE of the last cell, IGNITE, NEW and
reset on the grid. -/
theorem test_witness_OnlyTheirCommandsWriteTheGridAndTheRng :
    (nextOf (step (upTo .engine { inFlightWith 1 2 2 9 State.reset with
        rng := Config.freeSeed 9 + 1 }))).map (·.rng) = some (Config.freeSeed 9) ∧
      Config.freeSeed 9 ≠ Config.freeSeed 9 + 1 ∧
      (after (.reset none) { gridA true with rng := 5 }).map (·.rng) = some 0 ∧
      (Inv Config.chip (ready true 8 5 7 0 [] [.engine]) ∧
        (nextOf (step (ready true 8 5 7 0 [] [.engine]))).map (gridRead ·.grid 5) = some 7) ∧
      (Inv Config.chip (ready true 1 2 2 0 [] [.engine]) ∧
        (nextOf (step (ready true 1 2 2 0 [] [.engine]))).map (gridRead ·.grid 3) = some 0) ∧
      gridRead (gridA true).grid 5 = 36 ∧ gridRead (gridA true).grid 3 = 36 :=
  ⟨rfl, Nat.ne_of_lt (Nat.lt_succ_self _), rfl, ⟨test_ready_sound .., by decide⟩,
    ⟨test_ready_sound .., by decide⟩, by decide, by decide⟩

/-- The last byte of the buffer, written by a RENDER and by a reset that tears its last pixel. -/
theorem test_witness_OnlyRenderWritesHostMemory :
    Inv Config.chip (ready true 5 0x2000 24 0 [] [.engine]) ∧
      (∀ a b rest, (ready true 5 0x2000 24 0 [] [.engine]).events ≠ .memWrite a b :: rest) ∧
      (∀ k v rest, (ready true 5 0x2000 24 0 [] [.engine]).events ≠ .memWriteWord k v :: rest) ∧
      (nextOf (step (ready true 5 0x2000 24 0 [] [.engine]))).map (memRead ·.mem 0x2017) =
        some (some 0xFF) ∧
      memRead (ready true 5 0x2000 24 0 [] [.engine]).mem 0x2017 = none ∧
      Inv Config.chip (atLastPixel [.reset (some ⟨1, 2, 3, 4⟩)]) ∧
      (nextOf (step (atLastPixel [.reset (some ⟨1, 2, 3, 4⟩)]))).map (memRead ·.mem 0x2017) =
        some (some 4) :=
  ⟨test_ready_sound .., by simp [ready], by simp [ready], by decide, by decide,
    test_last_pixel_sound _, by decide⟩

/-- A read of a halted block, a reset of it, and a fault. -/
theorem test_witness_FatalIsStickyUntilReset :
    (after (.regRead 4 0x08) halted).map (·.fatal) = some true ∧
      (after (.reset none) halted).map (·.fatal) = some false ∧
      (haltedBy (step brokenStep)).map (·.fatal) = some true := by decide

theorem test_witness_HaltedBlockDropsCommands :
    halted.fatal = true ∧ (0x3C : Offset).toNat % 4 = 0 ∧ (0x10 : Word).getLsbD 4 = true ∧
      (after (.regWrite 4 0x0C 5) halted).map (·.arg0) = some 5 ∧
      (after (.regWrite 4 0x10 5) halted).map (·.arg1) = some 5 ∧
      (after (.regWrite 4 0x14 5) halted).map (·.arg2) = some 5 := by decide

/-- No pixel is being written: out of flight, during a STEP, and after a RENDER's last pixel. -/
theorem test_witness_ResetRestoresTheResetTable :
    (upTo (.reset none) halted).events = .reset none :: [] ∧
      pixelInFlight (upTo (.reset none) halted) = none ∧
      pixelInFlight { ready true 4 0 0 0 [] [] with cursor := .step 0 1 } = none ∧
      pixelInFlight { ready true 5 0x2000 24 0 [] [] with cursor := .render 6 } = none := by decide

/-- The last pixel, with its bytes torn and with its bytes kept. -/
theorem test_witness_ResetDuringRenderTearsOnePixel :
    (atLastPixel [.reset (some ⟨1, 2, 3, 4⟩)]).cursor = .render 5 ∧
      5 < (atLastPixel []).width.toNat * (atLastPixel []).height.toNat ∧
      (after (.reset none) (atLastPixel [])).map (·.mem) = some [] := by decide

theorem test_witness_EveryStepKeepsTheInvariant :
    Inv Config.chip (ready true 2 0 0 0 [] [.engine]) ∧
      (nextOf (step (ready true 2 0 0 0 [] [.engine]))).isSome = true :=
  ⟨test_ready_sound .., by decide⟩

theorem test_witness_SoundStatesNeverHalt : Inv Config.chip (atLastPixel [.advance]) :=
  test_last_pixel_sound _

/-- A piece of a STEP and a piece of a RENDER that leave the command in flight. -/
theorem test_witness_PiecesMakeTheWholeCommand :
    (nextOf (advanceMove Config.chip (ready true 4 0 0 0 [] []))).map (·.busy) = some true ∧
      (nextOf (advanceMove Config.chip (ready true 5 0x2000 24 0 [] []))).map (·.busy) = some true ∧
      (nextOf (advanceMove Config.chip (atLastPixel []))).map (·.busy) = some true := by decide

end Sys2Proof.Tests
end

/-! A piece of a STEP or of a RENDER against the whole command (00_scope.md R6; 10_state.md R48).
The cursor is read only to find the work left to do: the visits and the pixels carry it along, and
the end of a command, on success or on an error, erases it. -/

namespace Sys2Proof.Machine

/-! ### A state at another cursor -/

/-- The state with its traversal at another position. -/
def atCursor (k : Cursor) (s : State) : State := { s with cursor := k }

section Fields
variable (k : Cursor) (s : State)

@[simp] theorem atCursor_cfg : (atCursor k s).cfg = s.cfg := rfl
@[simp] theorem atCursor_lit : (atCursor k s).lit = s.lit := rfl
@[simp] theorem atCursor_grid : (atCursor k s).grid = s.grid := rfl
@[simp] theorem fieldW_atCursor : fieldW (atCursor k s) = fieldW s := rfl
@[simp] theorem fieldCells_atCursor : fieldCells (atCursor k s) = fieldCells s := rfl
@[simp] theorem cellAt_atCursor (x y : Nat) : cellAt (atCursor k s) x y = cellAt s x y := rfl
@[simp] theorem renderBase_atCursor : renderBase (atCursor k s) = renderBase s := rfl
@[simp] theorem renderLegal_atCursor (c : Config) :
    RenderLegal c (atCursor k s) ↔ RenderLegal c s := Iff.rfl

/-! The ends of a command erase the cursor. -/

@[simp] theorem raiseError_atCursor (code : Completion) :
    raiseError code (atCursor k s) = raiseError code s := rfl
@[simp] theorem raiseFatal_atCursor : raiseFatal (atCursor k s) = raiseFatal s := rfl

/-! A draw and a pixel write carry it along. -/

@[simp] theorem drawDrift_atCursor (c : Config) :
    drawDrift c (atCursor k s) = ((drawDrift c s).1, atCursor k (drawDrift c s).2) := rfl
@[simp] theorem busWritePixel_atCursor (a : Nat) (p : Pixel) :
    busWritePixel a p (atCursor k s) =
      (atCursor k (busWritePixel a p s).1, (busWritePixel a p s).2) := rfl

end Fields

/-! ### A traversal from another cursor -/

/-- The same progress, with the cursor elsewhere if the traversal goes on. -/
def Progress.atCursor (k : Cursor) : Progress → Progress
  | .goOn s => .goOn (Machine.atCursor k s)
  | .ended r => .ended r

/-- What a STEP or a RENDER answers once its traversal is through. -/
def Progress.answer : Progress → Result
  | .goOn s => completeOk s
  | .ended r => r

@[simp] theorem Progress.answer_atCursor (k : Cursor) (p : Progress) :
    (p.atCursor k).answer = p.answer := by
  cases p <;> rfl

theorem drawRows_atCursor (c : Config) (k : Cursor) (s : State) :
    drawRows c (atCursor k s) = ((drawRows c s).1, atCursor k (drawRows c s).2) := by
  cases hl : s.lit <;> simp [drawRows, hl]

theorem spreadHeat_atCursor (c : Config) (k : Cursor) (src v : Nat) (s : State) :
    spreadHeat c src v (atCursor k s) = atCursor k (spreadHeat c src v s) := by
  simp only [spreadHeat, drawDrift_atCursor, drawRows_atCursor]
  rfl

theorem visitSource_atCursor (c : Config) (k : Cursor) (x y : Nat) (s : State) :
    visitSource c x y (atCursor k s) = (visitSource c x y s).atCursor k := by
  simp only [visitSource, spreadHeat_atCursor, atCursor_grid, cellAt_atCursor, raiseFatal_atCursor]
  split_ifs <;> rfl

theorem visitAll_atCursor (c : Config) (k : Cursor) (ps : List (Nat × Nat)) (s : State) :
    visitAll c ps (atCursor k s) = (visitAll c ps s).atCursor k := by
  induction ps generalizing s with
  | nil => rfl
  | cons p ps ih =>
    simp only [visitAll, visitSource_atCursor]
    cases visitSource c p.1 p.2 s with
    | goOn t => exact ih t
    | ended r => rfl

theorem renderPixel_atCursor (c : Config) (k : Cursor) (i : Nat) (s : State) :
    renderPixel c i (atCursor k s) = (renderPixel c i s).atCursor k := by
  simp only [renderPixel, atCursor_grid, renderBase_atCursor, busWritePixel_atCursor,
    raiseError_atCursor, raiseFatal_atCursor]
  cases colorOf c (gridRead s.grid i) with
  | none => rfl
  | some p => dsimp only; rw [apply_ite (Progress.atCursor k)]; rfl

theorem renderPixels_atCursor (c : Config) (k : Cursor) (n i : Nat) (s : State) :
    renderPixels c n i (atCursor k s) = (renderPixels c n i s).atCursor k := by
  induction n generalizing i s with
  | zero => rfl
  | succ n ih =>
    simp only [renderPixels, renderPixel_atCursor]
    cases renderPixel c i s with
    | goOn t => exact ih (i + 1) t
    | ended r => rfl

/-! ### The commands past their checks -/

theorem stepCommand_of_field (c : Config) {s : State} (hc : s.cfg = true) :
    stepCommand c s = (visitAll c (remainingSources s) s).answer := by
  simp only [stepCommand, needsField, hc, if_true]
  cases visitAll c (remainingSources s) s <;> rfl

theorem renderCommand_of_legal {c : Config} {s : State} (hc : s.cfg = true)
    (hl : RenderLegal c s) :
    renderCommand c s =
      (renderPixels c (fieldCells s - renderPosition s) (renderPosition s) s).answer := by
  obtain ⟨hcheck, hplain⟩ := hl
  simp only [renderCommand, renderGuard, needsField, hc, hcheck, hplain, if_true]
  cases renderPixels c (fieldCells s - renderPosition s) (renderPosition s) s <;> rfl

/-- The engine answers the same from two states with the same command in flight if the command
does. -/
theorem engineMove_congr {c : Config} {i : Instr} {s u : State} (hf : inFlight s = true)
    (hd : decodeWord s.cmdl = .ok i) (hfu : inFlight u = inFlight s) (hcmd : u.cmdl = s.cmdl)
    (h : performCommand c i u = performCommand c i s) : engineMove c u = engineMove c s := by
  simp [engineMove, hfu, hcmd, hf, hd, h]

/-- The engine ends what is in flight: a state it answers with BUSY 1 is the one it had. -/
theorem eq_of_engineMove_busy {c : Config} {s t : State} (h : engineMove c s = .next t)
    (hb : t.busy = true) : t = s := by
  rcases engineMove_cases c s with ⟨_, e⟩ | ⟨_, i, _, e⟩ | ⟨_, _, e⟩ <;> rw [e] at h
  · cases h; rfl
  · obtain ⟨ht, _⟩ := performCommand_next h
    rw [ht] at hb
    cases hb
  · cases h; cases hb

/-! ### One piece, then the rest -/

/-- After the visit of the first source left, the rest are left. -/
theorem remainingSources_of_visit {c : Config} {s t : State} {p : Nat × Nat}
    {ps : List (Nat × Nat)} (hr : remainingSources s = p :: ps)
    (hv : visitSource c p.1 p.2 s = .goOn t) :
    remainingSources
      (atCursor (.step (nextSource (fieldH s) p).1 (nextSource (fieldH s) p).2) t) = ps := by
  rw [visitSource_frame hv]
  exact sweepFrom_next hr

/-- The visit of the first source left, then the STEP from the next position. -/
theorem stepCommand_of_visit {c : Config} {s t : State} {p : Nat × Nat} {ps : List (Nat × Nat)}
    (hc : s.cfg = true) (hr : remainingSources s = p :: ps)
    (hv : visitSource c p.1 p.2 s = .goOn t) :
    stepCommand c
        (atCursor (.step (nextSource (fieldH s) p).1 (nextSource (fieldH s) p).2) t) =
      stepCommand c s := by
  have hcfg : t.cfg = true := by rw [visitSource_frame hv]; exact hc
  calc stepCommand c (atCursor _ t)
      = (visitAll c ps t).answer := by
        rw [stepCommand_of_field c (by simpa using hcfg), remainingSources_of_visit hr hv,
          visitAll_atCursor, Progress.answer_atCursor]
    _ = (visitAll c (p :: ps) s).answer := by simp only [visitAll, hv]
    _ = stepCommand c s := by rw [stepCommand_of_field c hc, hr]

/-- The checks of a RENDER, then the RENDER from pixel 0. -/
theorem renderCommand_of_checks {c : Config} {s : State} (hc : s.cfg = true)
    (hl : RenderLegal c s) (hcur : ∀ i, s.cursor ≠ .render i) :
    renderCommand c (atCursor (.render 0) s) = renderCommand c s := by
  have hpos : renderPosition s = renderPosition (atCursor (.render 0) s) := by
    unfold renderPosition
    split
    · exact absurd ‹_› (hcur _)
    · rfl
    · rfl
  rw [renderCommand_of_legal hc hl, renderCommand_of_legal (by simpa using hc) (by simpa using hl),
    renderPixels_atCursor, Progress.answer_atCursor, fieldCells_atCursor, hpos]

/-- One pixel of a RENDER, then the RENDER from the next. -/
theorem renderCommand_of_pixel {c : Config} {s t : State} {i : Nat} (hc : s.cfg = true)
    (hl : RenderLegal c s) (hcur : s.cursor = .render i) (hi : i < fieldCells s)
    (hv : renderPixel c i s = .goOn t) :
    renderCommand c (atCursor (.render (i + 1)) t) = renderCommand c s := by
  have hframe := renderPixel_frame hv
  have hcfg : t.cfg = true := by rw [hframe]; exact hc
  have hlegal : RenderLegal c t := by rw [hframe]; exact hl
  have hcells : fieldCells t = fieldCells s := by rw [hframe]; rfl
  have hpos : renderPosition s = i := by simp [renderPosition, hcur]
  have hleft : fieldCells s - i = fieldCells s - (i + 1) + 1 := by omega
  calc renderCommand c (atCursor (.render (i + 1)) t)
      = (renderPixels c (fieldCells s - (i + 1)) (i + 1) t).answer := by
        rw [renderCommand_of_legal (by simpa using hcfg) (by simpa using hlegal),
          renderPixels_atCursor, Progress.answer_atCursor, fieldCells_atCursor, hcells]
        rfl
    _ = (renderPixels c (fieldCells s - (i + 1) + 1) i s).answer := by simp only [renderPixels, hv]
    _ = renderCommand c s := by rw [renderCommand_of_legal hc hl, hpos, hleft]

/-- Settles O60, by what a piece can do: end the command, visit a source, pass the checks, or write
a pixel. -/
theorem piecesMakeTheWholeCommand : Obligations.PiecesMakeTheWholeCommand := by
  intro c s t h hb
  rcases advanceMove_cases c s with
    e | ⟨hf, hc, hd, p, ps, u, hr, hv, e⟩ | ⟨hf, hc, hd, hl, ⟨hcur, e⟩ | ⟨i, u, hcur, hi, hv, e⟩⟩
  · rw [eq_of_engineMove_busy (e.symm.trans h) hb]
  · obtain rfl := Host.Outcome.next.inj (e.symm.trans h)
    have hframe := visitSource_frame hv
    exact engineMove_congr (i := .step) hf hd (by rw [hframe]; rfl) (by rw [hframe])
      (stepCommand_of_visit hc hr hv)
  · obtain rfl := Host.Outcome.next.inj (e.symm.trans h)
    exact engineMove_congr (i := .render) hf hd rfl rfl (renderCommand_of_checks hc hl hcur)
  · obtain rfl := Host.Outcome.next.inj (e.symm.trans h)
    have hframe := renderPixel_frame hv
    exact engineMove_congr (i := .render) hf hd (by rw [hframe]; rfl) (by rw [hframe])
      (renderCommand_of_pixel hc hl hcur hi hv)

end Sys2Proof.Machine

/-! The invariant of the machine, kept by every move of every agent. Its clauses about memory, the
cache and the field are kept by each piece of a command; the clauses about BUSY, FATAL, ERR and the
cursor hold again at the end of a command, and between the pieces of one in flight. -/

namespace Sys2Proof.Machine

/-! ### The invariant's two halves -/

/-- The clauses of `Inv` about host memory, the cache, the grid and the field (20_memory.md R60;
10_state.md R31, R40, R41). -/
structure DataSound (c : Config) (s : State) : Prop where
  mem : memWf c s.mem = true
  cache : cacheWf c s.hostCache = true
  grid : gridWf c s.grid = true
  dims : s.cfg = true → legalDims c (fieldW s) (fieldH s) = true
  levels : s.cfg = true → LevelsLegal s
  noField : s.cfg = false → s.width = 0 ∧ s.height = 0 ∧ s.lit = false

/-- Every next state an answer holds is sound. -/
def SoundAnswer (c : Config) (r : Result) : Prop := ∀ t, r = .next t → Inv c t

/-- A piece of a traversal leaves sound data and a block that has not halted, or a sound answer. -/
def SoundProgress (c : Config) : Progress → Prop
  | .goOn t => DataSound c t ∧ t.fatal = false
  | .ended r => SoundAnswer c r

section
variable {c : Config} {s t : State}

theorem Inv.data (h : Inv c s) : DataSound c s :=
  ⟨h.mem, h.cache, h.grid, h.dims, h.levels, h.noField⟩

/-- The end of a command from sound data leaves a sound state. -/
theorem DataSound.ended (h : DataSound c s) (hf : s.fatal = false) {code : Completion}
    (hcode : code ≠ .fatal) : Inv c (finish code s) where
  mem := h.mem
  cache := h.cache
  grid := h.grid
  dims := h.dims
  levels := h.levels
  noField := h.noField
  halted := fun h' => by simp [hf] at h'
  fatalCode := fun h' => absurd h' hcode
  idle := fun _ => rfl
  stepCursor := nofun
  renderCursor := nofun

/-- ERR = 0xF stands in a halted block alone. -/
theorem Inv.err_ne_fatal (h : Inv c s) (hf : s.fatal = false) : s.err ≠ .fatal := fun he => by
  simp [h.fatalCode he] at hf

/-- With a command in flight, sound data and a sound cursor make a sound state. -/
theorem DataSound.busy (h : DataSound c s) (hb : s.busy = true) (hf : s.fatal = false)
    (he : s.err ≠ .fatal) (hstep : ∀ x y, s.cursor = .step x y → 1 ≤ y)
    (hrender : ∀ i, s.cursor = .render i → s.cfg = true ∧ RenderLegal c s) : Inv c s where
  mem := h.mem
  cache := h.cache
  grid := h.grid
  dims := h.dims
  levels := h.levels
  noField := h.noField
  halted := fun h' => by simp [hf] at h'
  fatalCode := fun h' => absurd h' he
  idle := fun h' => by simp [hb] at h'
  stepCursor := hstep
  renderCursor := hrender

theorem soundAnswer_next (h : Inv c t) : SoundAnswer c (.next t) := by
  intro _ e
  cases e
  exact h

theorem soundAnswer_fatal : SoundAnswer c (raiseFatal s) := by
  intro _ e
  cases e

theorem soundAnswer_refused (r : Refusal) : SoundAnswer c (.refused r) := by
  intro _ e
  cases e

theorem completeOk_sound (h : DataSound c s) (hf : s.fatal = false) :
    SoundAnswer c (completeOk s) := soundAnswer_next (h.ended hf (by decide))

theorem raiseError_sound (h : DataSound c s) (hf : s.fatal = false) {code : Completion}
    (hcode : code ≠ .fatal) : SoundAnswer c (raiseError code s) :=
  soundAnswer_next (h.ended hf hcode)

theorem needsField_sound {body : Result} (h : DataSound c s) (hf : s.fatal = false)
    (hbody : s.cfg = true → SoundAnswer c body) : SoundAnswer c (needsField s body) := by
  rcases needsField_cases s body with ⟨_, e⟩ | ⟨hc, e⟩ <;> rw [e]
  · exact raiseError_sound h hf (by decide)
  · exact hbody hc

/-- The cursor enters no clause about the data. -/
theorem DataSound.atCursor (h : DataSound c s) (k : Cursor) : DataSound c (atCursor k s) :=
  ⟨h.mem, h.cache, h.grid, h.dims, h.levels, h.noField⟩

/-! ### Writes of the grid -/

/-- A level has `CELL_BITS` bits in every configuration (00_scope.md R8). -/
theorem level_lt (hw : c.wf = true) {v : Nat} (hv : v ≤ maxLevel) : v < 2 ^ c.cellBits := by
  have h6 : 6 ≤ c.cellBits := by
    simp only [Config.wf, Bool.and_eq_true, decide_eq_true_eq] at hw
    exact hw.1.2
  calc v < 2 ^ 6 := Nat.lt_of_le_of_lt hv (by decide)
    _ ≤ 2 ^ c.cellBits := Nat.pow_le_pow_right (by decide) h6

theorem legalDims_iff (c : Config) (w h : Nat) :
    legalDims c w h = true ↔ 1 ≤ w ∧ 1 ≤ h ∧ w * h ≤ c.maxCells := by
  simp [legalDims, and_assoc]

theorem DataSound.cells_le (h : DataSound c s) (hc : s.cfg = true) : fieldCells s ≤ c.maxCells :=
  ((legalDims_iff ..).mp (h.dims hc)).2.2

theorem DataSound.cols_pos (h : DataSound c s) (hc : s.cfg = true) : 0 < fieldW s :=
  ((legalDims_iff ..).mp (h.dims hc)).1

theorem DataSound.rows_pos (h : DataSound c s) (hc : s.cfg = true) : 0 < fieldH s :=
  ((legalDims_iff ..).mp (h.dims hc)).2.1

/-- A field's grid may be replaced by any canonical one with legal levels. -/
theorem DataSound.withGrid (h : DataSound c s) {g : List (Nat × Nat)} {rng : Nat}
    (hg : gridWf c g = true) (hl : ∀ i, i < fieldCells s → gridRead g i ≤ maxLevel) :
    DataSound c { s with grid := g, rng := rng } :=
  ⟨h.mem, h.cache, hg, h.dims, fun _ => hl, h.noField⟩

/-- A legal level written to one cell of the field (10_state.md R41). -/
theorem DataSound.writeCell (h : DataSound c s) (hw : c.wf = true) (hc : s.cfg = true)
    {i v rng : Nat} (hi : i < fieldCells s) (hv : v ≤ maxLevel) :
    DataSound c { s with grid := gridWrite s.grid i v, rng := rng } := by
  have hcells := h.cells_le hc
  refine h.withGrid (gridWf_write h.grid (by omega) (level_lt hw hv)) fun j hj => ?_
  rw [gridRead_write]
  split
  · exact hv
  · exact h.levels hc j hj

/-- The end of a traversal completes the command in a sound state. -/
theorem SoundProgress.answer {p : Progress} (h : SoundProgress c p) : SoundAnswer c p.answer := by
  cases p with
  | goOn t => exact completeOk_sound h.1 h.2
  | ended r => exact h

/-! ### The visits of a STEP -/

theorem decayed_le (v : Nat) (r : Drift) : decayed v r ≤ v := Nat.sub_le ..

/-- A visit of a cell of the field keeps its levels legal (41_step.md R169). -/
theorem visitSource_sound {x y : Nat} (h : DataSound c s) (hw : c.wf = true) (hc : s.cfg = true)
    (hf : s.fatal = false) (hx : x < fieldW s) (hy : y < fieldH s) :
    SoundProgress c (visitSource c x y s) := by
  have hcell := cellAt_lt hx hy
  rcases visitSource_cases c x y s with ⟨_, e⟩ | ⟨_, e⟩ | ⟨hle, _, e⟩ <;> rw [e]
  · exact soundAnswer_fatal
  · exact ⟨h.writeCell hw hc (by omega) (Nat.zero_le _), hf⟩
  · obtain ⟨r, k, d, rng, _, _, rfl, e⟩ :=
      spreadHeat_state c (cellAt s x y) (gridRead s.grid (cellAt s x y)) s
    rw [e]
    exact ⟨h.writeCell hw hc (clampDest_lt (by omega)) ((decayed_le ..).trans hle), hf⟩

theorem visitAll_sound {ps : List (Nat × Nat)} (h : DataSound c s) (hw : c.wf = true)
    (hc : s.cfg = true) (hf : s.fatal = false)
    (hps : ∀ p ∈ ps, p.1 < fieldW s ∧ p.2 < fieldH s) : SoundProgress c (visitAll c ps s) := by
  induction ps generalizing s with
  | nil => exact ⟨h, hf⟩
  | cons p ps ih =>
    obtain ⟨⟨hx, hy⟩, hrest⟩ := List.forall_mem_cons.mp hps
    have hvisit := visitSource_sound h hw hc hf hx hy
    simp only [visitAll]
    cases hv : visitSource c p.1 p.2 s with
    | ended r => rwa [hv] at hvisit
    | goOn t =>
      rw [hv] at hvisit
      have hframe := visitSource_frame hv
      exact ih hvisit.1 (by rw [hframe]; exact hc) hvisit.2 (by rw [hframe]; exact hrest)

/-- A sound STEP has cells of the field left to visit (41_step.md R152, R153). -/
theorem mem_remainingSources (h : Inv c s) {p : Nat × Nat} (hp : p ∈ remainingSources s) :
    p.1 < fieldW s ∧ p.2 < fieldH s := by
  have hrow : 1 ≤ (stepPosition s).2 := by
    unfold stepPosition
    split
    · exact h.stepCursor _ _ ‹_›
    · exact le_refl 1
    · exact le_refl 1
  obtain ⟨hx, _, hy⟩ := mem_sweepFrom hrow hp
  exact ⟨hx, hy⟩

theorem stepCommand_sound (h : Inv c s) (hw : c.wf = true) (hf : s.fatal = false) :
    SoundAnswer c (stepCommand c s) := by
  refine needsField_sound h.data hf fun hc => ?_
  have hall := (visitAll_sound h.data hw hc hf fun _ => mem_remainingSources h).answer
  rw [← stepCommand_of_field c hc] at hall
  rwa [stepCommand, needsField, if_pos hc] at hall

/-! ### The pixels of a RENDER -/

/-- A pixel of a legal RENDER is written inside the address space (42_render.md R192). -/
theorem busWritePixel_sound {i : Nat} (h : DataSound c s) (hl : RenderLegal c s)
    (hi : i < fieldCells s) (p : Pixel) :
    DataSound c (busWritePixel (renderBase s + 4 * i) p s).1 := by
  obtain ⟨hlen, _, haddr⟩ := renderCheck_none hl.1
  exact ⟨memWf_writePixel _ h.mem (by omega), h.cache, h.grid, h.dims, h.levels, h.noField⟩

theorem renderPixel_sound {i : Nat} (h : DataSound c s) (hl : RenderLegal c s)
    (hf : s.fatal = false) (hi : i < fieldCells s) : SoundProgress c (renderPixel c i s) := by
  rcases renderPixel_cases c i s with ⟨_, e⟩ | ⟨p, _, ⟨_, e⟩ | ⟨_, e⟩⟩ <;> rw [e]
  · exact soundAnswer_fatal
  · exact ⟨busWritePixel_sound h hl hi p, hf⟩
  · exact raiseError_sound (busWritePixel_sound h hl hi p) hf (by decide)

theorem renderPixels_sound {n i : Nat} (h : DataSound c s) (hl : RenderLegal c s)
    (hf : s.fatal = false) (hn : n ≤ fieldCells s - i) :
    SoundProgress c (renderPixels c n i s) := by
  induction n generalizing i s with
  | zero => exact ⟨h, hf⟩
  | succ n ih =>
    have hpixel := renderPixel_sound h hl hf (i := i) (by omega)
    simp only [renderPixels]
    cases hv : renderPixel c i s with
    | ended r => rwa [hv] at hpixel
    | goOn t =>
      rw [hv] at hpixel
      have hframe := renderPixel_frame hv
      have hcells : fieldCells t = fieldCells s := by rw [hframe]; rfl
      exact ih hpixel.1 (by rw [hframe]; exact hl) hpixel.2 (by omega)

theorem renderCommand_sound (h : Inv c s) (hf : s.fatal = false) :
    SoundAnswer c (renderCommand c s) := by
  rcases renderGuard_cases c s _ with ⟨_, e⟩ | ⟨_, code, hk, e⟩ | ⟨_, _, _, e⟩ | ⟨hc, hl, _⟩
  · rw [renderCommand, e]
    exact raiseError_sound h.data hf (by decide)
  · rw [renderCommand, e]
    refine raiseError_sound h.data hf ?_
    rcases renderCheck_code hk with rfl | rfl | rfl <;> decide
  · rw [renderCommand, e]
    exact soundAnswer_refused _
  · rw [renderCommand_of_legal hc hl]
    exact (renderPixels_sound h.data hl hf (le_refl _)).answer

/-! ### The other commands -/

/-- A new field is all zero, whatever the grid held (40_lifecycle.md R121, R128). -/
theorem buildField_sound (h : DataSound c s)
    (hd : legalDims c (newWidth s) (newHeight s) = true) : DataSound c (buildField c s) := by
  refine ⟨h.mem, h.cache, gridWf_clear _ h.grid, fun _ => hd, fun _ i hi => ?_, nofun⟩
  have hi' : i < newWidth s * newHeight s := hi
  rw [buildField_grid, gridRead_clear, if_pos hi']
  exact Nat.zero_le _

theorem newCommand_sound (h : Inv c s) (hf : s.fatal = false) :
    SoundAnswer c (newCommand c s) := by
  rcases newCommand_cases c s with ⟨hd, e⟩ | ⟨_, e⟩ <;> rw [e]
  · exact completeOk_sound (buildField_sound h.data hd) hf
  · exact raiseError_sound h.data hf (by decide)

/-- The bottom row lies in the field (40_lifecycle.md R126). -/
theorem lightBottomRow_sound (h : DataSound c s) (hw : c.wf = true) (hc : s.cfg = true) :
    DataSound c (lightBottomRow s) := by
  have hlast := cellAt_lt (s := s) (x := fieldW s - 1) (y := fieldH s - 1)
  have hcols := h.cols_pos hc
  have hrows := h.rows_pos hc
  have hle := h.cells_le hc
  have hrow : cellAt s 0 (fieldH s - 1) + fieldW s ≤ c.maxCells := by
    simp only [cellAt] at hlast ⊢
    omega
  refine ⟨h.mem, h.cache, gridWf_fill h.grid hrow (level_lt hw (le_refl _)), h.dims,
    fun _ i hi => ?_, fun h' => ?_⟩
  · rw [lightBottomRow_grid, gridRead_fill]
    split
    · exact le_refl _
    · exact h.levels hc i hi
  · exact absurd (hc.symm.trans h') (by decide)

theorem execIgnite_sound (h : Inv c s) (hw : c.wf = true) (hf : s.fatal = false) :
    SoundAnswer c (execIgnite s) :=
  needsField_sound h.data hf fun hc =>
    completeOk_sound (lightBottomRow_sound h.data hw hc) hf

theorem execExtinguish_sound (h : Inv c s) (hf : s.fatal = false) :
    SoundAnswer c (execExtinguish s) := by
  refine needsField_sound h.data hf fun hc => completeOk_sound ?_ hf
  exact ⟨h.mem, h.cache, h.grid, h.dims, h.levels, fun h' => absurd (hc.symm.trans h') (by decide)⟩

/-- RESULT enters no clause of the invariant. -/
theorem DataSound.withResult (h : DataSound c s) (v : Word) : DataSound c { s with result := v } :=
  ⟨h.mem, h.cache, h.grid, h.dims, h.levels, h.noField⟩

theorem execIslit_sound (h : Inv c s) (hf : s.fatal = false) : SoundAnswer c (execIslit s) :=
  needsField_sound h.data hf fun _ => completeOk_sound (h.data.withResult _) hf

theorem execPeek_sound (h : Inv c s) (hf : s.fatal = false) : SoundAnswer c (execPeek s) := by
  refine needsField_sound h.data hf fun _ => ?_
  split
  · exact raiseError_sound h.data hf (by decide)
  · exact completeOk_sound (h.data.withResult _) hf

/-- POKE writes a checked value to a checked cell (43_debug.md R226, R227). -/
theorem execPoke_sound (h : Inv c s) (hw : c.wf = true) (hf : s.fatal = false) :
    SoundAnswer c (execPoke s) := by
  refine needsField_sound h.data hf fun hc => ?_
  split
  · exact raiseError_sound h.data hf (by decide)
  · rename_i hlegal
    obtain ⟨hi, hv⟩ := not_or.mp hlegal
    have hlevel : pokeValue s % 2 ^ 6 ≤ maxLevel := (Nat.mod_le ..).trans (Nat.le_of_not_lt hv)
    exact completeOk_sound (h.data.writeCell hw hc (Nat.lt_of_not_le hi) hlevel) hf

theorem performCommand_sound (h : Inv c s) (hw : c.wf = true) (hf : s.fatal = false) (i : Instr) :
    SoundAnswer c (performCommand c i s) := by
  cases i with
  | new => exact newCommand_sound h hf
  | ignite => exact execIgnite_sound h hw hf
  | extinguish => exact execExtinguish_sound h hf
  | step => exact stepCommand_sound h hw hf
  | render => exact renderCommand_sound h hf
  | islit => exact execIslit_sound h hf
  | peek => exact execPeek_sound h hf
  | poke => exact execPoke_sound h hw hf

/-! ### The engine -/

theorem inFlight_iff : inFlight s = true ↔ s.busy = true ∧ s.fatal = false := by
  simp [inFlight]

theorem engineMove_sound (h : Inv c s) (hw : c.wf = true) : SoundAnswer c (engineMove c s) := by
  rcases engineMove_cases c s with ⟨_, e⟩ | ⟨hflight, i, _, e⟩ | ⟨hflight, _, e⟩ <;> rw [e]
  · exact soundAnswer_next h
  · exact performCommand_sound h hw (inFlight_iff.mp hflight).2 i
  · exact soundAnswer_next (h.data.ended (inFlight_iff.mp hflight).2 (by decide))

/-- One piece of a STEP or a RENDER keeps the data sound, and the cursor it leaves is sound
(10_state.md R48). -/
theorem advanceMove_sound (h : Inv c s) (hw : c.wf = true) : SoundAnswer c (advanceMove c s) := by
  rcases advanceMove_cases c s with
    e | ⟨hflight, hc, _, p, ps, t, hr, hv, e⟩ |
    ⟨hflight, hc, _, hl, ⟨_, e⟩ | ⟨i, t, _, hi, hv, e⟩⟩ <;> rw [e]
  · exact engineMove_sound h hw
  all_goals
    obtain ⟨hb, hf⟩ := inFlight_iff.mp hflight
    have herr := h.err_ne_fatal hf
    apply soundAnswer_next
  · obtain ⟨hx, hy⟩ := mem_remainingSources h (p := p) (hr ▸ List.mem_cons_self ..)
    have hvisit := visitSource_sound h.data hw hc hf hx hy
    rw [hv] at hvisit
    have hframe := visitSource_frame hv
    refine (hvisit.1.atCursor _).busy (by rw [hframe]; exact hb) hvisit.2
      (by rw [hframe]; exact herr) ?_ nofun
    rintro _ _ ⟨⟩
    exact one_le_nextSource
  · exact (h.data.atCursor _).busy hb hf herr nofun fun _ _ => ⟨hc, hl⟩
  · have hpixel := renderPixel_sound h.data hl hf hi
    rw [hv] at hpixel
    have hframe := renderPixel_frame hv
    refine (hpixel.1.atCursor _).busy (by rw [hframe]; exact hb) hpixel.2
      (by rw [hframe]; exact herr) nofun fun _ _ => ?_
    rw [hframe]
    exact ⟨hc, hl⟩

/-! ### The host agents and reset -/

/-- A host agent's move keeps the invariant if it keeps memory and the cache canonical: nothing else
it writes enters the invariant. -/
theorem Inv.byHost (h : Inv c s) {m : List Host.Cell} {cache : List (Nat × Word)}
    {a0 a1 a2 : Word} {o : Bool} {r : Reply} {es : List Event} {host : HostAgent}
    (hm : memWf c m = true) (hk : cacheWf c cache = true) :
    Inv c { s with
      arg0 := a0, arg1 := a1, arg2 := a2, ovr := o, mem := m, hostCache := cache, reply := r,
      events := es, host := host } :=
  ⟨hm, hk, h.grid, h.dims, h.levels, h.noField, h.halted, h.fatalCode, h.idle, h.stepCursor,
    h.renderCursor⟩

/-- Everything a write of the window can do: accept a command, or write the ARG registers, OVR and
the reply (10_state.md R22, R27, R28; 30_encoding.md R90). -/
theorem writeWindow_cases (width : Nat) (off : Offset) (v : Word) (s : State) :
    (s.busy = false ∧ s.fatal = false ∧
      writeWindow width off v s = { acceptIssue v s with reply := .done }) ∨
    ∃ a0 a1 a2 o r, writeWindow width off v s =
      { s with arg0 := a0, arg1 := a1, arg2 := a2, ovr := o, reply := r } := by
  unfold writeWindow writeRegister
  split
  · split
    · rcases issueCommand_cases v s with ⟨_, e⟩ | ⟨_, _, e⟩ | ⟨hf, hb, e⟩ <;> rw [e]
      · exact .inr ⟨_, _, _, _, _, rfl⟩
      · exact .inr ⟨_, _, _, _, _, rfl⟩
      · exact .inl ⟨hb, hf, rfl⟩
    all_goals exact .inr ⟨_, _, _, _, _, rfl⟩
  · exact .inr ⟨_, _, _, _, _, rfl⟩

/-- A register write leaves a sound state: an accepted command is in flight with its traversal not
begun. -/
theorem writeWindow_sound (h : Inv c s) (width : Nat) (off : Offset) (v : Word) :
    Inv c (writeWindow width off v s) := by
  rcases writeWindow_cases width off v s with ⟨_, hf, e⟩ | ⟨_, _, _, _, _, e⟩ <;> rw [e]
  · exact DataSound.busy ⟨h.mem, h.cache, h.grid, h.dims, h.levels, h.noField⟩ rfl hf
      (h.err_ne_fatal hf) nofun nofun
  · exact h.byHost h.mem h.cache

/-- The pixel being written lies in the address space (42_render.md R192). -/
theorem pixelInFlight_le (h : Inv c s) {a : Nat} (ha : pixelInFlight s = some a) :
    a + 4 ≤ 2 ^ c.addrBits := by
  unfold pixelInFlight at ha
  split at ha
  · rename_i i hcur
    obtain ⟨hlen, _, haddr⟩ := renderCheck_none (h.renderCursor i hcur).2.1
    split at ha
    · rename_i hi
      have hcells : i < fieldCells s := hi
      have hbase : renderBase s + 4 * i = a := Option.some.inj ha
      omega
    · cases ha
  · cases ha
  · cases ha

theorem memAtReset_wf (h : Inv c s) (landed : Option Pixel) :
    memWf c (memAtReset landed s) = true := by
  unfold memAtReset
  split
  · rename_i a p ha
    exact memWf_writePixel p h.mem (pixelInFlight_le h ha)
  · exact h.mem

theorem reset_sound (c : Config) : Inv c State.reset where
  mem := memWf_reset c
  cache := rfl
  grid := gridWf_reset c
  dims := nofun
  levels := nofun
  noField := fun _ => ⟨rfl, rfl, rfl⟩
  halted := nofun
  fatalCode := nofun
  idle := fun _ => rfl
  stepCursor := nofun
  renderCursor := nofun

/-- Reset leaves the block as `State.reset` has it, and memory and the cache canonical. -/
theorem hardwareReset_sound (h : Inv c s) (landed : Option Pixel) :
    Inv c (hardwareReset landed s) :=
  have hr := reset_sound c
  ⟨memAtReset_wf h landed, h.cache, hr.grid, hr.dims, hr.levels, hr.noField, hr.halted,
    hr.fatalCode, hr.idle, hr.stepCursor, hr.renderCursor⟩

/-! ### Every move -/

theorem Move.sound {s₀ : State} {r : Result} (hm : Move c s₀ s r) (h : Inv c s)
    (hw : c.wf = true) : SoundAnswer c r := by
  cases hm with
  | engine => exact engineMove_sound h hw
  | advance => exact advanceMove_sound h hw
  | register off v reply host =>
    have hwrite := writeWindow_sound h 4 off v
    exact soundAnswer_next (hwrite.byHost hwrite.mem hwrite.cache)
  | answer reply host => exact soundAnswer_next (h.byHost h.mem h.cache)
  | store m cache _ hm hk => exact soundAnswer_next (h.byHost (hm h.mem) (hk h.cache))
  | cache cache hk => exact soundAnswer_next (h.byHost h.mem (hk h.cache))
  | reset landed => exact soundAnswer_next (hardwareReset_sound h landed)

theorem stepUnder_sound (h : Inv c s) : SoundAnswer c (stepUnder c s) := by
  rcases stepUnder_cases c s with ⟨_, e⟩ | ⟨hw, e⟩ <;> rw [e]
  · exact soundAnswer_refused _
  · exact (nextMove_move c s).sound (h.byHost h.mem h.cache) hw

end

/-- Settles O58, by the moves a step can be: an engine's piece keeps the data sound, and BUSY,
FATAL, ERR and the cursor are sound again after it. -/
theorem everyStepKeepsTheInvariant : Obligations.EveryStepKeepsTheInvariant :=
  ⟨fun _ t h ht => stepUnder_sound h t ht, fun _ _ t h ht => stepUnder_sound h t ht⟩

/-- Settles O57: `State.reset` has no field, no command in flight and nothing in memory. -/
theorem invariantHoldsAtReset : Obligations.InvariantHoldsAtReset := reset_sound Config.chip

end Sys2Proof.Machine

/-! Decoding as the bytes of a CMD write, and the accesses of the register window (10_state.md R22
to R33): what an aligned read answers and an aligned write writes, by the offset itself. -/

namespace Sys2Proof.Machine

/-! ### Decoding -/

theorem decodeBytes_bytesOfWord (w : Word) : decodeBytes (bytesOfWord w) = decodeWord w :=
  congrArg decodeWord (wordOfBytes_bytes w)

theorem decodeBytes_wrongLength {bs : List Byte} (h : bs.length ≠ 4) :
    decodeBytes bs = .error .wrongLength := by
  unfold decodeBytes
  split
  · exact absurd rfl h
  · rfl

theorem decodeWord_encode (i : Instr) : decodeWord (encode i) = .ok i := by
  cases i <;> rfl

/-- Settles O2: the four bytes of a word make the word again, and no other list is four bytes. -/
theorem bytesDecodeAsTheirLittleEndianWord : Obligations.BytesDecodeAsTheirLittleEndianWord :=
  ⟨decodeBytes_bytesOfWord, fun _ => decodeBytes_wrongLength,
    fun i _ => (decodeBytes_bytesOfWord _).trans (decodeWord_encode i)⟩

/-! ### STATUS -/

/-- The bits of STATUS (10_state.md R26). -/
theorem getLsbD_statusWord (s : State) (k : Nat) :
    (statusWord s).getLsbD k =
      match k with
      | 0 => s.busy
      | 1 => s.cfg
      | 2 => s.lit
      | 3 => s.fatal
      | 4 => s.ovr
      | 5 | 6 | 7 => false
      | n + 8 => (completionCode s.err).getLsbD n := by
  simp only [statusWord, BitVec.getLsbD_append]
  match k with
  | 0 | 1 | 2 | 3 | 4 | 5 | 6 | 7 => simp
  | n + 8 => simpa using BitVec.lt_of_getLsbD

theorem statusWord_low_reserved (s : State) : (statusWord s).extractLsb' 5 3 = 0 := by
  refine BitVec.eq_of_getLsbD_eq fun i hi => ?_
  rw [BitVec.getLsbD_extractLsb', getLsbD_statusWord]
  interval_cases i <;> rfl

theorem statusWord_high_reserved (s : State) : (statusWord s).extractLsb' 12 20 = 0 := by
  refine BitVec.eq_of_getLsbD_eq fun i _ => ?_
  rw [BitVec.getLsbD_extractLsb', getLsbD_statusWord]
  simp [Nat.add_comm 12]

theorem statusWord_code (s : State) :
    (statusWord s).extractLsb' 8 4 = completionCode s.err := by
  refine BitVec.eq_of_getLsbD_eq fun i hi => ?_
  rw [BitVec.getLsbD_extractLsb', getLsbD_statusWord]
  simp [hi, Nat.add_comm 8]

/-- Settles O6: every field of STATUS stands at its place in the concatenation. -/
theorem statusWordHasItsFields : Obligations.StatusWordHasItsFields := by
  intro s
  refine ⟨getLsbD_statusWord s 0, getLsbD_statusWord s 1, getLsbD_statusWord s 2,
    getLsbD_statusWord s 3, getLsbD_statusWord s 4, statusWord_low_reserved s,
    statusWord_high_reserved s, ?_, fun rest h => step_of_event h⟩
  rw [statusWord_code]
  cases s.err <;> rfl

/-! ### Accesses by offset -/

section
variable {s : State} {rest : List Event} {off : Offset}

theorem legalAccess_iff {width : Nat} :
    legalAccess width off = true ↔ width = 4 ∧ off.toNat % 4 = 0 := by
  simp [legalAccess]

/-- What an aligned read returns, by the offset (10_state.md R24 to R33). -/
theorem registerValue_of_aligned (c : Config) (s : State) (h : off.toNat % 4 = 0) :
    registerValue c off s =
      if off.toNat = 0x00 then 0x44464301
      else if off.toNat = 0x04 then 0
      else if off.toNat = 0x08 then statusWord s
      else if off.toNat = 0x0C then s.arg0
      else if off.toNat = 0x10 then s.arg1
      else if off.toNat = 0x14 then s.arg2
      else if off.toNat = 0x18 then s.result
      else if off.toNat = 0x1C then s.width
      else if off.toNat = 0x20 then s.height
      else if off.toNat = 0x24 then BitVec.ofNat 32 c.maxCells
      else 0 := by
  obtain ⟨k, hk⟩ := Nat.dvd_of_mod_eq_zero h
  have hlt : k < 16 := by have := off.isLt; omega
  simp only [registerValue, hk, Nat.mul_div_cancel_left k (by decide : 0 < 4)]
  interval_cases k <;> rfl

/-- ID, RESULT and every register above it ignore a write (10_state.md R22, R33). -/
theorem writeRegister_readOnly {v : Word} (h : off.toNat < 4 ∨ 0x18 ≤ off.toNat) :
    writeRegister off v s = s := by
  unfold writeRegister
  split
  case h_6 => rfl
  all_goals omega

theorem step_regRead {width : Nat} (h : s.events = .regRead width off :: rest) :
    step s = .next (readWindow Config.chip width off { s with events := rest }) := step_of_event h

theorem step_regWrite {width : Nat} {v : Word} (h : s.events = .regWrite width off v :: rest) :
    step s = .next (writeWindow width off v { s with events := rest }) := step_of_event h

/-- An aligned read answers the register and changes nothing else (10_state.md R22). -/
theorem step_alignedRead (ha : off.toNat % 4 = 0) (h : s.events = .regRead 4 off :: rest) :
    step s = .next { s with events := rest, reply := .word (registerValue Config.chip off s) } := by
  rw [step_regRead h, readWindow, if_pos (legalAccess_iff.mpr ⟨rfl, ha⟩)]
  rfl

/-- An aligned write is the write of the register (10_state.md R22). -/
theorem step_alignedWrite {v : Word} (ha : off.toNat % 4 = 0)
    (h : s.events = .regWrite 4 off v :: rest) :
    step s = .next { writeRegister off v { s with events := rest } with reply := .done } := by
  rw [step_regWrite h, writeWindow, if_pos (legalAccess_iff.mpr ⟨rfl, ha⟩)]

theorem step_readOnlyWrite {v : Word} (ha : off.toNat % 4 = 0)
    (hro : off.toNat < 4 ∨ 0x18 ≤ off.toNat) (h : s.events = .regWrite 4 off v :: rest) :
    step s = .next { s with events := rest, reply := .done } := by
  rw [step_alignedWrite ha h, writeRegister_readOnly hro]

/-- An access of another shape gets a bus error and changes nothing else (10_state.md R22). -/
theorem step_illegalAccess {width : Nat} {v : Word} (hl : ¬ (width = 4 ∧ off.toNat % 4 = 0))
    (h : s.events = .regRead width off :: rest ∨ s.events = .regWrite width off v :: rest) :
    step s = .next { s with events := rest, reply := .busError } := by
  have hl : ¬ legalAccess width off = true := mt legalAccess_iff.mp hl
  rcases h with h | h
  · rw [step_regRead h, readWindow, if_neg hl]
  · rw [step_regWrite h, writeWindow, if_neg hl]

end

/-- Settles O7, by the shape of the access and the register at an aligned offset. -/
theorem windowAccessRules : Obligations.WindowAccessRules := by
  intro s rest width off v
  refine ⟨step_illegalAccess, ?_, ?_⟩
  · rintro ⟨rfl, ha⟩ h
    rw [step_alignedRead ha h, registerValue_of_aligned Config.chip s ha]
  · rintro ⟨rfl, ha, hro⟩ h
    exact step_readOnlyWrite ha (by omega) h

/-- Settles O8: ID, MAXCELLS and the reserved offsets are read and ignored as their offsets say. -/
theorem constantAndReservedRegisters : Obligations.ConstantAndReservedRegisters := by
  intro s rest
  refine ⟨step_alignedRead (by decide), step_alignedRead (by decide),
    fun off hr ha => ⟨fun h => ?_, fun v h => ?_⟩⟩
  · rw [step_alignedRead ha h, registerValue_of_aligned Config.chip s ha]
    repeat rw [if_neg (by omega)]
  · exact step_readOnlyWrite ha (by omega) h

/-- Settles O10: the write of STATUS writes OVR alone. -/
theorem statusWriteClearsOverrun : Obligations.StatusWriteClearsOverrun := by
  intro s rest v h
  have hw : step s = .next { writeStatus v { s with events := rest } with reply := .done } :=
    step_alignedWrite (by decide) h
  refine ⟨fun hv => ?_, fun hv => ?_⟩ <;> rw [hw, writeStatus, hv]
  · simp
  · simp

end Sys2Proof.Machine

/-! What a step changes of the block's registers, whoever moves: the engine's moves and reset alone
write RESULT, the dimensions, CFG, LIT and FATAL, and a host agent's write of the window alone
touches OVR and the ARG registers beside reset. -/

namespace Sys2Proof.Machine

section
variable {c : Config} {s t : State}

/-! ### The engine -/

/-- Everything a piece can leave: what performing the command whole leaves, or a command that is
further on its traversal. -/
theorem advanceMove_answers (h : advanceMove c s = .next t) :
    engineMove c s = .next t ∨
    t = { s with
      grid := t.grid, rng := t.rng, mem := t.mem, busAnswers := t.busAnswers, busLog := t.busLog,
      cursor := t.cursor } := by
  rcases advanceMove_cases c s with
    e | ⟨_, _, _, p, ps, u, _, hv, e⟩ | ⟨_, _, _, _, ⟨_, e⟩ | ⟨i, u, _, _, hv, e⟩⟩
  · exact .inl (e.symm.trans h)
  · cases e.symm.trans h
    rw [visitSource_frame hv]
    exact .inr rfl
  · cases e.symm.trans h
    exact .inr rfl
  · cases e.symm.trans h
    rw [renderPixel_frame hv]
    exact .inr rfl

/-- Everything the engine can leave, whole or one piece: what a command leaves, or a state in which
only ERR, BUSY and what a traversal writes differ. -/
theorem engine_answers (h : engineMove c s = .next t ∨ advanceMove c s = .next t) :
    (∃ i, inFlight s = true ∧ decodeWord s.cmdl = .ok i ∧ performCommand c i s = .next t) ∨
    t = { s with
      grid := t.grid, rng := t.rng, mem := t.mem, busAnswers := t.busAnswers, busLog := t.busLog,
      err := t.err, busy := t.busy, cursor := t.cursor } := by
  rcases h.elim .inl advanceMove_answers with h | e
  · rcases engineMove_cases c s with ⟨_, e⟩ | ⟨hflight, i, hd, e⟩ | ⟨_, _, e⟩
    · cases e.symm.trans h
      exact .inr rfl
    · exact .inl ⟨i, hflight, hd, e.symm.trans h⟩
    · cases e.symm.trans h
      exact .inr rfl
  · rw [e]
    exact .inr rfl

/-- The engine writes neither the ARG registers, OVR nor FATAL, nor the latch, nor what is the
host's (10_state.md R28, R37, R38, R47). -/
theorem engine_frame (h : engineMove c s = .next t ∨ advanceMove c s = .next t) :
    t = { s with
      result := t.result, width := t.width, height := t.height, cfg := t.cfg, lit := t.lit,
      grid := t.grid, rng := t.rng, mem := t.mem, busAnswers := t.busAnswers, busLog := t.busLog,
      err := t.err, busy := t.busy, cursor := t.cursor } := by
  rcases engine_answers h with ⟨i, _, _, hp⟩ | e
  · rw [(performCommand_next hp).1]
  · rw [e]

/-! ### Every move -/

/-- RESULT, the field's registers and FATAL are the same in both states. -/
structure SameRegisters (s t : State) : Prop where
  result : t.result = s.result
  width : t.width = s.width
  height : t.height = s.height
  cfg : t.cfg = s.cfg
  lit : t.lit = s.lit
  fatal : t.fatal = s.fatal

/-- Everything a move can do to RESULT, the field's registers and FATAL: reset them, perform a
command, or leave them. -/
theorem Move.registers {s₀ : State} {r : Result} (hm : Move c s₀ s r) (hr : r = .next t) :
    (∃ landed, (∃ rest, s₀.events = .reset landed :: rest) ∧ t = hardwareReset landed s) ∨
    (∃ i, inFlight s = true ∧ decodeWord s.cmdl = .ok i ∧ performCommand c i s = .next t) ∨
    SameRegisters s t := by
  have hengine (h : engineMove c s = .next t ∨ advanceMove c s = .next t) :=
    (engine_answers h).imp_right fun e : t = _ =>
      show SameRegisters s t by rw [e]; exact ⟨rfl, rfl, rfl, rfl, rfl, rfl⟩
  cases hm with
  | engine => exact .inr (hengine (.inl hr))
  | advance => exact .inr (hengine (.inr hr))
  | register off v reply host =>
    cases hr
    rw [writeWindow_state]
    exact .inr (.inr ⟨rfl, rfl, rfl, rfl, rfl, rfl⟩)
  | answer reply host => cases hr; exact .inr (.inr ⟨rfl, rfl, rfl, rfl, rfl, rfl⟩)
  | store m cache => cases hr; exact .inr (.inr ⟨rfl, rfl, rfl, rfl, rfl, rfl⟩)
  | cache cache => cases hr; exact .inr (.inr ⟨rfl, rfl, rfl, rfl, rfl, rfl⟩)
  | reset landed h => cases hr; exact .inl ⟨landed, h, rfl⟩

/-- Everything a step can do to RESULT, the field's registers and FATAL. -/
theorem step_registers (h : step s = .next t) :
    (∃ landed rest, s.events = .reset landed :: rest ∧
      t = hardwareReset landed { s with events := s.events.tail }) ∨
    (∃ i, s.busy = true ∧ s.fatal = false ∧ decodeWord s.cmdl = .ok i ∧
      performCommand Config.chip i { s with events := s.events.tail } = .next t) ∨
    SameRegisters s t := by
  rcases (nextMove_move Config.chip s).registers ((step_eq s).symm.trans h) with
    ⟨landed, ⟨rest, he⟩, e⟩ | ⟨i, hflight, hd, hp⟩ | hsame
  · exact .inl ⟨landed, rest, he, e⟩
  · obtain ⟨hb, hf⟩ := inFlight_iff.mp hflight
    exact .inr (.inl ⟨i, hb, hf, hd, hp⟩)
  · exact .inr (.inr ⟨hsame.result, hsame.width, hsame.height, hsame.cfg, hsame.lit, hsame.fatal⟩)

/-! ### Overrun -/

/-- What a 32-bit write does to OVR, by its offset (10_state.md R27, R38). -/
theorem writeWindow_ovr (off : Offset) (v : Word) (s : State) :
    (writeWindow 4 off v s).ovr =
      if off = offCmd then s.ovr || (s.busy && !s.fatal)
      else if off = offStatus then s.ovr && !v.getLsbD 4
      else s.ovr := by
  by_cases hcmd : off = offCmd
  · subst hcmd
    have hissue : (writeWindow 4 offCmd v s).ovr = (issueCommand v s).ovr := rfl
    rw [hissue, if_pos rfl]
    rcases issueCommand_cases v s with ⟨hf, e⟩ | ⟨hf, hb, e⟩ | ⟨hf, hb, e⟩ <;> simp [*]
  by_cases hstatus : off = offStatus
  · subst hstatus
    rfl
  rw [if_neg hcmd, if_neg hstatus]
  have hcmd : off.toNat ≠ 4 := fun h => hcmd (BitVec.eq_of_toNat_eq h)
  have hstatus : off.toNat ≠ 8 := fun h => hstatus (BitVec.eq_of_toNat_eq h)
  unfold writeWindow writeRegister
  split
  · rename_i hlegal
    obtain ⟨_, ha⟩ := legalAccess_iff.mp hlegal
    split
    case h_1 => omega
    case h_2 => omega
    all_goals rfl
  · rfl

/-- Everything a move can do to OVR: it stays, or a host agent writes CMD or STATUS, or reset is
asserted. -/
theorem Move.ovr {s₀ : State} {r : Result} (hm : Move c s₀ s r) (hr : r = .next t) :
    t.ovr = s.ovr ∨
    (WritesRegister c s₀ offCmd ∧ t.ovr = (s.ovr || (s.busy && !s.fatal))) ∨
    (WritesRegister c s₀ offStatus ∧ ∃ v : Word, t.ovr = (s.ovr && !v.getLsbD 4)) ∨
    ((∃ landed rest, s₀.events = .reset landed :: rest) ∧ t.ovr = false) := by
  cases hm with
  | engine => rw [engine_frame (.inl hr)]; exact .inl rfl
  | advance => rw [engine_frame (.inr hr)]; exact .inl rfl
  | register off v reply host hw =>
    cases hr
    have hovr := writeWindow_ovr off v s
    split_ifs at hovr with hcmd hstatus
    · exact .inr (.inl ⟨hcmd ▸ hw, hovr⟩)
    · exact .inr (.inr (.inl ⟨hstatus ▸ hw, v, hovr⟩))
    · exact .inl hovr
  | answer reply host => cases hr; exact .inl rfl
  | store m cache => cases hr; exact .inl rfl
  | cache cache => cases hr; exact .inl rfl
  | reset landed h =>
    cases hr
    obtain ⟨rest, he⟩ := h
    exact .inr (.inr (.inr ⟨⟨landed, rest, he⟩, rfl⟩))

/-! ### The end of a command -/

theorem needsField_fault {body : Result} {f : Fault} (h : needsField s body = .fault f) :
    body = .fault f := by
  rcases needsField_cases s body with ⟨_, e⟩ | ⟨_, e⟩
  · cases e.symm.trans h
  · exact e.symm.trans h

/-- The fault of a command carries a state `fatal()` leaves (60_exceptions.md R252). -/
theorem performCommand_fault {i : Instr} {h : State}
    (e : performCommand c i s = .fault (.invariantViolation h)) : ∃ u, h = haltFatal u := by
  cases i with
  | step =>
    rcases stepCommand_cases c s with ⟨_, e'⟩ | ⟨_, t, _, e'⟩ | ⟨_, r, hr, e'⟩
    · cases e'.symm.trans e
    · cases e'.symm.trans e
    · obtain ⟨g, rng, rfl⟩ := visitAll_ended hr
      cases e'.symm.trans e
      exact ⟨_, rfl⟩
  | render =>
    rcases renderCommand_cases c s with
      ⟨_, e'⟩ | ⟨_, code, _, e'⟩ | ⟨_, _, _, e'⟩ | ⟨_, _, t, _, e'⟩ | ⟨_, _, r, hr, e'⟩
    · cases e'.symm.trans e
    · cases e'.symm.trans e
    · cases e'.symm.trans e
    · cases e'.symm.trans e
    · obtain ⟨m, ans, log, rfl | rfl⟩ := renderPixels_ended hr <;> cases e'.symm.trans e
      exact ⟨_, rfl⟩
  | new => rcases newCommand_cases c s with ⟨_, e'⟩ | ⟨_, e'⟩ <;> cases e'.symm.trans e
  | ignite => cases needsField_fault e
  | extinguish => cases needsField_fault e
  | islit => cases needsField_fault e
  | peek =>
    have hbody := needsField_fault e
    split at hbody <;> cases hbody
  | poke =>
    have hbody := needsField_fault e
    split at hbody <;> cases hbody

/-- A fault of a move is the engine's, and carries a state `fatal()` leaves (60_exceptions.md
R252). -/
theorem Move.fault {s₀ h : State} {r : Result} (hm : Move c s₀ s r)
    (hr : r = .fault (.invariantViolation h)) : ∃ u, h = haltFatal u := by
  have hengine (he : engineMove c s = .fault (.invariantViolation h)) : ∃ u, h = haltFatal u := by
    rcases engineMove_cases c s with ⟨_, e⟩ | ⟨_, i, _, e⟩ | ⟨_, _, e⟩
    · cases e.symm.trans he
    · exact performCommand_fault (e.symm.trans he)
    · cases e.symm.trans he
  cases hm with
  | engine => exact hengine hr
  | advance =>
    rcases advanceMove_cases c s with
      e | ⟨_, _, _, p, ps, u, _, _, e⟩ | ⟨_, _, _, _, ⟨_, e⟩ | ⟨i, u, _, _, _, e⟩⟩
    · exact hengine (e.symm.trans hr)
    all_goals cases e.symm.trans hr
  | register off v reply host => cases hr
  | answer reply host => cases hr
  | store m cache => cases hr
  | cache cache => cases hr
  | reset landed => cases hr

/-- A NEW that ends with OK has built its field (40_lifecycle.md R121). -/
theorem newCommand_ok (h : newCommand c s = .next t) (he : t.err = .ok) :
    t = finish .ok (buildField c s) := by
  rcases newCommand_cases c s with ⟨_, e⟩ | ⟨_, e⟩ <;> cases e.symm.trans h
  · rfl
  · cases he

theorem exec_noField {i : Instr} (hi : i ≠ .new) (hc : s.cfg = false) :
    exec i s = .next (finish .nocfg s) := by
  have hneeds (body : Result) : needsField s body = .next (finish .nocfg s) := by
    rw [needsField, hc]
    rfl
  cases i with
  | new => exact absurd rfl hi
  | ignite => exact hneeds _
  | extinguish => exact hneeds _
  | step => exact hneeds _
  | render => exact hneeds _
  | islit => exact hneeds _
  | peek => exact hneeds _
  | poke => exact hneeds _

end

/-! ### The statements -/

/-- Settles O9: the accesses are the window's, and the engine's frame holds the ARG registers. -/
theorem argRegistersAreTheHosts : Obligations.ArgRegistersAreTheHosts := by
  refine ⟨fun s rest v => ⟨step_alignedWrite (by decide), step_alignedWrite (by decide),
    step_alignedWrite (by decide), step_alignedRead (by decide), step_alignedRead (by decide),
    step_alignedRead (by decide), fun h hb hf => ?_⟩, fun s t h => ?_⟩
  · have hissue : issueCommand v { s with events := rest } =
        acceptIssue v { s with events := rest } := by simp [issueCommand, hb, hf]
    have hstep : step s = .next { issueCommand v { s with events := rest } with reply := .done } :=
      step_alignedWrite (by decide) h
    rw [hissue] at hstep
    exact ⟨_, hstep, rfl, rfl, rfl⟩
  · rw [engine_frame h]
    exact ⟨rfl, rfl, rfl⟩

/-- Settles O12: the writes of CMD and STATUS by their equations, and every other move keeps OVR. -/
theorem overrunIsWrittenByItsEventsAlone : Obligations.OverrunIsWrittenByItsEventsAlone := by
  refine ⟨fun s rest => ⟨fun w h => ⟨_, step_regWrite h, writeWindow_ovr ..⟩,
    fun v h => ⟨_, step_regWrite h, writeWindow_ovr ..⟩, fun landed h => ⟨_, step_of_event h, rfl⟩⟩,
    fun s t h hne => ?_⟩
  rcases (nextMove_move Config.chip s).ovr ((step_eq s).symm.trans h) with
    hsame | ⟨hw, hovr⟩ | ⟨hw, v, hovr⟩ | ⟨hreset, hovr⟩
  · exact absurd hsame hne
  · have hset : t.ovr = true ∧ s.busy = true ∧ s.fatal = false := by
      cases ho : s.ovr <;> simp_all
    exact ⟨fun _ => ⟨hw, hset.2⟩, fun hclear => by simp [hset.1] at hclear⟩
  · have hclear : t.ovr = false := by
      cases ho : s.ovr <;> simp_all
    exact ⟨fun hset => by simp [hclear] at hset, fun _ => .inl hw⟩
  · exact ⟨fun hset => by simp [hovr] at hset, fun _ => .inr hreset⟩

/-- Settles O48, by what a command may write: ISLIT and PEEK alone write RESULT. -/
theorem onlyIslitAndPeekWriteResult : Obligations.OnlyIslitAndPeekWriteResult := by
  intro s t h hne
  rcases step_registers h with ⟨landed, rest, he, _⟩ | ⟨i, hb, _, hd, hp⟩ | hsame
  · exact .inl ⟨landed, rest, he⟩
  · obtain ⟨hframe, hresult, -⟩ := performCommand_next hp
    obtain ⟨hi, herr⟩ := hresult hne
    refine .inr ⟨?_, hb, by rw [hframe], herr⟩
    rcases hi with rfl | rfl
    · exact .inl hd
    · exact .inr hd
  · exact absurd hsame.result hne

/-- Settles O49, by what a command may write: IGNITE, EXTINGUISH and NEW alone write `lit`. -/
theorem onlyTheLifecycleWritesLit : Obligations.OnlyTheLifecycleWritesLit := by
  intro s t h hne
  rcases step_registers h with ⟨landed, rest, he, rfl⟩ | ⟨i, hb, _, hd, hp⟩ | hsame
  · exact ⟨nofun, fun _ => .inl ⟨landed, rest, he⟩⟩
  · obtain ⟨-, -, -, -, hlit, -⟩ := performCommand_next hp
    obtain ⟨herr, ⟨rfl, hl⟩ | ⟨hi, hl⟩⟩ := hlit hne
    · exact ⟨fun _ => ⟨hd, hb, herr⟩, fun hclear => by simp [hl] at hclear⟩
    · refine ⟨fun hset => by simp [hl] at hset, fun _ => .inr ⟨?_, hb, herr⟩⟩
      rcases hi with rfl | rfl
      · exact .inl hd
      · exact .inr hd
  · exact absurd hsame.lit hne

/-- Settles O50, by what a command may write: NEW alone writes the dimensions and CFG, and one that
ends with OK has built its field. -/
theorem onlyNewAndResetWriteTheDimensionsAndCfg :
    Obligations.OnlyNewAndResetWriteTheDimensionsAndCfg := by
  intro s t h hne
  rcases step_registers h with ⟨landed, rest, he, rfl⟩ | ⟨i, hb, hf, hd, hp⟩ | hsame
  · exact .inl ⟨⟨landed, rest, he⟩, rfl, rfl, rfl⟩
  · obtain ⟨-, -, hdims, hcfg, -⟩ := performCommand_next hp
    obtain ⟨rfl, herr⟩ : i = .new ∧ t.err = .ok := by
      rcases hne with hw | hh | hc
      · exact hdims (.inl hw)
      · exact hdims (.inr hh)
      · exact ⟨(hcfg hc).1, (hcfg hc).2.1⟩
    refine .inr ⟨hd, hb, hf, herr, ?_⟩
    rw [newCommand_ok hp herr]
    exact ⟨rfl, rfl, rfl⟩
  · simp [hsame.width, hsame.height, hsame.cfg] at hne

/-- Settles O53: no command but a fault writes FATAL, and the fault carries what `fatal()`
leaves. -/
theorem fatalIsStickyUntilReset : Obligations.FatalIsStickyUntilReset := by
  refine ⟨fun s t h hno => ?_, fun s t l rest he h => ?_, fun s h e => ?_⟩
  · rcases step_registers h with ⟨landed, rest, he, _⟩ | ⟨i, _, _, _, hp⟩ | hsame
    · exact absurd he (hno landed rest)
    · rw [(performCommand_next hp).1]
    · exact hsame.fatal
  · cases (step_of_event he).symm.trans h
    rfl
  · obtain ⟨u, rfl⟩ := (nextMove_move Config.chip s).fault ((step_eq s).symm.trans e)
    rfl

theorem memAtReset_of_none {landed : Option Pixel} {s : State} (h : pixelInFlight s = none) :
    memAtReset landed s = s.mem := by
  simp [memAtReset, h]

theorem statusWord_hardwareReset (landed : Option Pixel) (s : State) :
    statusWord (hardwareReset landed s) = 0 := by
  have hreset : statusWord State.reset = 0 := by decide
  exact hreset

/-- Settles O55: hardware reset leaves the block's fields as `State.reset` has them. -/
theorem resetRestoresTheResetTable : Obligations.ResetRestoresTheResetTable := by
  intro s landed rest h
  exact ⟨_, step_of_event h, rfl, rfl, statusWord_hardwareReset _ _, rfl, rfl, rfl, rfl, rfl, rfl,
    rfl, rfl, rfl, rfl, rfl, rfl, rfl, rfl, rfl, rfl, rfl, rfl, rfl, memAtReset_of_none⟩

/-- Settles O47: every command but NEW needs a field. -/
theorem noFieldNoCommand : Obligations.NoFieldNoCommand := fun _ _ hi hc => exec_noField hi hc

end Sys2Proof.Machine

/-! What a RENDER leaves in host memory and in the write history (20_memory.md R65, R66, R70;
42_render.md R193 to R197): each pixel is one aligned write of its cell's colour, or of the draw of a
race, in ascending order, and no byte outside of the buffer changes. -/

namespace Sys2Proof.Machine

/-! ### A pixel in host memory -/

/-- The four bytes at `a` are a pixel, R at the lowest address (20_memory.md R64). -/
structure HoldsPixel (m : List Host.Cell) (a : Nat) (p : Pixel) : Prop where
  r : memRead m a = some p.r
  g : memRead m (a + 1) = some p.g
  b : memRead m (a + 2) = some p.b
  a : memRead m (a + 3) = some p.a

/-- A pixel read as one little-endian word (20_memory.md R64). -/
theorem HoldsPixel.readWord {m : List Host.Cell} {a : Nat} {p : Pixel} (h : HoldsPixel m a p) :
    memReadWord m a = some (p.a ++ p.b ++ p.g ++ p.r) := by
  simp only [memReadWord, h.r, h.g, h.b, h.a]
  rfl

theorem holdsPixel_writePixel (m : List Host.Cell) (a : Nat) (p : Pixel) :
    HoldsPixel (memWritePixel m a p) a p := by
  constructor <;> simp [memRead_writePixel]

/-- A pixel is held by every memory that keeps its four bytes. -/
theorem HoldsPixel.of_kept {m m' : List Host.Cell} {a : Nat} {p : Pixel} (h : HoldsPixel m a p)
    (hk : ∀ j, a ≤ j → j < a + 4 → memRead m' j = memRead m j) : HoldsPixel m' a p :=
  ⟨(hk a (by omega) (by omega)).trans h.r, (hk (a + 1) (by omega) (by omega)).trans h.g,
    (hk (a + 2) (by omega) (by omega)).trans h.b, (hk (a + 3) (by omega) (by omega)).trans h.a⟩

/-- A pixel write keeps every byte but its four (42_render.md R195). -/
theorem memRead_writePixel_outside (m : List Host.Cell) {a j : Nat} (p : Pixel)
    (h : j < a ∨ a + 4 ≤ j) : memRead (memWritePixel m a p) j = memRead m j := by
  rw [memRead_writePixel, if_neg (by omega), if_neg (by omega), if_neg (by omega),
    if_neg (by omega)]

/-! ### The bus's answers -/

/-- The bus's answer to pixel write `j` of those to come; one that is not listed is `ok`
(42_render.md R197; entry 11). -/
def answerTo (s : State) (j : Nat) : BusAnswer := s.busAnswers.getD j .ok

theorem answerTo_zero (s : State) : answerTo s 0 = nextAnswer s := by
  unfold answerTo nextAnswer
  cases s.busAnswers <;> rfl

theorem answerTo_busWritePixel (a : Nat) (p : Pixel) (s : State) (j : Nat) :
    answerTo (busWritePixel a p s).1 j = answerTo s (j + 1) := by
  rw [busWritePixel_state]
  unfold answerTo
  cases s.busAnswers <;> rfl

theorem answerTo_eq (s : State) (j : Nat) : answerTo s j = s.busAnswers[j]?.getD .ok :=
  List.getD_eq_getElem?_getD

section
variable {c : Config} {s t : State}

/-! ### One pixel -/

/-- A pixel that the RENDER goes on from has been written, and its write answered `ok`. -/
theorem renderPixel_goOn {i : Nat} (h : renderPixel c i s = .goOn t) :
    ∃ p, colorOf c (gridRead s.grid i) = some p ∧ answeredOk (nextAnswer s) = true ∧
      t = (busWritePixel (renderBase s + 4 * i) p s).1 := by
  rcases renderPixel_cases c i s with ⟨_, e⟩ | ⟨p, hp, ⟨ha, e⟩ | ⟨_, e⟩⟩ <;> cases e.symm.trans h
  exact ⟨p, hp, ha, rfl⟩

/-- A pixel of a legal level is written and gone on from if its write is answered `ok`. -/
theorem renderPixel_of_answeredOk {i : Nat} (hcolor : (colorOf c (gridRead s.grid i)).isSome = true)
    (hans : answeredOk (nextAnswer s) = true) : ∃ t, renderPixel c i s = .goOn t := by
  rcases renderPixel_cases c i s with ⟨hp, _⟩ | ⟨_, _, ⟨_, e⟩ | ⟨ha, _⟩⟩
  · simp [hp] at hcolor
  · exact ⟨_, e⟩
  · simp [ha] at hans

/-! ### The pixels of a RENDER -/

/-- The first pixel written and the rest of a RENDER that gets through. -/
theorem renderPixels_succ_goOn {n i : Nat} (h : renderPixels c (n + 1) i s = .goOn t) :
    ∃ p, colorOf c (gridRead s.grid i) = some p ∧ answeredOk (nextAnswer s) = true ∧
      renderPixels c n (i + 1) (busWritePixel (renderBase s + 4 * i) p s).1 = .goOn t := by
  simp only [renderPixels] at h
  split at h
  · rename_i s' hs'
    obtain ⟨p, hp, ha, rfl⟩ := renderPixel_goOn hs'
    exact ⟨p, hp, ha, h⟩
  · cases h

/-- The pixels all get through if every cell has a colour and every write is answered `ok`. -/
theorem renderPixels_of_answeredOk {n i : Nat}
    (hcolor : ∀ j, j < n → (colorOf c (gridRead s.grid (i + j))).isSome = true)
    (hans : ∀ j, j < n → answeredOk (answerTo s j) = true) :
    ∃ t, renderPixels c n i s = .goOn t := by
  induction n generalizing i s with
  | zero => exact ⟨s, rfl⟩
  | succ n ih =>
    have hfirst := answerTo_zero s ▸ hans 0 (Nat.succ_pos n)
    obtain ⟨u, hu⟩ := renderPixel_of_answeredOk (i := i) (hcolor 0 (Nat.succ_pos n)) hfirst
    obtain ⟨p, _, _, rfl⟩ := renderPixel_goOn hu
    simp only [renderPixels, hu]
    refine ih (fun j hj => ?_) fun j hj => ?_
    · rw [Nat.add_right_comm, Nat.add_assoc]
      exact hcolor (j + 1) (by omega)
    · rw [answerTo_busWritePixel]
      exact hans (j + 1) (by omega)

/-- A RENDER that writes the pixels `i` to `i + n` changes no byte outside of them, however it ends
(42_render.md R195, R197). -/
theorem renderPixels_outside {n i a : Nat} (h : (renderPixels c n i s).answer = .next t)
    (ha : a < renderBase s + 4 * i ∨ renderBase s + 4 * (i + n) ≤ a) :
    memRead t.mem a = memRead s.mem a := by
  induction n generalizing i s with
  | zero => cases h; rfl
  | succ n ih =>
    have hwrite (p : Pixel) : memRead (busWritePixel (renderBase s + 4 * i) p s).1.mem a =
        memRead s.mem a := memRead_writePixel_outside _ _ (by omega)
    simp only [renderPixels] at h
    rcases renderPixel_cases c i s with ⟨_, e⟩ | ⟨p, _, ⟨_, e⟩ | ⟨_, e⟩⟩ <;> rw [e] at h
    · cases h
    · exact (ih h (by simp only [busWritePixel_state, renderBase] at ha ⊢; omega)).trans (hwrite p)
    · cases h
      exact hwrite p

/-- What a RENDER leaves at pixel `j` of the pixels from `i` on: its cell's colour as the bus's
answer to it leaves it (42_render.md R193; 70_reset_and_hazards.md R289). -/
theorem renderPixels_writes {n i j : Nat} (h : renderPixels c n i s = .goOn t) (hj : j < n) :
    ∃ p, colorOf c (gridRead s.grid (i + j)) = some p ∧
      HoldsPixel t.mem (renderBase s + 4 * (i + j)) (landedPixel p (answerTo s j)) := by
  induction n generalizing i j s with
  | zero => omega
  | succ n ih =>
    obtain ⟨p, hp, _, hrest⟩ := renderPixels_succ_goOn h
    cases j with
    | zero =>
      refine ⟨p, hp, ?_⟩
      rw [answerTo_zero]
      refine (holdsPixel_writePixel s.mem _ _).of_kept fun k _ hk => ?_
      exact renderPixels_outside (by rw [hrest]; rfl) (.inl (by
        simp only [busWritePixel_state, renderBase] at hk ⊢; omega))
    | succ j =>
      have hnext := ih (j := j) hrest (by omega)
      rwa [answerTo_busWritePixel, busWritePixel_state, Nat.add_right_comm, Nat.add_assoc] at hnext

/-- The history after the pixels from `i` on: one accepted write each, in ascending order
(20_memory.md R66; 42_render.md R194). -/
theorem renderPixels_log {n i : Nat} (h : renderPixels c n i s = .goOn t) :
    ∃ ps : List Pixel, ps.length = n ∧
      (∀ j (hj : j < ps.length), colorOf c (gridRead s.grid (i + j)) = some ps[j]) ∧
      t.busLog = s.busLog ++ ps.mapIdx fun j p => ⟨renderBase s + 4 * (i + j), p, true⟩ := by
  induction n generalizing i s with
  | zero => cases h; exact ⟨[], rfl, nofun, by simp⟩
  | succ n ih =>
    obtain ⟨p, hp, ha, hrest⟩ := renderPixels_succ_goOn h
    obtain ⟨ps, hlen, hcolor, hlog⟩ := ih hrest
    refine ⟨p :: ps, by simp [hlen], fun j hj => ?_, ?_⟩
    · cases j with
      | zero => exact hp
      | succ j =>
        have hj := hcolor j (by simpa using hj)
        rwa [Nat.add_right_comm, Nat.add_assoc] at hj
    · rw [hlog, busWritePixel_state, ha, List.mapIdx_cons, List.append_assoc]
      simp only [renderBase, Nat.add_right_comm i 1, Nat.add_assoc i, List.singleton_append,
        Nat.add_zero]

/-! ### The command -/

/-- A RENDER that ends with OK had a field, passed its checks and got through its pixels. -/
theorem renderCommand_ok (h : renderCommand c s = .next t) (hok : t.err = .ok) :
    s.cfg = true ∧ RenderLegal c s ∧ ∃ u,
      renderPixels c (fieldCells s - renderPosition s) (renderPosition s) s = .goOn u ∧
      t = finish .ok u := by
  rcases renderCommand_cases c s with
    ⟨_, e⟩ | ⟨_, code, hk, e⟩ | ⟨_, _, _, e⟩ | ⟨hc, hl, u, hu, e⟩ | ⟨_, _, r, hr, e⟩ <;>
    have h := e.symm.trans h
  · cases h; cases hok
  · cases h
    rcases renderCheck_code hk with rfl | rfl | rfl <;> cases hok
  · cases h
  · cases h
    exact ⟨hc, hl, u, hu, rfl⟩
  · obtain ⟨m, ans, log, rfl | rfl⟩ := renderPixels_ended hr <;> cases h
    cases hok


/-- What one piece of a RENDER does to host memory: nothing, or the write of the pixel the cursor is
at (10_state.md R48; 42_render.md R195). -/
theorem renderPiece_mem (h : renderPiece c s = .next t) :
    t.mem = s.mem ∨
    ∃ i p, s.cursor = .render i ∧ i < fieldCells s ∧ RenderLegal c s ∧
      colorOf c (gridRead s.grid i) = some p ∧
      t.mem = memWritePixel s.mem (renderBase s + 4 * i) (landedPixel p (nextAnswer s)) := by
  rw [renderPiece] at h
  rcases renderGuard_cases c s _ with ⟨_, e⟩ | ⟨_, code, _, e⟩ | ⟨_, _, _, e⟩ | ⟨_, hl, e⟩ <;>
    have h := e.symm.trans h
  · cases h; exact .inl rfl
  · cases h; exact .inl rfl
  · cases h
  · cases hcur : s.cursor with
    | idle => rw [hcur] at h; cases h; exact .inl rfl
    | step x y => rw [hcur] at h; cases h; exact .inl rfl
    | render i =>
      simp only [hcur] at h
      split at h
      · rename_i hi
        rcases renderPixel_cases c i s with ⟨_, ep⟩ | ⟨p, hp, ⟨_, ep⟩ | ⟨_, ep⟩⟩ <;> rw [ep] at h <;>
          cases h
        · exact .inr ⟨i, p, rfl, hi, hl, hp, rfl⟩
        · exact .inr ⟨i, p, rfl, hi, hl, hp, rfl⟩
      · cases h; exact .inl rfl

/-- Two aligned words of memory are the same word or share no byte. -/
theorem holdsPixel_or_kept {m : List Host.Cell} {a : Nat} (k : Nat) (p : Pixel) (ha : a % 4 = 0) :
    (∀ j, j < 4 → memRead (memWritePixel m a p) (4 * k + j) = memRead m (4 * k + j)) ∨
    4 * k = a ∧ HoldsPixel (memWritePixel m a p) (4 * k) p := by
  by_cases hk : 4 * k = a
  · exact .inr ⟨hk, hk ▸ holdsPixel_writePixel m a p⟩
  · exact .inl fun j hj => memRead_writePixel_outside m p (by omega)

/-! ### The platform's map -/

theorem rangesOverlap_iff (b₁ n₁ b₂ n₂ : Nat) :
    rangesOverlap b₁ n₁ b₂ n₂ = true ↔
      0 < n₁ ∧ 0 < n₂ ∧ b₁ < b₂ + n₂ ∧ b₂ < b₁ + n₁ := by
  simp only [rangesOverlap, decide_eq_true_eq]
  omega

/-- A range that holds an address of the window or of a device is no plain memory (20_memory.md
R70). -/
theorem outsidePlainMemory_of_mem {base len a : Nat} (hlo : base ≤ a) (hhi : a < base + len)
    (ha : (c.regBase ≤ a ∧ a < c.regBase + 64) ∨
      ∃ d, d ∈ c.devices ∧ d.1 ≤ a ∧ a < d.1 + d.2) :
    outsidePlainMemory c base len = true := by
  simp only [outsidePlainMemory, Bool.or_eq_true, List.any_eq_true, rangesOverlap_iff]
  rcases ha with hwindow | ⟨d, hd, hdevice⟩
  · exact .inl (by omega)
  · exact .inr ⟨d, hd, by omega⟩

end

/-! ### A RENDER against the host's accesses -/

/-- No answer of a bus that fails no write is an error. -/
theorem answeredOk_of_noError {s : State} (h : ∀ a left, a ∈ s.busAnswers → a ≠ .error left)
    (j : Nat) : answeredOk (answerTo s j) = true := by
  rw [answerTo_eq]
  cases ha : s.busAnswers[j]? with
  | none => rfl
  | some a =>
    cases a with
    | ok => rfl
    | raced p => rfl
    | error left => exact absurd rfl (h _ left (List.mem_of_getElem? ha))

/-- What an accepted write leaves of a pixel's colour: the race's draw, or the colour
(70_reset_and_hazards.md R289). -/
theorem landedPixel_of_answeredOk {s : State} {j : Nat} (p : Pixel)
    (h : answeredOk (answerTo s j) = true) :
    s.busAnswers[j]? = some (.raced (landedPixel p (answerTo s j))) ∨
    (∀ l, s.busAnswers[j]? ≠ some (.raced l)) ∧ landedPixel p (answerTo s j) = p := by
  rw [answerTo_eq] at h ⊢
  cases ha : s.busAnswers[j]? with
  | none => exact .inr ⟨nofun, rfl⟩
  | some a =>
    cases a with
    | ok => exact .inr ⟨nofun, rfl⟩
    | raced l => exact .inl rfl
    | error left => rw [ha] at h; cases h

/-- A legal RENDER from its first pixel that the bus does not fail completes with OK
(42_render.md R193). -/
theorem renderCommand_completes {c : Config} {s : State} (hinv : Inv c s) (hc : s.cfg = true)
    (hcur : s.cursor = .idle) (hl : RenderLegal c s)
    (hans : ∀ j, j < fieldCells s → answeredOk (answerTo s j) = true) :
    ∃ u, renderPixels c (fieldCells s) 0 s = .goOn u ∧
      renderCommand c s = .next (finish .ok u) := by
  obtain ⟨u, hu⟩ := renderPixels_of_answeredOk (c := c) (i := 0) (n := fieldCells s)
    (fun j hj => colorOf_isSome c (hinv.levels hc _ (by omega))) hans
  have hpos : renderPosition s = 0 := by simp [renderPosition, hcur]
  refine ⟨u, hu, ?_⟩
  rw [renderCommand_of_legal hc hl, hpos, Nat.sub_zero, hu]
  rfl

/-- A piece of a RENDER that the bus answers `ok` leaves each aligned word as it was, or writes one
pixel whole (20_memory.md R65). -/
theorem renderPiece_word {c : Config} {s t : State} (k : Nat) (h : renderPiece c s = .next t)
    (hans : nextAnswer s = .ok) :
    (∀ j, j < 4 → memRead t.mem (4 * k + j) = memRead s.mem (4 * k + j)) ∨
    ∃ i p, s.cursor = .render i ∧ 4 * k = renderBase s + 4 * i ∧
      colorOf c (gridRead s.grid i) = some p ∧ HoldsPixel t.mem (4 * k) p := by
  rcases renderPiece_mem h with hm | ⟨i, p, hcur, _, hl, hp, hm⟩ <;> rw [hm]
  · exact .inl fun _ _ => rfl
  · obtain ⟨_, halign, _⟩ := renderCheck_none hl.1
    rw [hans]
    rcases holdsPixel_or_kept (m := s.mem) (a := renderBase s + 4 * i) k p (by omega) with
      hkept | ⟨hk, hheld⟩
    · exact .inl hkept
    · exact .inr ⟨i, p, hcur, hk, hp, hheld⟩

/-! ### The statements -/

/-- Settles O35, by what the pixel loop adds to the history. -/
theorem renderWritesInAscendingOrder : Obligations.RenderWritesInAscendingOrder := by
  intro s t _ _ hcur _ h hok
  obtain ⟨_, hl, u, hu, rfl⟩ := renderCommand_ok h hok
  have hpos : renderPosition s = 0 := by simp [renderPosition, hcur]
  obtain ⟨_, halign, _⟩ := renderCheck_none hl.1
  rw [hpos] at hu
  obtain ⟨ps, hlen, hcolor, hlog⟩ := renderPixels_log hu
  simp only [Nat.zero_add] at hcolor hlog
  refine ⟨ps, hlen, fun i hi => ⟨hcolor i hi, ?_⟩, hlog⟩
  have hbase : s.argl0.toNat % 4 = 0 := halign
  omega

/-- Settles O37: the refusal is the guard's answer once its checks have passed. -/
theorem renderOutsidePlainMemoryIsRefused : Obligations.RenderOutsidePlainMemoryIsRefused := by
  intro c s a hc hcheck hlo hhi ha
  have houtside : outsidePlainMemory c (renderBase s) (renderLen s) = true :=
    outsidePlainMemory_of_mem hlo hhi ha
  simp [performCommand, renderCommand, renderGuard, needsField, hc, hcheck, houtside]

/-- Settles O39: the pixels the loop writes, each as the bus's answer leaves it, and the one word a
piece can write. -/
theorem renderAgainstTheHostsAccesses : Obligations.RenderAgainstTheHostsAccesses := by
  refine ⟨fun s hinv hc hcur hl hbus => ?_, fun s t rest k he hd hans h => ?_⟩
  · have hok (j : Nat) := answeredOk_of_noError hbus j
    obtain ⟨u, hu, hrender⟩ := renderCommand_completes hinv hc hcur hl fun j _ => hok j
    refine ⟨u.mem, u.busAnswers, u.busLog, hrender.trans ?_, fun j hj => ?_, fun a ha => ?_⟩
    · rw [renderPixels_frame hu]
      rfl
    · obtain ⟨p, hp, hheld⟩ := renderPixels_writes hu hj
      rw [Nat.zero_add] at hp hheld
      refine ⟨_, hheld.readWord, ?_⟩
      rcases landedPixel_of_answeredOk p (hok j) with hraced | ⟨hquiet, hland⟩
      · exact .inl hraced
      · exact .inr ⟨hquiet, by rw [hland]; exact hp⟩
    · obtain ⟨hlen, _, _⟩ := renderCheck_none hl.1
      have hend : renderLen s = s.argl1.toNat := rfl
      have hstart : renderBase s = s.argl0.toNat := rfl
      exact renderPixels_outside (t := finish .ok u) (by rw [hu]; rfl) (by omega)
  · have hadvance : advanceMove Config.chip { s with events := rest } = .next t :=
      (step_of_event he).symm.trans h
    cases hf : inFlight { s with events := rest } with
    | false =>
      simp only [advanceMove, hf] at hadvance
      cases hadvance
      exact .inl fun _ _ => rfl
    | true =>
      have hpiece : renderPiece Config.chip { s with events := rest } = .next t := by
        simpa [advanceMove, hf, hd] using hadvance
      exact (renderPiece_word k hpiece hans).imp_right fun ⟨i, p, hcur, hk, hp, hheld⟩ =>
        ⟨i, p, hcur, hk, hp, hheld.readWord⟩

end Sys2Proof.Machine

/-! What a step changes of the block's own data and of host memory (20_memory.md R60, R63, R74): the
engine's moves write the cells of the field and the buffer of a RENDER alone, a host agent writes
none of the block's data, and reset is the one other way. -/

namespace Sys2Proof.Machine

section
variable {c : Config} {s t : State}

/-! ### Whose move -/

/-- Everything a move can be, by what it may write: the engine's, reset, or a host agent's, which
writes neither the field, the RNG state, RESULT, ERR nor FATAL, and host memory by its own writes
alone. -/
theorem Move.writer {s₀ : State} {r : Result} (hm : Move c s₀ s r) (hr : r = .next t) :
    (engineMove c s = .next t ∨ advanceMove c s = .next t) ∨
    (∃ landed, (∃ rest, s₀.events = .reset landed :: rest) ∧ t = hardwareReset landed s) ∨
    (t = { s with
        arg0 := t.arg0, arg1 := t.arg1, arg2 := t.arg2, ovr := t.ovr, busy := t.busy,
        cmdl := t.cmdl, argl0 := t.argl0, argl1 := t.argl1, argl2 := t.argl2, cursor := t.cursor,
        mem := t.mem, hostCache := t.hostCache, reply := t.reply, host := t.host } ∧
      (t.mem ≠ s.mem → (∃ a b rest, s₀.events = .memWrite a b :: rest) ∨
        ∃ k v rest, s₀.events = .memWriteWord k v :: rest)) := by
  cases hm with
  | engine => exact .inl (.inl hr)
  | advance => exact .inl (.inr hr)
  | register off v reply host =>
    cases hr
    rw [writeWindow_state]
    exact .inr (.inr ⟨rfl, fun h => absurd rfl h⟩)
  | answer reply host => cases hr; exact .inr (.inr ⟨rfl, fun h => absurd rfl h⟩)
  | store m cache h => cases hr; exact .inr (.inr ⟨rfl, fun _ => h⟩)
  | cache cache => cases hr; exact .inr (.inr ⟨rfl, fun h => absurd rfl h⟩)
  | reset landed h => cases hr; exact .inr (.inl ⟨landed, h, rfl⟩)

/-! ### A command that stays in flight -/

/-- While a command stays in flight the engine writes what a traversal writes, and nothing else
(10_state.md R48). -/
theorem engine_kept (h : engineMove c s = .next t ∨ advanceMove c s = .next t)
    (hb : t.busy = true) :
    t = { s with
      grid := t.grid, rng := t.rng, mem := t.mem, busAnswers := t.busAnswers, busLog := t.busLog,
      cursor := t.cursor } := by
  rcases h.elim .inl advanceMove_answers with h | h
  · rw [eq_of_engineMove_busy h hb]
  · exact h

/-- RESULT, the field's registers, FATAL and ERR keep their values over every move with BUSY 1
before and after it. -/
theorem Move.held {s₀ : State} {r : Result} (hm : Move c s₀ s r) (hr : r = .next t)
    (hb : t.busy = true) : SameRegisters s t ∧ t.err = s.err := by
  rcases hm.writer hr with h | ⟨landed, _, rfl⟩ | ⟨e, _⟩
  · rw [engine_kept h hb]
    exact ⟨⟨rfl, rfl, rfl, rfl, rfl, rfl⟩, rfl⟩
  · cases hb
  · rw [e]
    exact ⟨⟨rfl, rfl, rfl, rfl, rfl, rfl⟩, rfl⟩

/-- A 32-bit write changes an ARG register at its own offset alone (10_state.md R22, R28). -/
theorem writeWindow_args (off : Offset) (v : Word) (s : State) :
    ((writeWindow 4 off v s).arg0 ≠ s.arg0 → off = offArg0) ∧
    ((writeWindow 4 off v s).arg1 ≠ s.arg1 → off = offArg1) ∧
    ((writeWindow 4 off v s).arg2 ≠ s.arg2 → off = offArg2) := by
  have hoff {o : Offset} (h : off.toNat = o.toNat) : off = o := BitVec.eq_of_toNat_eq h
  unfold writeWindow writeRegister
  split
  · rename_i hlegal
    obtain ⟨_, ha⟩ := legalAccess_iff.mp hlegal
    split
    · rcases issueCommand_cases v s with ⟨_, e⟩ | ⟨_, _, e⟩ | ⟨_, _, e⟩ <;> simp [e]
    · simp
    · simpa using fun _ => hoff (o := offArg0) (by simp; omega)
    · simpa using fun _ => hoff (o := offArg1) (by simp; omega)
    · simpa using fun _ => hoff (o := offArg2) (by simp; omega)
    · simp
  · simp

/-- An ARG register changes over a move that leaves BUSY 1 only by a host's write of it
(10_state.md R28). -/
theorem Move.args {s₀ : State} {r : Result} (hm : Move c s₀ s r) (hr : r = .next t)
    (hb : t.busy = true) :
    (t.arg0 ≠ s.arg0 → WritesRegister c s₀ offArg0) ∧
    (t.arg1 ≠ s.arg1 → WritesRegister c s₀ offArg1) ∧
    (t.arg2 ≠ s.arg2 → WritesRegister c s₀ offArg2) := by
  cases hm with
  | engine => rw [engine_frame (.inl hr)]; simp
  | advance => rw [engine_frame (.inr hr)]; simp
  | register off v reply host hw =>
    cases hr
    obtain ⟨h₀, h₁, h₂⟩ := writeWindow_args off v s
    exact ⟨fun h => h₀ h ▸ hw, fun h => h₁ h ▸ hw, fun h => h₂ h ▸ hw⟩
  | answer reply host => cases hr; simp
  | store m cache => cases hr; simp
  | cache cache => cases hr; simp
  | reset landed => cases hr; cases hb

/-! ### The engine -/

/-- Everything a move of the engine can do: a command performed to its end, a source of a STEP
visited, a pixel of a RENDER written, or nothing done to the field, the RNG state and memory. -/
theorem engine_cases (h : engineMove c s = .next t ∨ advanceMove c s = .next t) :
    (∃ i, inFlight s = true ∧ decodeWord s.cmdl = .ok i ∧ performCommand c i s = .next t) ∨
    (inFlight s = true ∧ s.cfg = true ∧ decodeWord s.cmdl = .ok .step ∧
      ∃ p u k, p ∈ remainingSources s ∧ visitSource c p.1 p.2 s = .goOn u ∧ t = atCursor k u) ∨
    (inFlight s = true ∧ decodeWord s.cmdl = .ok .render ∧ RenderLegal c s ∧
      ∃ i u k, i < fieldCells s ∧ renderPixel c i s = .goOn u ∧ t = atCursor k u) ∨
    (t.grid = s.grid ∧ t.rng = s.rng ∧ t.mem = s.mem) := by
  have hengine (h : engineMove c s = .next t) :
      (∃ i, inFlight s = true ∧ decodeWord s.cmdl = .ok i ∧ performCommand c i s = .next t) ∨
      (t.grid = s.grid ∧ t.rng = s.rng ∧ t.mem = s.mem) := by
    rcases engineMove_cases c s with ⟨_, e⟩ | ⟨hflight, i, hd, e⟩ | ⟨_, _, e⟩ <;>
      have h := e.symm.trans h
    · cases h; exact .inr ⟨rfl, rfl, rfl⟩
    · exact .inl ⟨i, hflight, hd, h⟩
    · cases h; exact .inr ⟨rfl, rfl, rfl⟩
  rcases h with h | h
  · exact (hengine h).imp_right fun hsame => .inr (.inr hsame)
  rcases advanceMove_cases c s with
    e | ⟨hflight, hc, hd, p, ps, u, hr, hv, e⟩ |
    ⟨hflight, _, hd, hl, ⟨_, e⟩ | ⟨i, u, _, hi, hv, e⟩⟩ <;> have h := e.symm.trans h
  · exact (hengine h).imp_right fun hsame => .inr (.inr hsame)
  · cases h
    exact .inr (.inl ⟨hflight, hc, hd, p, u, _, hr ▸ List.mem_cons_self .., hv, rfl⟩)
  · cases h
    exact .inr (.inr (.inr ⟨rfl, rfl, rfl⟩))
  · cases h
    exact .inr (.inr (.inl ⟨hflight, hd, hl, i, u, _, hi, hv, rfl⟩))

/-! ### The grid and the RNG state -/

theorem needsField_ok {body : Result} (h : needsField s body = .next t) (hok : t.err = .ok) :
    s.cfg = true ∧ body = .next t := by
  rcases needsField_cases s body with ⟨_, e⟩ | ⟨hc, e⟩ <;> have h := e.symm.trans h
  · cases h; cases hok
  · exact ⟨hc, h⟩

/-- A visit of a cell of the field changes no cell outside of it (41_step.md R165, R169). -/
theorem visitSource_outside {x y i : Nat} (h : visitSource c x y s = .goOn t)
    (hx : x < fieldW s) (hy : y < fieldH s) (hi : fieldCells s ≤ i) :
    gridRead t.grid i = gridRead s.grid i := by
  have hcell := cellAt_lt hx hy
  rcases visitSource_cases c x y s with ⟨_, e⟩ | ⟨_, e⟩ | ⟨_, _, e⟩ <;> cases e.symm.trans h
  · exact (gridRead_write _ (cellAt s x y - fieldW s) i 0).trans (if_neg (by omega))
  · obtain ⟨r, k, d, rng, _, _, hd, e⟩ :=
      spreadHeat_state c (cellAt s x y) (gridRead s.grid (cellAt s x y)) s
    have hdest : d < fieldCells s := hd ▸ clampDest_lt (by omega)
    rw [e]
    exact (gridRead_write ..).trans (if_neg (by omega))

theorem visitAll_outside {ps : List (Nat × Nat)} {i : Nat} (h : visitAll c ps s = .goOn t)
    (hps : ∀ p ∈ ps, p.1 < fieldW s ∧ p.2 < fieldH s) (hi : fieldCells s ≤ i) :
    gridRead t.grid i = gridRead s.grid i := by
  induction ps generalizing s with
  | nil => cases h; rfl
  | cons p ps ih =>
    obtain ⟨⟨hx, hy⟩, hrest⟩ := List.forall_mem_cons.mp hps
    simp only [visitAll] at h
    split at h
    · rename_i u hu
      have hframe := visitSource_frame hu
      have hcells : fieldCells u = fieldCells s := by rw [hframe]; rfl
      have htail := ih h (by rw [hframe]; exact hrest) (by omega)
      exact htail.trans (visitSource_outside hu hx hy hi)
    · cases h

/-- The bottom row lies in the field (40_lifecycle.md R126). -/
theorem lightBottomRow_outside {i : Nat} (hw : 0 < fieldW s) (hh : 0 < fieldH s)
    (hi : fieldCells s ≤ i) : gridRead (lightBottomRow s).grid i = gridRead s.grid i := by
  have hlast : cellAt s (fieldW s - 1) (fieldH s - 1) < fieldCells s :=
    cellAt_lt (by omega) (by omega)
  rw [lightBottomRow_grid, gridRead_fill]
  refine if_neg ?_
  simp only [cellAt] at hlast ⊢
  omega

/-- A command changes a cell of the field it leaves, or none (20_memory.md R63). -/
theorem performCommand_cell {i : Instr} {j : Nat} (hinv : Inv c s)
    (h : performCommand c i s = .next t) (hne : gridRead t.grid j ≠ gridRead s.grid j) :
    (i = .new ∨ i = .ignite ∨ i = .step ∨ i = .poke) ∧ t.cfg = true ∧ j < fieldCells t := by
  obtain ⟨-, -, -, -, -, hgrid, -⟩ := performCommand_next h
  obtain ⟨hi, hok⟩ := hgrid fun e => hne (by rw [e])
  refine ⟨hi, ?_⟩
  rcases hi with rfl | rfl | rfl | rfl
  · rw [newCommand_ok h hok] at hne ⊢
    refine ⟨rfl, Nat.lt_of_not_le fun hj => hne ?_⟩
    exact (gridRead_clear ..).trans (if_neg (Nat.not_lt.mpr hj))
  · obtain ⟨hc, hbody⟩ := needsField_ok h hok
    cases hbody
    refine ⟨hc, Nat.lt_of_not_le fun hj => hne ?_⟩
    exact lightBottomRow_outside (hinv.data.cols_pos hc) (hinv.data.rows_pos hc) hj
  · rcases stepCommand_cases c s with ⟨_, e⟩ | ⟨hc, u, hu, e⟩ | ⟨_, r, hr, e⟩ <;>
      have h := e.symm.trans h
    · cases h; cases hok
    · cases h
      have hframe := visitAll_frame hu
      have hcells : fieldCells u = fieldCells s := by rw [hframe]; rfl
      refine ⟨by rw [hframe]; exact hc, Nat.lt_of_not_le fun hj => hne ?_⟩
      exact visitAll_outside (t := u) hu (fun _ => mem_remainingSources hinv) (hcells ▸ hj)
    · obtain ⟨g, rng, rfl⟩ := visitAll_ended hr
      cases h
  · obtain ⟨hc, hbody⟩ := needsField_ok h hok
    split at hbody
    · cases hbody; cases hok
    · rename_i hlegal
      cases hbody
      refine ⟨hc, Nat.lt_of_not_le fun hj => hne ?_⟩
      have hcell : cellIndex s < fieldCells s := Nat.lt_of_not_le (not_or.mp hlegal).1
      have hj : fieldCells s ≤ j := hj
      exact (gridRead_write ..).trans (if_neg (by omega))

/-- The engine changes a cell of the field it leaves, by a command that writes the grid, or none
(20_memory.md R63). -/
theorem engine_cell {j : Nat} (hinv : Inv c s)
    (h : engineMove c s = .next t ∨ advanceMove c s = .next t)
    (hne : gridRead t.grid j ≠ gridRead s.grid j) :
    inFlight s = true ∧
    (∃ i, decodeWord s.cmdl = .ok i ∧ (i = .new ∨ i = .ignite ∨ i = .step ∨ i = .poke)) ∧
    t.cfg = true ∧ j < fieldCells t := by
  rcases engine_cases h with
    ⟨i, hflight, hd, hp⟩ | ⟨hflight, hc, hd, p, u, k, hmem, hv, rfl⟩ |
    ⟨_, _, _, i, u, k, _, hv, rfl⟩ | ⟨hsame, _⟩
  · obtain ⟨hi, hcell⟩ := performCommand_cell hinv hp hne
    exact ⟨hflight, ⟨i, hd, hi⟩, hcell⟩
  · obtain ⟨hx, hy⟩ := mem_remainingSources hinv hmem
    have hframe := visitSource_frame hv
    have hcells : fieldCells u = fieldCells s := by rw [hframe]; rfl
    refine ⟨hflight, ⟨.step, hd, by simp⟩, by rw [hframe]; exact hc,
      Nat.lt_of_not_le fun hj => hne ?_⟩
    exact visitSource_outside (t := u) hv hx hy (hcells ▸ hj)
  · rw [renderPixel_frame hv] at hne
    exact absurd rfl hne
  · exact absurd (by rw [hsame]) hne

/-- The engine moves the RNG state by NEW and STEP alone (10_state.md R46). -/
theorem engine_rng (h : engineMove c s = .next t ∨ advanceMove c s = .next t)
    (hne : t.rng ≠ s.rng) :
    inFlight s = true ∧ (decodeWord s.cmdl = .ok .new ∨ decodeWord s.cmdl = .ok .step) := by
  rcases engine_cases h with
    ⟨i, hflight, hd, hp⟩ | ⟨hflight, _, hd, _⟩ | ⟨_, _, _, i, u, k, _, hv, rfl⟩ | ⟨_, hsame, _⟩
  · obtain ⟨-, -, -, -, -, -, hrng, -⟩ := performCommand_next hp
    obtain ⟨rfl | rfl, -⟩ := hrng hne
    · exact ⟨hflight, .inl hd⟩
    · exact ⟨hflight, .inr hd⟩
  · exact ⟨hflight, .inr hd⟩
  · rw [renderPixel_frame hv] at hne
    exact absurd rfl hne
  · exact absurd hsame hne

/-! ### Host memory -/

/-- The address lies in the buffer of a RENDER whose checks pass (42_render.md R192). -/
structure InBuffer (c : Config) (s : State) (a : Nat) : Prop where
  legal : RenderLegal c s
  lo : renderBase s ≤ a
  hi : a < renderBase s + renderLen s

/-- The four bytes of a pixel of a legal RENDER lie in its buffer. -/
theorem inBuffer_of_pixel {i a : Nat} (hl : RenderLegal c s) (hi : i < fieldCells s)
    (hlo : renderBase s + 4 * i ≤ a) (hhi : a < renderBase s + 4 * i + 4) : InBuffer c s a := by
  obtain ⟨hlen, _, _⟩ := renderCheck_none hl.1
  exact ⟨hl, by omega, by omega⟩

/-- The engine changes a byte of the buffer of the RENDER in flight, or none (20_memory.md R60,
R62). -/
theorem engine_mem {a : Nat} (h : engineMove c s = .next t ∨ advanceMove c s = .next t)
    (hne : memRead t.mem a ≠ memRead s.mem a) :
    inFlight s = true ∧ decodeWord s.cmdl = .ok .render ∧ InBuffer c s a := by
  rcases engine_cases h with
    ⟨i, hflight, hd, hp⟩ | ⟨_, _, _, p, u, k, _, hv, rfl⟩ |
    ⟨hflight, hd, hl, i, u, k, hi, hv, rfl⟩ | ⟨_, _, hsame⟩
  · obtain ⟨-, -, -, -, -, -, -, hmem, -⟩ := performCommand_next hp
    obtain ⟨rfl, hl, hc, -⟩ := hmem (.inl fun e => hne (by rw [e]))
    have hpixels := (renderCommand_of_legal hc hl).symm.trans hp
    obtain ⟨hlen, _, _⟩ := renderCheck_none hl.1
    have hin := mt (renderPixels_outside (a := a) hpixels) hne
    exact ⟨hflight, hd, hl, by omega, by omega⟩
  · rw [visitSource_frame hv] at hne
    exact absurd rfl hne
  · obtain ⟨p, _, _, rfl⟩ := renderPixel_goOn hv
    have hin := mt (memRead_writePixel_outside (a := renderBase s + 4 * i) (j := a) s.mem
      (landedPixel p (nextAnswer s))) hne
    exact ⟨hflight, hd, inBuffer_of_pixel hl hi (by omega) (by omega)⟩
  · exact absurd (by rw [hsame]) hne

/-- The pixel being written is the one the cursor of a RENDER is at (70_reset_and_hazards.md
R282). -/
theorem pixelInFlight_iff {a : Nat} :
    pixelInFlight s = some a ↔
      ∃ i, s.cursor = .render i ∧ i < fieldCells s ∧ a = renderBase s + 4 * i := by
  have hcells : s.width.toNat * s.height.toNat = fieldCells s := rfl
  have hbase : s.argl0.toNat = renderBase s := rfl
  unfold pixelInFlight
  rw [hcells, hbase]
  cases s.cursor <;> simp [eq_comm]

/-- Reset changes a byte of the pixel being written, or none (70_reset_and_hazards.md R282). -/
theorem memAtReset_mem {landed : Option Pixel} {a : Nat}
    (hne : memRead (memAtReset landed s) a ≠ memRead s.mem a) :
    ∃ i, s.cursor = .render i ∧ i < fieldCells s ∧
      renderBase s + 4 * i ≤ a ∧ a < renderBase s + 4 * i + 4 := by
  unfold memAtReset at hne
  split at hne
  · rename_i b p hb
    obtain ⟨i, hcur, hi, rfl⟩ := pixelInFlight_iff.mp hb
    have hin := mt (memRead_writePixel_outside (a := renderBase s + 4 * i) (j := a) s.mem p) hne
    exact ⟨i, hcur, hi, by omega, by omega⟩
  · exact absurd rfl hne

end

/-! ### The statements -/

/-- Settles O13: while a command stays in flight the engine writes what its traversal writes, and a
host agent writes ARG registers and OVR. -/
theorem registersHoldTheirValuesInFlight : Obligations.RegistersHoldTheirValuesInFlight := by
  intro s t h hbs hbt
  have hmove := nextMove_move Config.chip s
  have hnext := (step_eq s).symm.trans h
  obtain ⟨hsame, herr⟩ := hmove.held hnext hbt
  refine ⟨hsame.result, hsame.width, hsame.height, fun k hk => ?_, hmove.args hnext hbt⟩
  rw [getLsbD_statusWord, getLsbD_statusWord, hbs, hbt, hsame.cfg, hsame.lit, hsame.fatal, herr]
  split
  case h_5 => exact absurd rfl hk
  all_goals rfl

/-- Settles O51: the engine writes cells of the field by four commands, and the RNG state by two. -/
theorem onlyTheirCommandsWriteTheGridAndTheRng :
    Obligations.OnlyTheirCommandsWriteTheGridAndTheRng := by
  intro s t hinv h
  have hinv' : Inv Config.chip { s with events := s.events.tail } := hinv.byHost hinv.mem hinv.cache
  rcases (nextMove_move Config.chip s).writer ((step_eq s).symm.trans h) with
    hengine | ⟨landed, ⟨rest, he⟩, _⟩ | ⟨e, _⟩
  · refine ⟨fun j hne => .inr ?_, fun hne => .inr ?_⟩
    · obtain ⟨hflight, ⟨i, hd, hi⟩, hcell⟩ := engine_cell hinv' hengine hne
      obtain ⟨hb, hf⟩ := inFlight_iff.mp hflight
      refine ⟨?_, hb, hf, hcell⟩
      rcases hi with rfl | rfl | rfl | rfl
      · exact .inl hd
      · exact .inr (.inl hd)
      · exact .inr (.inr (.inl hd))
      · exact .inr (.inr (.inr hd))
    · obtain ⟨hflight, hd⟩ := engine_rng hengine hne
      exact ⟨hd, inFlight_iff.mp hflight⟩
  · exact ⟨fun _ _ => .inl ⟨landed, rest, he⟩, fun _ => .inl ⟨landed, rest, he⟩⟩
  · rw [e]
    exact ⟨fun _ hne => absurd rfl hne, fun hne => absurd rfl hne⟩

/-- Settles O52: the engine writes the buffer of a RENDER, and reset the pixel being written. -/
theorem onlyRenderWritesHostMemory : Obligations.OnlyRenderWritesHostMemory := by
  intro s t hinv h hbyte hword a hne
  have hbuffer {a : Nat} (hin : InBuffer Config.chip s a) :
      s.argl0.toNat ≤ a ∧ a < s.argl0.toNat + s.argl1.toNat ∧
        s.argl1.toNat = s.width.toNat * s.height.toNat * 4 :=
    ⟨hin.lo, hin.hi, (renderCheck_none hin.legal.1).1⟩
  rcases (nextMove_move Config.chip s).writer ((step_eq s).symm.trans h) with
    hengine | ⟨landed, ⟨rest, he⟩, rfl⟩ | ⟨_, hmem⟩
  · obtain ⟨hflight, hd, hin⟩ := engine_mem hengine hne
    obtain ⟨hlo, hhi, hlen⟩ := hbuffer ⟨hin.legal, hin.lo, hin.hi⟩
    exact ⟨hlo, hhi, hlen, .inl ⟨hd, (inFlight_iff.mp hflight).1⟩⟩
  · obtain ⟨i, hcur, hi, hlo, hhi⟩ := memAtReset_mem hne
    obtain ⟨hlo, hhi, hlen⟩ :=
      hbuffer (inBuffer_of_pixel (hinv.renderCursor i hcur).2 hi hlo hhi)
    exact ⟨hlo, hhi, hlen, .inr ⟨landed, rest, i, he, hcur⟩⟩
  · rcases hmem fun e => hne (by rw [e]) with ⟨a, b, rest, he⟩ | ⟨k, v, rest, he⟩
    · exact absurd he (hbyte a b rest)
    · exact absurd he (hword k v rest)

end Sys2Proof.Machine

/-! A host agent's accesses by host address (20_memory.md R60, R64, R65, R69, R78;
70_reset_and_hazards.md R289): what stands at an address, and what each access answers and writes
there. -/

namespace Sys2Proof.Machine

section
variable {c : Config} {s : State} {rest : List Event}

theorem stepUnder_of_event {e : Event} (hw : c.wf = true) (h : s.events = e :: rest) :
    stepUnder c s = respond c e { s with events := rest } := by
  rw [stepUnder, if_pos hw, nextMove_of_event h]

/-! ### What stands at an address -/

theorem inWindow_iff {a : Nat} : inWindow c a = true ↔ c.regBase ≤ a ∧ a < c.regBase + 64 := by
  simp [inWindow]

/-- Plain memory is what stands in the address space outside of the window and the devices
(20_memory.md R69, R70). -/
theorem placeOf_plain {a n : Nat} (hn : 0 < n) (ha : a + n ≤ 2 ^ c.addrBits)
    (hp : outsidePlainMemory c a n = false) : placeOf c a n = .memory := by
  have hoverlap : rangesOverlap a n c.regBase 64 = false := by
    rw [outsidePlainMemory, Bool.or_eq_false_iff] at hp
    exact hp.1
  have hwindow : ¬ inWindow c a = true := fun h => by
    have hin := inWindow_iff.mp h
    have hshare := (rangesOverlap_iff a n c.regBase 64).mpr (by omega)
    simp [hshare] at hoverlap
  have habsent : ¬ 2 ^ c.addrBits < a + n := by omega
  simp [placeOf, hwindow, hoverlap, habsent, hp]

theorem placeOf_offset (n : Nat) {a : Nat} {off : Offset} (h : a = c.regBase + off.toNat) :
    placeOf c a n = .window off := by
  have hlt := off.isLt
  rw [placeOf, if_pos (inWindow_iff.mpr (by omega)), h, Nat.add_sub_cancel_left,
    BitVec.ofNat_toNat, BitVec.setWidth_eq]

/-- A byte in the window is at an offset, and a byte past the address space is nowhere. -/
theorem placeOf_byte_elsewhere {a : Nat}
    (h : (c.regBase ≤ a ∧ a < c.regBase + 64) ∨ 2 ^ c.addrBits ≤ a) :
    (∃ off, placeOf c a 1 = .window off) ∨ placeOf c a 1 = .absent := by
  by_cases hw : inWindow c a = true
  · exact .inl ⟨_, if_pos hw⟩
  · have hbeyond : 2 ^ c.addrBits < a + 1 := by
      have := mt inWindow_iff.mpr hw
      omega
    exact .inr (by simp [placeOf, hw, hbeyond])

/-- A range that shares an address with a device, in the address space and outside of the window, is
the device's (20_memory.md R70; entry 20). -/
theorem placeOf_device {a n : Nat} {d : Nat × Nat} (hd : d ∈ c.devices)
    (hshare : rangesOverlap a n d.1 d.2 = true) (ha : a + n ≤ 2 ^ c.addrBits)
    (hwindow : a + n ≤ c.regBase ∨ c.regBase + 64 ≤ a) : placeOf c a n = .device := by
  have hn := ((rangesOverlap_iff ..).mp hshare).1
  have hin : ¬ inWindow c a = true := fun h => by
    have := inWindow_iff.mp h
    omega
  have hoverlap : ¬ rangesOverlap a n c.regBase 64 = true := fun h => by
    have := (rangesOverlap_iff ..).mp h
    omega
  have habsent : ¬ 2 ^ c.addrBits < a + n := by omega
  have hplain : outsidePlainMemory c a n = true := by
    rw [outsidePlainMemory, Bool.or_eq_true, List.any_eq_true]
    exact .inr ⟨d, hd, hshare⟩
  simp [placeOf, hin, hoverlap, habsent, hplain]

/-! ### What a host agent sees -/

/-- Without a copy to be seen, a host agent sees memory (20_memory.md R78). -/
theorem seenCopy_none {k : Nat} (h : c.coherent = true ∨ storeGet k s.hostCache = none) :
    seenCopy c k s = none := by
  rcases h with h | h <;> simp [seenCopy, h]

theorem seenCopy_some {k : Nat} {w : Word} (hc : c.coherent = false)
    (h : storeGet k s.hostCache = some w) : seenCopy c k s = some w := by
  simp [seenCopy, hc, h]

/-- A copy with one byte replaced, as a byte write leaves it (entry 18). -/
theorem storeGet_changeByte (a : Nat) (b : Byte) (cache : List (Nat × Word)) :
    (∀ k, k ≠ a / 4 →
      storeGet k (changeCopy (a / 4) (fun w => setByteOfWord w (a % 4) b) cache) =
        storeGet k cache) ∧
    (storeGet (a / 4) cache = none →
      storeGet (a / 4) (changeCopy (a / 4) (fun w => setByteOfWord w (a % 4) b) cache) = none) ∧
    (∀ w : Word, storeGet (a / 4) cache = some w →
      ∃ w' : Word,
        storeGet (a / 4) (changeCopy (a / 4) (fun w => setByteOfWord w (a % 4) b) cache) =
          some w' ∧
        ∀ j, j < 4 → byteOfWord w' j = if j = a % 4 then b else byteOfWord w j) := by
  refine ⟨fun k hk => ?_, fun h => by simp [h],
    fun w h => ⟨setByteOfWord w (a % 4) b, by simp [h], fun j hj => ?_⟩⟩
  · rw [storeGet_changeCopy, if_neg hk.symm]
  · exact byteOfWord_set w b (a % 4) hj

/-- A copy replaced whole, as a word write leaves it (entry 18). -/
theorem storeGet_replaceCopy (k j : Nat) (v : Word) (cache : List (Nat × Word)) :
    storeGet j (changeCopy k (fun _ => v) cache) =
      if j = k then (storeGet k cache).map fun _ => v else storeGet j cache := by
  rw [storeGet_changeCopy]
  by_cases hj : j = k
  · subst hj
    rw [if_pos rfl]
  · rw [if_neg hj, if_neg (Ne.symm hj)]

/-! ### Accesses to host memory -/

theorem step_memRead {a : Nat} (hw : c.wf = true) (hp : placeOf c a 1 = .memory)
    (h : s.events = .memRead a :: rest) :
    stepUnder c s = .next { s with events := rest, reply := .byte (hostByte c a s) } := by
  rw [stepUnder_of_event hw h, respond, hostMemRead, hp]
  rfl

theorem step_memWrite {a : Nat} {b : Byte} (hw : c.wf = true) (hp : placeOf c a 1 = .memory)
    (h : s.events = .memWrite a b :: rest) :
    stepUnder c s = .next { hostStore a b { s with events := rest } with reply := .done } := by
  rw [stepUnder_of_event hw h, respond, hostMemWrite, hp]

theorem step_memReadWord {k : Nat} (hw : c.wf = true) (hp : placeOf c (4 * k) 4 = .memory)
    (h : s.events = .memReadWord k :: rest) :
    stepUnder c s = .next { s with events := rest, reply := .word (hostWord c k s) } := by
  rw [stepUnder_of_event hw h, respond, hostMemReadWord, hp]
  rfl

theorem step_memWriteWord {k : Nat} {v : Word} (hw : c.wf = true)
    (hp : placeOf c (4 * k) 4 = .memory) (h : s.events = .memWriteWord k v :: rest) :
    stepUnder c s = .next { hostStoreWord k v { s with events := rest } with reply := .done } := by
  rw [stepUnder_of_event hw h, respond, hostMemWriteWord, hp]

theorem step_cacheFill {k : Nat} (hw : c.wf = true) (hp : placeOf c (4 * k) 4 = .memory)
    (h : s.events = .cacheFill k :: rest) :
    stepUnder c s = .next { s with
      events := rest, hostCache := storePut k (memWord c s.mem k) s.hostCache } := by
  rw [stepUnder_of_event hw h, respond, cacheFill, if_pos hp]

/-- The copies an invalidation leaves: those of the words with no byte in the range (20_memory.md
R78). -/
theorem storeGet_invalidate (base len j : Nat) (cache : List (Nat × Word)) :
    storeGet j (cache.filter fun e => !rangesOverlap (4 * e.1) 4 base len) =
      if 0 < len ∧ base < 4 * j + 4 ∧ 4 * j < base + len then none else storeGet j cache := by
  rw [storeGet_filter fun k => !rangesOverlap (4 * k) 4 base len]
  have hiff := rangesOverlap_iff (4 * j) 4 base len
  by_cases hin : 0 < len ∧ base < 4 * j + 4 ∧ 4 * j < base + len
  · simp [hin, hiff.mpr (by omega)]
  · have hapart : ¬ rangesOverlap (4 * j) 4 base len = true := fun h => hin (by
      have := hiff.mp h
      omega)
    simp [hin, hapart]

/-! ### Accesses elsewhere -/

/-- A word access at an address of the window is the register access at its offset (20_memory.md R69;
10_state.md R22). -/
theorem step_wordInWindow {off : Offset} {k : Nat} {v : Word} (hw : c.wf = true)
    (ha : 4 * k = c.regBase + off.toNat) :
    (s.events = .memReadWord k :: rest →
      stepUnder c s = stepUnder c { s with events := .regRead 4 off :: rest }) ∧
    (s.events = .memWriteWord k v :: rest →
      stepUnder c s = stepUnder c { s with events := .regWrite 4 off v :: rest }) := by
  have hp : placeOf c (4 * k) 4 = .window off := placeOf_offset 4 ha
  refine ⟨fun h => ?_, fun h => ?_⟩
  · rw [stepUnder_of_event hw h, stepUnder_of_event hw rfl]
    simp only [respond, hostMemReadWord, hp]
  · rw [stepUnder_of_event hw h, stepUnder_of_event hw rfl]
    simp only [respond, hostMemWriteWord, hp]

/-- A byte access in the window or past the address space gets a bus error (10_state.md R22;
entry 20). -/
theorem step_byteElsewhere {a : Nat} {b : Byte} (hw : c.wf = true)
    (ha : (c.regBase ≤ a ∧ a < c.regBase + 64) ∨ 2 ^ c.addrBits ≤ a)
    (h : s.events = .memRead a :: rest ∨ s.events = .memWrite a b :: rest) :
    stepUnder c s = .next { s with events := rest, reply := .busError } := by
  rcases h with h | h <;> rw [stepUnder_of_event hw h, respond]
  · rcases placeOf_byte_elsewhere ha with ⟨off, hp⟩ | hp <;> rw [hostMemRead, hp]
    rfl
  · rcases placeOf_byte_elsewhere ha with ⟨off, hp⟩ | hp <;> rw [hostMemWrite, hp]
    rfl

theorem step_wordInDevice {k : Nat} {v : Word} (hw : c.wf = true)
    (hp : placeOf c (4 * k) 4 = .device)
    (h : s.events = .memReadWord k :: rest ∨ s.events = .memWriteWord k v :: rest) :
    stepUnder c s = .next { s with events := rest, reply := .device } := by
  rcases h with h | h <;> rw [stepUnder_of_event hw h, respond]
  · rw [hostMemReadWord, hp]
  · rw [hostMemWriteWord, hp]

end

/-- Settles O16, by what stands at the address: memory, the window, a device or nothing. -/
theorem hostAccessesByAddress : Obligations.HostAccessesByAddress := by
  intro c s rest hw
  refine ⟨fun a ha hplain => ?_, fun k hk hplain => ?_, fun base len h => ?_,
    fun off k v ha => step_wordInWindow hw ha, fun a b ha h => step_byteElsewhere hw ha h,
    fun k v d hd hlo hhi hlen ha hwindow h => ?_⟩
  · have hp : placeOf c a 1 = .memory := placeOf_plain (by decide) ha hplain
    refine ⟨fun h hfresh => ?_, fun w h hc hcopy => ?_, fun b h => ?_⟩
    · rw [step_memRead hw hp h, hostByte, seenCopy_none hfresh]
      rfl
    · rw [step_memRead hw hp h, hostByte, seenCopy_some hc hcopy]
      rfl
    · refine ⟨_, _, step_memWrite hw hp h, fun j => ?_, storeGet_changeByte a b s.hostCache⟩
      simp [eq_comm]
  · have hp : placeOf c (4 * k) 4 = .memory := placeOf_plain (by decide) hk hplain
    refine ⟨fun h hfresh => ?_, fun w h hc hcopy => ?_, fun v h => ?_, fun h => ?_⟩
    · rw [step_memReadWord hw hp h, hostWord, seenCopy_none hfresh]
      rfl
    · rw [step_memReadWord hw hp h, hostWord, seenCopy_some hc hcopy]
    · exact ⟨_, _, step_memWriteWord hw hp h, memReadWord_writeWord _ k v,
        fun j hj => (memRead_writeWord ..).trans (if_neg (by omega)),
        fun j => storeGet_replaceCopy k j v s.hostCache⟩
    · refine ⟨_, step_cacheFill hw hp h, fun j => ?_⟩
      rw [storeGet_put]
      simp only [eq_comm (a := k)]
      rfl
  · exact ⟨_, stepUnder_of_event hw h, fun j => storeGet_invalidate base len j s.hostCache⟩
  · exact step_wordInDevice hw (placeOf_device hd ((rangesOverlap_iff ..).mpr (by omega)) ha hwindow)
      h

end Sys2Proof.Machine

/-! Decoding as the inverse of the opcode map (30_encoding.md R91 to R94), the engine's move by what
the latched word decodes to (R90, R92), and the write of CMD (R90). -/

namespace Sys2Proof.Machine

/-! ### Decoding -/

/-- A word is its two fields (30_encoding.md R91). -/
theorem word_ext {v w : Word} (hrsv : rsvField v = rsvField w) (hop : opField v = opField w) :
    v = w := by
  have hfields (w : Word) : rsvField w ++ opField w = w :=
    (BitVec.extractLsb'_append_extractLsb'_eq_extractLsb' rfl).trans BitVec.extractLsb'_eq_self
  rw [← hfields v, ← hfields w, hrsv, hop]

/-- The opcode map gives a command to its own OP alone (30_encoding.md R93). -/
theorem opField_of_decodeOp {op : BitVec 4} {i : Instr} (h : decodeOp op = .ok i) :
    op = opField (encode i) := by
  unfold decodeOp at h
  split at h <;> cases h <;> exact BitVec.eq_of_toNat_eq ‹_›

/-- OP is reserved where the opcode map gives no command (30_encoding.md R94). -/
theorem opField_of_decodeOp_error {op : BitVec 4} {e : DecodeError} (h : decodeOp op = .error e) :
    op = 0 ∨ 9 ≤ op.toNat := by
  unfold decodeOp at h
  split at h
  case h_9 =>
    simp only [imp_false] at *
    bv_omega
  all_goals cases h

theorem decodeWord_eq_ok_iff {w : Word} {i : Instr} : decodeWord w = .ok i ↔ w = encode i := by
  refine ⟨fun h => ?_, fun h => h ▸ decodeWord_encode i⟩
  unfold decodeWord at h
  split at h
  · cases h
  · rename_i hrsv
    refine word_ext ?_ (opField_of_decodeOp h)
    rw [not_not.mp hrsv]
    cases i <;> rfl

/-- A word that selects no command has RSV not 0 or a reserved OP (30_encoding.md R92, R94). -/
theorem reserved_of_decodeWord_error {w : Word} {e : DecodeError} (h : decodeWord w = .error e) :
    rsvField w ≠ 0 ∨ opField w = 0 ∨ 9 ≤ (opField w).toNat := by
  unfold decodeWord at h
  split at h
  · exact .inl ‹_›
  · exact .inr (opField_of_decodeOp_error h)

/-- Settles O1: decoding is the inverse of the opcode map. -/
theorem commandWordSelectsExactlyOneCommand : Obligations.CommandWordSelectsExactlyOneCommand := by
  intro w
  refine ⟨?_, ?_, ?_, ?_, ?_, ?_, ?_, ?_⟩ <;> exact decodeWord_eq_ok_iff

/-- Settles O3: each row is one closed computation. -/
theorem opcodeTableWordsDecode : Obligations.OpcodeTableWordsDecode := by
  unfold Obligations.OpcodeTableWordsDecode
  decide

/-! ### The engine's move -/

section
variable {c : Config} {s : State} {i : Instr}

/-- The engine performs the command the latched word selects (30_encoding.md R92). -/
theorem engineMove_of_ok (hf : inFlight s = true) (hd : decodeWord s.cmdl = .ok i) :
    engineMove c s = performCommand c i s := by
  simp [engineMove, hf, hd]

/-- A reserved word ends with ILLEGAL (30_encoding.md R92, R94). -/
theorem engineMove_of_error {e : DecodeError} (hf : inFlight s = true)
    (hd : decodeWord s.cmdl = .error e) : engineMove c s = .next (finish .illegal s) := by
  simp [engineMove, hf, hd, raiseError]

theorem stepUnder_of_none (hw : c.wf = true) (h : s.events = []) :
    stepUnder c s = if inFlight s then engineMove c s else .next (hostMove c s) := by
  rw [stepUnder, if_pos hw, nextMove_of_none h]

/-- The engine's step is the decoded command, in its place in the order and where no event is
listed (60_exceptions.md R255; entry 10). -/
theorem stepUnder_performs (hw : c.wf = true) (hf : inFlight s = true)
    (hd : decodeWord s.cmdl = .ok i) :
    (∀ rest, s.events = .engine :: rest →
      stepUnder c s = performCommand c i { s with events := rest }) ∧
    (s.events = [] → stepUnder c s = performCommand c i s) :=
  ⟨fun _ h => (stepUnder_of_event hw h).trans (engineMove_of_ok hf hd),
    fun h => by rw [stepUnder_of_none hw h, if_pos hf, engineMove_of_ok hf hd]⟩

theorem step_execs (hf : inFlight s = true) (hd : decodeWord s.cmdl = .ok i) :
    (∀ rest, s.events = .engine :: rest → step s = exec i { s with events := rest }) ∧
    (s.events = [] → step s = exec i s) := by
  have h := stepUnder_performs chip_wf hf hd
  simp only [performCommand_chip] at h
  exact h

/-- The constraints of 00_scope.md R8, as propositions. -/
theorem config_wf_iff (c : Config) : c.wf = true ↔
    (1 ≤ c.maxCells ∧ c.maxCells ≤ 2 ^ 30 - 1) ∧ 3 * c.maxCells + 2 ≤ 2 ^ c.idxBits ∧
      3 ≤ c.ubits ∧ 6 ≤ c.cellBits ∧ 1 ≤ c.addrBits ∧ c.addrBits ≤ 32 := by
  simp only [Config.wf, Bool.and_eq_true, decide_eq_true_eq, and_assoc]

end

/-- Settles O4, by the engine's move where the latched word selects a command. -/
theorem engineStepRunsTheDecodedCommand : Obligations.EngineStepRunsTheDecodedCommand :=
  ⟨fun _ _ hb hf hd => step_execs (inFlight_iff.mpr ⟨hb, hf⟩) hd,
    fun _ _ _ hw hb hf hd => stepUnder_performs hw (inFlight_iff.mpr ⟨hb, hf⟩) hd,
    performCommand_chip, fun _ => rfl, config_wf_iff, fun _ _ hw => by simp [stepUnder, hw]⟩

/-- Settles O5: the latched word decodes to a command, or is reserved. -/
theorem latchedWordIsPerformedOrIllegal : Obligations.LatchedWordIsPerformedOrIllegal := by
  intro s rest he hb hf
  have hflight : inFlight s = true := inFlight_iff.mpr ⟨hb, hf⟩
  cases hd : decodeWord s.cmdl with
  | ok i => exact .inl ⟨i, decodeWord_eq_ok_iff.mp hd, (step_execs hflight hd).1 rest he⟩
  | error e =>
    refine .inr ⟨reserved_of_decodeWord_error hd, fun i h => ?_, ?_⟩
    · rw [decodeWord_eq_ok_iff.mpr h] at hd
      cases hd
    · exact (step_of_event he).trans (engineMove_of_error hflight hd)

theorem issueCommand_of_idle {w : Word} {s : State} (hf : s.fatal = false) (hb : s.busy = false) :
    issueCommand w s = acceptIssue w s := by
  simp [issueCommand, hf, hb]

/-- Settles O11: the issue by its three grounds, the engine's move by the latched word, and what a
command leaves. -/
theorem commandIssue : Obligations.CommandIssue := by
  refine ⟨fun s rest w h => ?_, fun s hb hf => ?_, fun i s t h => ?_⟩
  · have hw : step s = .next { issueCommand w { s with events := rest } with reply := .done } :=
      step_alignedWrite (by decide) h
    refine ⟨fun hf => ?_, fun hf hb => ?_, fun hf hb => ?_⟩ <;> rw [hw]
    · rw [issueCommand, if_pos hf]
    · rw [issueCommand, if_neg (by simp [hf]), if_pos hb]
    · rw [issueCommand_of_idle (s := { s with events := rest }) hf hb]
      rfl
  · have hflight : inFlight s = true := inFlight_iff.mpr ⟨hb, hf⟩
    cases hd : decodeWord s.cmdl with
    | ok i => exact (engineMove_of_ok hflight hd).trans (performCommand_chip i s)
    | error e => exact engineMove_of_error hflight hd
  · obtain ⟨ht, hcode⟩ := exec_next h
    exact ⟨by rw [ht], hcode⟩

end Sys2Proof.Machine

/-! Host programs (30_encoding.md R98, R99): what each statement does, as the access it stands for
and a move of the host's own fields; the values of expressions (00_scope.md R9); and the run of a
pseudo-instruction. -/

namespace Sys2Proof.Machine

section
variable {c : Config} {s : State} {rest : List Event}

/-! ### The host's move -/

theorem hostMove_of_stmt {st : Stmt} (h : s.host.program[s.host.pc]? = some st) :
    hostMove c s = performStmt c st s := by
  simp [hostMove, h]

theorem hostMove_of_ended (h : s.host.program[s.host.pc]? = none) : hostMove c s = s := by
  simp [hostMove, h]

theorem step_hostStmt {st : Stmt} {t : State} (he : s.events = .host :: rest)
    (h : s.host.program[s.host.pc]? = some st)
    (ht : performStmt Config.chip st { s with events := rest } = t) : step s = .next t := by
  rw [step_of_event he, respond, hostMove_of_stmt (s := { s with events := rest }) h, ht]

/-! ### Statements that access the window -/

@[simp] theorem writeWindow_host (width : Nat) (off : Offset) (v : Word) (s : State) :
    (writeWindow width off v s).host = s.host := by
  rw [writeWindow_state]

/-- The 32 bits of a value that has them (30_encoding.md R98). -/
theorem valueWord_natCast {n : Nat} (h : n < 2 ^ 32) : valueWord c n = BitVec.ofNat 32 n := by
  rw [valueWord, if_pos (by omega), Int.toNat_natCast]

/-- `wr` is the register write of its value. -/
theorem performStmt_wr {off : Offset} {e : Expr} {n : Nat} (he : evalExpr c s.host.names e = n)
    (hn : n < 2 ^ 32) :
    performStmt c (.wr off e) s =
      { writeWindow 4 off (BitVec.ofNat 32 n) s with
        host := { s.host with pc := s.host.pc + 1 } } := by
  rw [performStmt, hostWrite, he, valueWord_natCast hn, hostNext, hostGoto, writeWindow_host]

/-- `rd` at an aligned offset is the register read, its value bound. -/
theorem performStmt_rd {off : Offset} {k : Nat} (h : off.toNat % 4 = 0) :
    performStmt c (.rd off k) s =
      { s with
        reply := .word (registerValue c off s)
        host := ⟨s.host.program, s.host.pc + 1,
          storePut k (registerValue c off s).toNat s.host.names⟩ } := by
  have hl : legalAccess 4 off = true := legalAccess_iff.mpr ⟨rfl, h⟩
  rw [performStmt, hostRead, if_pos hl, readWindow, if_pos hl]
  rfl

/-- `rd` at a misaligned offset gets the bus error and binds nothing (10_state.md R22). -/
theorem performStmt_rd_misaligned {off : Offset} {k : Nat} (h : off.toNat % 4 ≠ 0) :
    performStmt c (.rd off k) s =
      { s with reply := .busError, host := { s.host with pc := s.host.pc + 1 } } := by
  have hl : ¬ legalAccess 4 off = true := fun hl => h (legalAccess_iff.mp hl).2
  rw [performStmt, hostRead, if_neg hl, readWindow, if_neg hl]
  rfl

/-- One round of `wait` is the read of STATUS, and stays while BUSY is 1. -/
theorem performStmt_wait :
    performStmt c .wait s =
      { s with
        reply := .word (statusWord s)
        host := ⟨s.host.program, if s.busy then s.host.pc else s.host.pc + 1,
          storePut nameS (statusWord s).toNat s.host.names⟩ } := rfl

/-! ### Where a goto goes on -/

theorem labelPositions_eq_nil {l : Nat} {program : List Stmt} (i : Nat)
    (h : ∀ q : Nat, program[q]? ≠ some (.label l)) : labelPositions l program i = [] := by
  induction program generalizing i with
  | nil => rfl
  | cons st program ih =>
    have hst : st ≠ .label l := by simpa using h 0
    rw [labelPositions, if_neg hst]
    exact ih (i + 1) fun q => by simpa using h (q + 1)

/-- A label that one statement carries has that statement's position alone. -/
theorem labelPositions_eq_singleton {l p : Nat} {program : List Stmt} (i : Nat)
    (hp : program[p]? = some (.label l)) (h : ∀ q, program[q]? = some (.label l) → q = p) :
    labelPositions l program i = [i + p] := by
  induction program generalizing i p with
  | nil => cases hp
  | cons st program ih =>
    cases p with
    | zero =>
      have hst : st = .label l := by simpa using hp
      have hrest : ∀ q : Nat, program[q]? ≠ some (.label l) := fun q hq =>
        absurd (h (q + 1) (by simpa using hq)) (Nat.succ_ne_zero q)
      rw [labelPositions, if_pos hst, labelPositions_eq_nil _ hrest]
      rfl
    | succ p =>
      have hst : st ≠ .label l := fun hst =>
        absurd (h 0 (by simp [hst])) (Nat.succ_ne_zero p).symm
      rw [labelPositions, if_neg hst, ih (i + 1) (by simpa using hp) fun q hq => by
        simpa using h (q + 1) (by simpa using hq), Nat.add_right_comm, Nat.add_assoc]

theorem labelTarget_of_unique {l p : Nat} {program : List Stmt}
    (hp : program[p]? = some (.label l)) (h : ∀ q, program[q]? = some (.label l) → q = p) :
    labelTarget c l program = p := by
  rw [labelTarget, labelPositions_eq_singleton 0 hp h]
  exact Nat.zero_add p

/-! ### The values of naturals -/

theorem bandValue_natCast (x y : Nat) : bandValue c x y = (x &&& y : Nat) := by
  simp [bandValue]

theorem quotientValue_natCast (x : Nat) {y : Nat} (hy : y ≠ 0) :
    quotientValue c x y = (x / y : Nat) := by
  simp [quotientValue, Nat.pos_of_ne_zero hy]

theorem remainderValue_natCast (x : Nat) {y : Nat} (hy : y ≠ 0) :
    remainderValue c x y = (x % y : Nat) := by
  simp [remainderValue, Nat.pos_of_ne_zero hy]

theorem sliceValue_natCast (x : Nat) {hi lo : Nat} (h : lo ≤ hi) :
    sliceValue c x hi lo = (x / 2 ^ lo % 2 ^ (hi + 1 - lo) : Nat) := by
  simp [sliceValue, h]

theorem bitHolds_natCast (x k : Nat) : bitHolds c x k = true ↔ x / 2 ^ k % 2 = 1 := by
  simp [bitHolds, Nat.testBit_eq_decide_div_mod_eq]

theorem boundValue_of_bound {names : List (Nat × Int)} {k : Nat} {v : Int}
    (h : storeGet k names = some v) : boundValue c names k = v := by
  simp [boundValue, h]

end

/-- Settles O14, by the access each statement stands for. -/
theorem hostStatementsAccessTheWindow : Obligations.HostStatementsAccessTheWindow := by
  intro s rest he
  refine ⟨fun off e n hp hv hn => ?_, fun off k hp ha => ?_, fun off k hp ha => ?_, fun hp => ?_⟩
  · exact ⟨_, step_regWrite rfl, step_hostStmt he hp (performStmt_wr hv hn)⟩
  · exact ⟨_, _, step_alignedRead ha rfl, rfl, step_hostStmt he hp (performStmt_rd ha)⟩
  · exact step_hostStmt he hp (performStmt_rd_misaligned ha)
  · exact ⟨_, step_alignedRead (by decide) rfl, rfl, step_hostStmt he hp performStmt_wait⟩

/-- Settles O15: control flow changes the host's own fields, and the values are those of R9. -/
theorem hostControlFlowMakesNoAccess : Obligations.HostControlFlowMakesNoAccess := by
  refine ⟨fun s rest he => ⟨fun l hp => step_hostStmt he hp rfl, fun cond l p hp hl huniq => ?_,
      fun cond l hp hcond => ?_, fun k e hp => step_hostStmt he hp rfl, fun hp => ?_⟩,
    fun names n k v => ⟨rfl, boundValue_of_bound⟩, fun names a b x y ha hb => ?_,
    fun names a b x y hi lo k ha hb => ?_⟩
  · refine step_hostStmt he hp ?_
    rw [performStmt, hostBranch, labelTarget_of_unique hl huniq]
    split <;> rfl
  · refine step_hostStmt he hp ?_
    rw [performStmt, hostBranch, if_neg (by simp [hcond])]
    rfl
  · exact (step_of_event he).trans (congrArg Host.Outcome.next (hostMove_of_ended hp))
  · subst ha hb
    exact ⟨rfl, rfl, rfl, decide_eq_true_iff, decide_eq_true_iff⟩
  · simp only [evalExpr, evalCond, ha, hb]
    exact ⟨bandValue_natCast x y,
      fun hy => ⟨quotientValue_natCast x hy, remainderValue_natCast x hy⟩,
      fun h => sliceValue_natCast x h, bitHolds_natCast x k⟩

/-! ### The run of a host program -/

section
variable {s t : State}

/-- A run of one step more starts with that step. -/
theorem run_succ_of_step {k : Nat} {P : State → Prop} (h : step s = .next t)
    (hrun : ∃ u, Host.Core.run core k t = .next u ∧ P u) :
    ∃ u, Host.Core.run core (k + 1) s = .next u ∧ P u := by
  have hcore : core.step s = .next t := h
  simpa only [Host.Core.run, hcore] using hrun

/-- With no event listed and no command in flight the host performs its next statement
(entry 10). -/
theorem step_idleStmt {st : Stmt} (he : s.events = []) (hb : s.busy = false)
    (h : s.host.program[s.host.pc]? = some st) :
    step s = .next (performStmt Config.chip st s) := by
  rw [step_of_none he, if_neg (by simp [inFlight, hb]), hostMove_of_stmt h]

variable {program : List Stmt} {pc n r : Nat} {names : List (Nat × Int)} {i : Instr}
  (he : s.events = []) (hb : s.busy = false) (hh : s.host = ⟨program, pc, names⟩)
include he hb hh

/-- The host writes ARG0 (10_state.md R28). -/
theorem step_wrArg0 (hp : program[pc]? = some (.wr offArg0 (.num n))) (hn : n < 2 ^ 32) :
    step s = .next { s with
      arg0 := BitVec.ofNat 32 n, reply := .done, host := ⟨program, pc + 1, names⟩ } := by
  rw [step_idleStmt he hb (by rw [hh]; exact hp), performStmt_wr rfl hn, hh]
  rfl

/-- The host issues a command, and the block accepts it (30_encoding.md R90). -/
theorem step_mnemonic (hp : program[pc]? = some (mnemonicStmt i)) (hf : s.fatal = false) :
    step s = .next { acceptIssue (encode i) s with
      reply := .done, host := ⟨program, pc + 1, names⟩ } := by
  have hissue : writeWindow 4 offCmd (encode i) s =
      { acceptIssue (encode i) s with reply := .done } := by
    rw [← issueCommand_of_idle hf hb]
    rfl
  rw [step_idleStmt he hb (by rw [hh]; exact hp), mnemonicStmt, performStmt_wr rfl (encode i).isLt,
    BitVec.ofNat_toNat, BitVec.setWidth_eq, hissue, hh]

/-- A `wait` with no command in flight goes on, with STATUS bound. -/
theorem step_wait (hp : program[pc]? = some .wait) :
    step s = .next { s with
      reply := .word (statusWord s)
      host := ⟨program, pc + 1, storePut nameS (statusWord s).toNat names⟩ } := by
  rw [step_idleStmt he hb (by rw [hh]; exact hp), performStmt_wait, hb, hh]
  rfl

/-- The host reads RESULT (10_state.md R29). -/
theorem step_rdResult (hp : program[pc]? = some (.rd offResult r)) :
    step s = .next { s with
      reply := .word s.result
      host := ⟨program, pc + 1, storePut r s.result.toNat names⟩ } := by
  rw [step_idleStmt he hb (by rw [hh]; exact hp), performStmt_rd rfl, hh]
  rfl

end

/-- The engine reads a cell of the field (43_debug.md R221). -/
theorem step_peek {s : State} (he : s.events = []) (hf : inFlight s = true)
    (hw : s.cmdl = encode .peek) (hc : s.cfg = true) (hi : cellIndex s < fieldCells s) :
    step s = .next (finish .ok
      { s with result := BitVec.ofNat 32 (gridRead s.grid (cellIndex s)) }) := by
  rw [(step_execs hf (decodeWord_eq_ok_iff.mpr hw)).2 he, ← performCommand_chip, performCommand,
    execPeek, needsField, if_pos hc, if_neg (Nat.not_le.mpr hi), completeOk]

/-- Settles O44, by the five steps of the run: ARG0 written, PEEK issued, PEEK performed, BUSY read
as 0, and RESULT read. -/
theorem pseudoPeekBindsTheCellsLevel : Obligations.PseudoPeekBindsTheCellsLevel := by
  intro s i r hinv he hb hf hc hprog hpc hi hcell
  have hh : s.host = ⟨pseudoPeek (.num i) r, 0, s.host.names⟩ := by rw [← hprog, ← hpc]
  have hindex : (BitVec.ofNat 32 i).toNat = i := by rw [BitVec.toNat_ofNat, Nat.mod_eq_of_lt hi]
  have hlevel : gridRead s.grid i < 2 ^ 32 :=
    Nat.lt_of_le_of_lt (hinv.levels hc i hcell) (by decide)
  have hbound (names : List (Nat × Int)) : storeGet r (storePut r
      ((BitVec.ofNat 32 (gridRead s.grid (BitVec.ofNat 32 i).toNat)).toNat : Int) names) =
        some (gridRead s.grid i : Int) := by
    rw [storeGet_put, if_pos rfl, hindex, BitVec.toNat_ofNat, Nat.mod_eq_of_lt hlevel]
  refine run_succ_of_step (step_wrArg0 he hb hh rfl hi) ?_
  refine run_succ_of_step (step_mnemonic (i := .peek) he hb rfl rfl hf) ?_
  refine run_succ_of_step
    (step_peek he (inFlight_iff.mpr ⟨rfl, hf⟩) rfl hc (hindex.trans_lt hcell)) ?_
  refine run_succ_of_step (step_wait he rfl rfl rfl) ?_
  exact run_succ_of_step (step_rdResult he rfl rfl rfl)
    ⟨_, rfl, hbound _, rfl, rfl, rfl, rfl, rfl⟩

end Sys2Proof.Machine

/-! What the lifecycle commands NEW, IGNITE, EXTINGUISH and ISLIT leave, with a field and without
(40_lifecycle.md R121 to R135): the answer of each, and the cells of the grid that the first two
write. -/

namespace Sys2Proof.Machine

section
variable {s : State}

/-! ### The answer of each command -/

/-- NEW with legal latched dimensions builds the field (40_lifecycle.md R121). -/
theorem exec_new_of_legal (hw : 1 ≤ s.argl0.toNat) (hh : 1 ≤ s.argl1.toNat)
    (hcells : s.argl0.toNat * s.argl1.toNat ≤ Config.chip.maxCells) :
    exec .new s = .next (finish .ok (buildField Config.chip s)) :=
  if_pos ((legalDims_iff ..).mpr ⟨hw, hh, hcells⟩)

/-- NEW with any other latched dimensions ends with DIM (40_lifecycle.md R122). -/
theorem exec_new_of_illegal (h : s.argl0.toNat = 0 ∨ s.argl1.toNat = 0 ∨
      Config.chip.maxCells < s.argl0.toNat * s.argl1.toNat) :
    exec .new s = .next (finish .dim s) := by
  refine if_neg fun hlegal => ?_
  obtain ⟨hw, hh, hcells⟩ := (legalDims_iff ..).mp hlegal
  rcases h with h | h | h
  · exact Nat.ne_of_gt hw h
  · exact Nat.ne_of_gt hh h
  · exact Nat.not_lt_of_le hcells h

theorem exec_ignite_of_field (hc : s.cfg = true) :
    exec .ignite s = .next (finish .ok (lightBottomRow s)) := if_pos hc

theorem exec_extinguish_of_field (hc : s.cfg = true) :
    exec .extinguish s = .next (finish .ok { s with lit := false }) := if_pos hc

theorem exec_islit_of_field (hc : s.cfg = true) :
    exec .islit s = .next (finish .ok { s with result := bitWord s.lit }) := if_pos hc

/-- One bit, zero-extended, is 1 or 0 (00_scope.md R10). -/
theorem bitWord_eq (b : Bool) : bitWord b = if b then 0x00000001 else 0x00000000 := by
  cases b <;> rfl

/-! ### The bottom row -/

/-- The cells of a lit bottom row hold 36, and every other cell what it held (40_lifecycle.md
R126). -/
theorem gridRead_lightBottomRow (s : State) (i : Nat) :
    gridRead (lightBottomRow s).grid i =
      if (fieldH s - 1) * fieldW s ≤ i ∧ i < (fieldH s - 1) * fieldW s + fieldW s then 36
      else gridRead s.grid i := gridRead_fill ..

/-- Lighting a lit bottom row again changes nothing: the two grids are canonical and read the same
(40_lifecycle.md R127). -/
theorem lightBottomRow_twice {c : Config} (h : DataSound c s) (hw : c.wf = true)
    (hc : s.cfg = true) : lightBottomRow (lightBottomRow s) = lightBottomRow s := by
  have hone := lightBottomRow_sound h hw hc
  have htwo := lightBottomRow_sound hone hw hc
  have hgrid : (lightBottomRow (lightBottomRow s)).grid = (lightBottomRow s).grid := by
    refine grid_ext htwo.grid hone.grid fun i => ?_
    rw [gridRead_lightBottomRow (lightBottomRow s)]
    exact ite_eq_right_iff.mpr fun hi => ((gridRead_lightBottomRow s i).trans (if_pos hi)).symm
  calc lightBottomRow (lightBottomRow s)
      = { lightBottomRow s with grid := (lightBottomRow (lightBottomRow s)).grid } := rfl
    _ = lightBottomRow s := by rw [hgrid]

/-- IGNITE on the state an IGNITE has left answers that state (40_lifecycle.md R127). -/
theorem exec_ignite_twice (h : Inv Config.chip s) (hc : s.cfg = true) :
    exec .ignite (finish .ok (lightBottomRow s)) = .next (finish .ok (lightBottomRow s)) :=
  calc exec .ignite (finish .ok (lightBottomRow s))
      = .next (finish .ok (lightBottomRow (lightBottomRow s))) := exec_ignite_of_field hc
    _ = .next (finish .ok (lightBottomRow s)) := by rw [lightBottomRow_twice h.data chip_wf hc]

/-- A cell of column `x` lies in the cells of row `k` exactly if its row is `k` (10_state.md
R40). -/
theorem cellAt_mem_row_iff {x y k : Nat} (hx : x < fieldW s) :
    k * fieldW s ≤ cellAt s x y ∧ cellAt s x y < k * fieldW s + fieldW s ↔ y = k := by
  have hrow : cellAt s x y / fieldW s = y := by
    rw [cellAt, Nat.mul_comm, Nat.mul_add_div (by omega), Nat.div_eq_of_lt hx, Nat.add_zero]
  rw [← Nat.succ_mul, ← Nat.le_div_iff_mul_le (by omega), ← Nat.div_lt_iff_lt_mul (by omega), hrow]
  omega

end

/-! ### The statements -/

/-- Settles O17, by NEW's two answers and the cells that its clear keeps. -/
theorem newBuildsAZeroedField : Obligations.NewBuildsAZeroedField := by
  refine fun s => ⟨fun hw hh hcells => ⟨_, exec_new_of_legal hw hh hcells, fun i hi => ?_,
    fun i hi => ?_⟩, exec_new_of_illegal⟩
  · exact (gridRead_clear ..).trans (if_pos hi)
  · exact (gridRead_clear ..).trans (if_neg (Nat.not_lt_of_le hi))

/-- Settles O19: with a field the second IGNITE lights a lit row, and without one it ends with the
same NOCFG. -/
theorem igniteIsIdempotent : Obligations.IgniteIsIdempotent := by
  refine ⟨fun s t hinv h => ?_, fun s hinv hc =>
    ⟨_, exec_ignite_of_field hc, rfl, rfl, exec_ignite_twice hinv hc⟩⟩
  cases hc : s.cfg with
  | false =>
    cases (exec_noField (by decide) hc).symm.trans h
    exact exec_noField (by decide) hc
  | true =>
    cases (exec_ignite_of_field hc).symm.trans h
    exact exec_ignite_twice hinv hc

/-- Settles O20: IGNITE lights the last row of the field NEW has cleared. -/
theorem newThenIgniteLightsOneRow : Obligations.NewThenIgniteLightsOneRow := by
  intro s hw hh hcells
  refine ⟨_, _, exec_new_of_legal hw hh hcells, exec_ignite_of_field rfl, fun x y hx hy => ?_⟩
  have hclear : gridRead (buildField Config.chip s).grid
      (cellAt (buildField Config.chip s) x y) = 0 :=
    (gridRead_clear ..).trans (if_pos (cellAt_lt hx hy))
  calc gridRead (lightBottomRow (buildField Config.chip s)).grid
          (cellAt (buildField Config.chip s) x y)
      = if y = s.argl1.toNat - 1 then 36
        else gridRead (buildField Config.chip s).grid (cellAt (buildField Config.chip s) x y) :=
        (gridRead_lightBottomRow ..).trans (if_congr (cellAt_mem_row_iff hx) rfl rfl)
    _ = if y = s.argl1.toNat - 1 then 36 else 0 := by rw [hclear]

/-- Settles O21: EXTINGUISH writes `lit` alone, on the state an IGNITE has left too. -/
theorem extinguishClearsLitOnly : Obligations.ExtinguishClearsLitOnly := by
  refine ⟨fun s => ⟨exec_extinguish_of_field, exec_noField (by decide)⟩, fun s t hc h => ?_⟩
  cases (exec_ignite_of_field hc).symm.trans h
  exact ⟨rfl, exec_extinguish_of_field hc⟩

/-- Settles O18, by the cells of the bottom row. -/
theorem igniteLightsTheBottomRow : Obligations.IgniteLightsTheBottomRow := by
  refine fun s => ⟨fun hc => ⟨_, exec_ignite_of_field hc, fun x hx => ?_, fun i hi => ?_⟩,
    exec_noField (by decide)⟩
  · exact (gridRead_lightBottomRow ..).trans
      (if_pos ⟨Nat.le_add_right .., Nat.add_lt_add_left hx _⟩)
  · exact (gridRead_lightBottomRow ..).trans
      (if_neg fun ⟨hlo, hhi⟩ => hi.elim (Nat.not_lt_of_le hlo) (Nat.not_le_of_lt hhi))

/-- Settles O22: RESULT gets the one bit, zero-extended. -/
theorem islitReadsLit : Obligations.IslitReadsLit := by
  refine fun s => ⟨fun hc => ?_, exec_noField (by decide)⟩
  rw [exec_islit_of_field hc, bitWord_eq]
  rfl

/-- Settles O23: ISLIT answers 1 exactly if `lit` is 1, and the command chosen writes the other
value. -/
theorem toggleFlipsLit : Obligations.ToggleFlipsLit := by
  intro s hc
  have hislit := exec_islit_of_field hc
  cases hl : s.lit with
  | true =>
    rw [hl] at hislit
    exact ⟨_, _, hislit, exec_extinguish_of_field hc, rfl⟩
  | false =>
    rw [hl] at hislit
    exact ⟨_, _, hislit, exec_ignite_of_field hc, rfl⟩

end Sys2Proof.Machine

/-! What a STEP computes (41_step.md R151 to R174). A visit of a source is the reference tick's, by
the signed form of its destination (R167), so the traversal is the reference tick's too; and a level
above 36 halts a STEP or a RENDER with the visits or the pixels before it kept. -/

namespace Sys2Proof.Machine

/-! ### Draws and destinations -/

/-- The rows the heat moves up and the RNG state after their choice, as the reference tick takes
them: one row without a draw when Lit, a second draw when Unlit (41_step.md R161 to R163). -/
def refRows (c : Config) (lit : Bool) (rng : Nat) : Nat × Nat :=
  if lit then (1, rng) else refDraw c rng

/-- The destination in its signed form, in a field of `n` cells and width `w` (41_step.md R167). -/
def signedDest (n w src r k : Nat) : Nat :=
  let d : Int := (src : Int) - r + 1 - w * k
  if d < 0 ∨ (n : Int) - 1 < d then n - 1 else d.toNat

section
variable {c : Config} {s t : State}

theorem drawDrift_eq_refDraw (c : Config) (s : State) :
    (drawDrift c s).1.toNat = (refDraw c s.rng).1 ∧
      (drawDrift c s).2 = { s with rng := (refDraw c s.rng).2 } := by
  rw [refDraw_eq]
  exact ⟨rfl, rfl⟩

theorem drawRows_eq_refRows (c : Config) (s : State) :
    drawRows c s = ((refRows c s.lit s.rng).1, { s with rng := (refRows c s.lit s.rng).2 }) := by
  obtain ⟨hdrift, hstate⟩ := drawDrift_eq_refDraw c s
  unfold drawRows refRows
  split
  · rfl
  · exact Prod.ext hdrift hstate

theorem refRows_of_lit {lit : Bool} {rng : Nat} (h : lit = true) :
    refRows c lit rng = (1, rng) := if_pos h

theorem refRows_of_unlit {lit : Bool} {rng : Nat} (h : lit = false) :
    refRows c lit rng = refDraw c rng := by
  rw [refRows, h]
  rfl

theorem refDraw_le (c : Config) (rng : Nat) : (refDraw c rng).1 ≤ 3 := by
  simp only [refDraw]
  split_ifs <;> omega

theorem refRows_le (c : Config) (lit : Bool) (rng : Nat) : (refRows c lit rng).1 ≤ 3 := by
  cases lit
  · exact refDraw_le c rng
  · exact Nat.le_add_left 1 2

theorem signedDest_lt {n : Nat} (hn : 0 < n) (w src r k : Nat) : signedDest n w src r k < n := by
  simp only [signedDest]
  split <;> omega

/-- Under the constraint on `IDX_BITS` a destination below 0 wraps to an index above the field, and
no other wraps, so the wrap and the clamp give the signed form (41_step.md R167; 00_scope.md R8). -/
theorem clampDest_wrappedDest {n w src r k : Nat} (hw : c.wf = true) (hn : n ≤ c.maxCells)
    (hrow : w ≤ src) (hsrc : src < n) (hr : r ≤ 3) (hk : k ≤ 3) :
    clampDest (n - 1) (wrappedDest c w src r k) = signedDest n w src r k := by
  obtain ⟨_, hidx, _⟩ := (config_wf_iff c).mp hw
  have hmod : ((2 ^ c.idxBits : Nat) : Int) = 2 ^ c.idxBits := Int.natCast_pow 2 _
  have hrows : (w : Int) * k ≤ 3 * w := by
    rw [Int.mul_comm]
    exact Int.mul_le_mul_of_nonneg_right (by omega) (Int.natCast_nonneg w)
  have hrows_nonneg : 0 ≤ (w : Int) * k := Int.mul_nonneg (by omega) (by omega)
  simp only [clampDest, wrappedDest, signedDest, ← hmod]
  generalize 2 ^ c.idxBits = p at hidx
  generalize (w : Int) * k = up at hrows hrows_nonneg
  by_cases hneg : (src : Int) - r + 1 - up < 0
  · have hwrap : ((src : Int) - r + 1 - up) % (p : Int) = (src : Int) - r + 1 - up + p := by
      rw [← Int.add_emod_right, Int.emod_eq_of_lt (by omega) (by omega)]
    rw [hwrap, if_pos (by omega), if_pos (.inl hneg)]
  · rw [Int.emod_eq_of_lt (by omega) (by omega)]
    split <;> split <;> omega

/-! ### A visit -/

theorem gridRead_gridWrite (g : List (Nat × Nat)) (i v : Nat) :
    gridRead (gridWrite g i v) = fun j => if j = i then v else gridRead g j := by
  funext j
  rw [gridRead_write]
  exact if_congr eq_comm rfl rfl

/-- A source of the traversal: a cell of the field outside of row 0 (41_step.md R152, R153). -/
def IsSource (s : State) (p : Nat × Nat) : Prop := p.1 < fieldW s ∧ 1 ≤ p.2 ∧ p.2 < fieldH s

theorem fieldW_le_cellAt (s : State) (x : Nat) {y : Nat} (hy : 1 ≤ y) : fieldW s ≤ cellAt s x y :=
  calc fieldW s ≤ y * fieldW s := Nat.le_mul_of_pos_left _ hy
    _ ≤ cellAt s x y := Nat.le_add_right ..

theorem IsSource.cell_lt {p : Nat × Nat} (h : IsSource s p) : cellAt s p.1 p.2 < fieldCells s :=
  cellAt_lt h.1 h.2.2

theorem IsSource.row_above {p : Nat × Nat} (h : IsSource s p) : fieldW s ≤ cellAt s p.1 p.2 :=
  fieldW_le_cellAt s p.1 h.2.1

theorem isSource_of_mem_remainingSources (h : Inv c s) {p : Nat × Nat}
    (hp : p ∈ remainingSources s) : IsSource s p := by
  refine mem_sweepFrom ?_ hp
  cases hcur : s.cursor with
  | step x y => simpa only [stepPosition, hcur] using h.stepCursor x y hcur
  | idle => simp only [stepPosition, hcur, le_refl]
  | render i => simp only [stepPosition, hcur, le_refl]

/-- A level above 36 at a source halts the block (41_step.md R173). -/
theorem visitSource_of_illegal {x y : Nat} (h : maxLevel < gridRead s.grid (cellAt s x y)) :
    visitSource c x y s = .ended (raiseFatal s) := if_pos h

/-- A zero source clears the cell one row up (41_step.md R155). -/
theorem visitSource_of_zero {x y : Nat} (h : gridRead s.grid (cellAt s x y) = 0) :
    visitSource c x y s =
      .goOn { s with grid := gridWrite s.grid (cellAt s x y - fieldW s) 0 } := by
  rcases visitSource_cases c x y s with ⟨h', _⟩ | ⟨_, e⟩ | ⟨_, h', _⟩
  · omega
  · exact e
  · exact absurd h h'

/-- A non-zero source makes its draws and writes its decayed level to its destination (41_step.md
R156, R160 to R167). -/
theorem spreadHeat_eq {src : Nat} (v : Nat) (hw : c.wf = true) (hcells : fieldCells s ≤ c.maxCells)
    (hrow : fieldW s ≤ src) (hsrc : src < fieldCells s) :
    spreadHeat c src v s =
      let draw := refDraw c s.rng
      let rows := refRows c s.lit draw.2
      { s with
        grid := gridWrite s.grid (signedDest (fieldCells s) (fieldW s) src draw.1 rows.1)
          (v - draw.1 % 2)
        rng := rows.2 } := by
  obtain ⟨hdrift, hstate⟩ := drawDrift_eq_refDraw c s
  simp only [spreadHeat, drawRows_eq_refRows, hstate, hdrift, decayed_eq]
  rw [clampDest_wrappedDest hw hcells hrow hsrc (refDraw_le ..) (refRows_le ..)]

theorem visitSource_of_nonzero {p : Nat × Nat} (hw : c.wf = true) (h : DataSound c s)
    (hc : s.cfg = true) (hp : IsSource s p) (hv : gridRead s.grid (cellAt s p.1 p.2) ≠ 0) :
    visitSource c p.1 p.2 s =
      let draw := refDraw c s.rng
      let rows := refRows c s.lit draw.2
      .goOn { s with
        grid := gridWrite s.grid
          (signedDest (fieldCells s) (fieldW s) (cellAt s p.1 p.2) draw.1 rows.1)
          (gridRead s.grid (cellAt s p.1 p.2) - draw.1 % 2)
        rng := rows.2 } := by
  rcases visitSource_cases c p.1 p.2 s with ⟨hle, _⟩ | ⟨h', _⟩ | ⟨_, _, e⟩
  · exact absurd (h.levels hc _ hp.cell_lt) (Nat.not_le_of_lt hle)
  · exact absurd h' hv
  · rw [e, spreadHeat_eq _ hw (h.cells_le hc) hp.row_above hp.cell_lt]

end

/-! ### The reference tick -/

/-- The reference tick's visit of the cell (x, y). -/
def refVisit (c : Config) (lit : Bool) (w h : Nat) (gr : (Nat → Nat) × Nat) (p : Nat × Nat) :
    (Nat → Nat) × Nat :=
  refCell (refDraw c) lit w h (p.2 * w + p.1) gr

theorem refCell_of_zero {c : Config} {lit : Bool} {w h src : Nat} {gr : (Nat → Nat) × Nat}
    (hv : gr.1 src = 0) :
    refCell (refDraw c) lit w h src gr = (fun i => if i = src - w then 0 else gr.1 i, gr.2) :=
  if_pos hv

theorem refCell_of_nonzero {c : Config} {lit : Bool} {w h src : Nat} {gr : (Nat → Nat) × Nat}
    (hv : gr.1 src ≠ 0) :
    refCell (refDraw c) lit w h src gr =
      let draw := refDraw c gr.2
      let rows := refRows c lit draw.2
      (fun i => if i = signedDest (w * h) w src draw.1 rows.1 then gr.1 src - draw.1 % 2
        else gr.1 i, rows.2) :=
  if_neg hv

/-- A visit of the reference tick raises no level above a bound on the field's levels (41_step.md
R155, R160). -/
theorem refVisit_le {c : Config} {lit : Bool} {w h n m : Nat} {gr : (Nat → Nat) × Nat}
    {p : Nat × Nat} (hgr : ∀ i, i < n → gr.1 i ≤ m) (hp : p.2 * w + p.1 < n) :
    ∀ i, i < n → (refVisit c lit w h gr p).1 i ≤ m := by
  intro i hi
  have hwrite (d v : Nat) (hv : v ≤ m) : (if i = d then v else gr.1 i) ≤ m := by
    split
    · exact hv
    · exact hgr i hi
  by_cases hv : gr.1 (p.2 * w + p.1) = 0
  · rw [refVisit, refCell_of_zero hv]
    exact hwrite _ _ (Nat.zero_le m)
  · rw [refVisit, refCell_of_nonzero hv]
    exact hwrite _ _ ((Nat.sub_le ..).trans (hgr _ hp))

theorem foldl_refVisit_le {c : Config} {lit : Bool} {w h n m : Nat} {gr : (Nat → Nat) × Nat}
    {ps : List (Nat × Nat)} (hgr : ∀ i, i < n → gr.1 i ≤ m)
    (hps : ∀ p ∈ ps, p.2 * w + p.1 < n) :
    ∀ i, i < n → (ps.foldl (refVisit c lit w h) gr).1 i ≤ m := by
  induction ps generalizing gr with
  | nil => exact hgr
  | cons p ps ih =>
    obtain ⟨hp, hrest⟩ := List.forall_mem_cons.mp hps
    exact ih (refVisit_le hgr hp) hrest

/-- The traversal from its first source, column by column (41_step.md R152). -/
theorem sweepFrom_start (w h : Nat) :
    sweepFrom w h 0 1 = (List.range w).flatMap fun x => columnFrom h x 1 := by
  cases w with
  | zero => rfl
  | succ w =>
    rw [sweepFrom, if_pos w.succ_pos, List.range_eq_range', List.range'_succ, List.flatMap_cons]
    rfl

/-- The visits of the traversal in order make the reference tick (41_step.md R151, R152). -/
theorem foldl_refVisit_sweepFrom (c : Config) (lit : Bool) (w h : Nat) (gr : (Nat → Nat) × Nat) :
    (sweepFrom w h 0 1).foldl (refVisit c lit w h) gr = refTick (refDraw c) lit w h gr := by
  rw [sweepFrom_start, List.foldl_flatMap]
  simp only [columnFrom, List.foldl_map]
  rfl

/-! ### STEP against the reference tick -/

section
variable {c : Config} {s t : State}

/-- A visit of a source in a sound state goes on, in a sound state, with the grid and the RNG state
of the reference tick's visit. -/
theorem visitSource_refines {p : Nat × Nat} (hw : c.wf = true) (h : DataSound c s)
    (hc : s.cfg = true) (hp : IsSource s p) :
    ∃ g rng, visitSource c p.1 p.2 s = .goOn { s with grid := g, rng := rng } ∧
      DataSound c { s with grid := g, rng := rng } ∧
      (gridRead g, rng) =
        refVisit c s.lit (fieldW s) (fieldH s) (gridRead s.grid, s.rng) p := by
  have hcell := hp.cell_lt
  by_cases hv : gridRead s.grid (cellAt s p.1 p.2) = 0
  · refine ⟨_, s.rng, visitSource_of_zero hv,
      h.writeCell hw hc (Nat.sub_lt_of_lt hcell) (Nat.zero_le _), ?_⟩
    rw [gridRead_gridWrite]
    exact (refCell_of_zero (gr := (gridRead s.grid, s.rng)) hv).symm
  · have hlevel := h.levels hc _ hcell
    refine ⟨_, _, visitSource_of_nonzero hw h hc hp hv,
      h.writeCell hw hc (signedDest_lt (Nat.zero_lt_of_lt hcell) ..) ((Nat.sub_le ..).trans hlevel),
      ?_⟩
    rw [gridRead_gridWrite]
    exact (refCell_of_nonzero (gr := (gridRead s.grid, s.rng)) hv).symm

theorem visitAll_refines {ps : List (Nat × Nat)} (hw : c.wf = true) (h : DataSound c s)
    (hc : s.cfg = true) (hps : ∀ p ∈ ps, IsSource s p) :
    ∃ g rng, visitAll c ps s = .goOn { s with grid := g, rng := rng } ∧
      DataSound c { s with grid := g, rng := rng } ∧
      (gridRead g, rng) =
        ps.foldl (refVisit c s.lit (fieldW s) (fieldH s)) (gridRead s.grid, s.rng) := by
  induction ps generalizing s with
  | nil => exact ⟨s.grid, s.rng, rfl, h, rfl⟩
  | cons p ps ih =>
    obtain ⟨hp, hrest⟩ := List.forall_mem_cons.mp hps
    obtain ⟨g, rng, hv, hsound, href⟩ := visitSource_refines hw h hc hp
    simp only [visitAll, hv, List.foldl_cons, ← href]
    exact ih hsound hc hrest

/-- STEP from a sound state with a field completes with OK and leaves the grid and the RNG state of
the reference tick's visits (41_step.md R151, R172). -/
theorem stepCommand_refines (hw : c.wf = true) (h : Inv c s) (hc : s.cfg = true) :
    ∃ g rng, performCommand c .step s = .next (finish .ok { s with grid := g, rng := rng }) ∧
      DataSound c { s with grid := g, rng := rng } ∧
      (gridRead g, rng) = (remainingSources s).foldl
        (refVisit c s.lit (fieldW s) (fieldH s)) (gridRead s.grid, s.rng) := by
  obtain ⟨g, rng, hall, hsound, href⟩ :=
    visitAll_refines hw h.data hc fun _ => isSource_of_mem_remainingSources h
  refine ⟨g, rng, ?_, hsound, href⟩
  rw [performCommand, stepCommand_of_field c hc, hall]
  rfl

/-! ### STEP and `IDX_BITS` -/

/-- A visit does not depend on `IDX_BITS` (41_step.md R167). -/
theorem visitSource_idxBits {n : Nat} {p : Nat × Nat} (hw : c.wf = true)
    (hw' : Config.wf { c with idxBits := n } = true) (hcells : fieldCells s ≤ c.maxCells)
    (hp : IsSource s p) :
    visitSource { c with idxBits := n } p.1 p.2 s = visitSource c p.1 p.2 s := by
  simp only [visitSource]
  rw [spreadHeat_eq _ hw hcells hp.row_above hp.cell_lt,
    spreadHeat_eq (c := { c with idxBits := n }) _ hw' hcells hp.row_above hp.cell_lt]
  rfl

theorem visitAll_idxBits {n : Nat} {ps : List (Nat × Nat)} (hw : c.wf = true)
    (hw' : Config.wf { c with idxBits := n } = true) (hcells : fieldCells s ≤ c.maxCells)
    (hps : ∀ p ∈ ps, IsSource s p) :
    visitAll { c with idxBits := n } ps s = visitAll c ps s := by
  induction ps generalizing s with
  | nil => rfl
  | cons p ps ih =>
    obtain ⟨hp, hrest⟩ := List.forall_mem_cons.mp hps
    simp only [visitAll, visitSource_idxBits hw hw' hcells hp]
    cases hv : visitSource c p.1 p.2 s with
    | ended r => rfl
    | goOn u =>
      have hframe := visitSource_frame hv
      exact ih (by rw [hframe]; exact hcells) (by rw [hframe]; exact hrest)

theorem stepCommand_idxBits {n : Nat} (hw : c.wf = true)
    (hw' : Config.wf { c with idxBits := n } = true) (h : Inv c s) :
    stepCommand { c with idxBits := n } s = stepCommand c s := by
  cases hc : s.cfg with
  | false => simp [stepCommand, needsField, hc]
  | true =>
    rw [stepCommand_of_field _ hc, stepCommand_of_field _ hc, visitAll_idxBits hw hw'
      (h.data.cells_le hc) fun _ => isSource_of_mem_remainingSources h]

/-! ### STEP over zeros -/

/-- Visits of zeros change nothing (41_step.md R174). -/
theorem visitAll_of_zeros {ps : List (Nat × Nat)} (h : DataSound c s)
    (hz : ∀ i, i < fieldCells s → gridRead s.grid i = 0) (hps : ∀ p ∈ ps, IsSource s p) :
    visitAll c ps s = .goOn s := by
  induction ps with
  | nil => rfl
  | cons p ps ih =>
    obtain ⟨hp, hrest⟩ := List.forall_mem_cons.mp hps
    have hcell := hp.cell_lt
    simp only [visitAll, visitSource_of_zero (hz _ hcell),
      gridWrite_zero h.grid (hz _ (Nat.sub_lt_of_lt hcell))]
    exact ih hrest

/-- A field of one row has no source (41_step.md R171). -/
theorem sweepFrom_one_row (w : Nat) : sweepFrom w 1 0 1 = [] := by
  rw [sweepFrom_start]
  exact List.flatMap_eq_nil_iff.mpr fun x _ => columnFrom_nil (le_refl 1)

/-! ### The halt on an illegal level -/

theorem visitAll_append {ps qs : List (Nat × Nat)} (h : visitAll c ps s = .goOn t) :
    visitAll c (ps ++ qs) s = visitAll c qs t := by
  induction ps generalizing s with
  | nil => cases h; rfl
  | cons p ps ih =>
    simp only [visitAll, List.cons_append] at h ⊢
    cases hv : visitSource c p.1 p.2 s with
    | goOn u => rw [hv] at h; exact ih h
    | ended r => rw [hv] at h; cases h

theorem renderPixels_add {n m i : Nat} (h : renderPixels c n i s = .goOn t) :
    renderPixels c (n + m) i s = renderPixels c m (i + n) t := by
  induction n generalizing i s with
  | zero => cases h; rw [Nat.zero_add, Nat.add_zero]
  | succ n ih =>
    rw [Nat.add_right_comm, ← Nat.add_assoc, Nat.add_right_comm i]
    simp only [renderPixels] at h ⊢
    cases hv : renderPixel c i s with
    | goOn u => rw [hv] at h; exact ih h
    | ended r => rw [hv] at h; cases h

/-- STEP halts at a source above 36 that stands after sources it has visited (41_step.md R173). -/
theorem stepCommand_halts {ps qs : List (Nat × Nat)} {x y : Nat} (hc : s.cfg = true)
    (hleft : remainingSources s = ps ++ (x, y) :: qs) (hps : visitAll c ps s = .goOn t)
    (hv : maxLevel < gridRead t.grid (cellAt s x y)) : stepCommand c s = raiseFatal t := by
  have hcell : cellAt t x y = cellAt s x y := by rw [visitAll_frame hps]; rfl
  rw [stepCommand_of_field c hc, hleft, visitAll_append hps, visitAll,
    visitSource_of_illegal (by rwa [hcell])]
  rfl

/-- The next piece of a STEP halts at a source above 36 (41_step.md R173; 10_state.md R48). -/
theorem stepPiece_halts {x y : Nat} (hc : s.cfg = true) (hcur : s.cursor = .step x y)
    (hx : x < fieldW s) (hy : y < fieldH s) (hv : maxLevel < gridRead s.grid (cellAt s x y)) :
    stepPiece c s = raiseFatal s := by
  obtain ⟨ps, hleft⟩ : ∃ ps, remainingSources s = (x, y) :: ps := by
    simp only [remainingSources, stepPosition, hcur, sweepFrom, if_pos hx, columnFrom_cons hy]
    exact ⟨_, rfl⟩
  rw [stepPiece, needsField, if_pos hc, hleft]
  simp only [visitSource_of_illegal hv]

/-- A level above 36 has no colour, and halts the block (42_render.md R196). -/
theorem renderPixel_of_illegal {i : Nat} (h : maxLevel < gridRead s.grid i) :
    renderPixel c i s = .ended (raiseFatal s) := by
  have hcolor : colorOf c (gridRead s.grid i) = none := by
    rw [colorOf, if_neg (by omega), if_neg (by omega), if_neg (by omega)]
  rw [renderPixel, hcolor]

/-- RENDER halts at a cell above 36 that stands after pixels it has written (42_render.md R196). -/
theorem renderCommand_halts {i : Nat} (hc : s.cfg = true) (hcur : s.cursor = .idle)
    (hl : RenderLegal c s) (hi : i < fieldCells s) (hpixels : renderPixels c i 0 s = .goOn t)
    (hv : maxLevel < gridRead s.grid i) : renderCommand c s = raiseFatal t := by
  have hgrid : t.grid = s.grid := by rw [renderPixels_frame hpixels]
  have hpos : renderPosition s = 0 := by simp only [renderPosition, hcur]
  have hleft : fieldCells s - 0 = i + ((fieldCells s - (i + 1)) + 1) := by omega
  rw [renderCommand_of_legal hc hl, hpos, hleft, renderPixels_add hpixels, renderPixels,
    Nat.zero_add, renderPixel_of_illegal (by rwa [hgrid])]
  rfl

/-- The bus answers `ok` to a pixel write among its first answers if those all are `ok`. -/
theorem answerTo_of_take {i j : Nat} (h : ∀ a, a ∈ s.busAnswers.take i → a = .ok) (hj : j < i) :
    answerTo s j = .ok := by
  rw [answerTo_eq]
  cases ha : s.busAnswers[j]? with
  | none => rfl
  | some a => exact h a (List.mem_of_getElem? ((List.getElem?_take_of_lt hj).trans ha))

end

/-! ### The statements -/

/-- Settles O26: from an idle cursor the sources left are the reference tick's. -/
theorem stepRefinesTheReferenceTick : Obligations.StepRefinesTheReferenceTick := by
  intro c s hw hinv hc hcur
  obtain ⟨g, rng, hstep, _, href⟩ := stepCommand_refines hw hinv hc
  have hall : remainingSources s = sweepFrom (fieldW s) (fieldH s) 0 1 := by
    simp only [remainingSources, stepPosition, hcur]
  rw [hall, foldl_refVisit_sweepFrom] at href
  exact ⟨_, hstep, fun i _ => congrFun (congrArg Prod.fst href) i, congrArg Prod.snd href⟩

/-- Settles O24: the levels stay legal by the invariant, and STEP changes a cell of the field or
none. -/
theorem stepCompletesAndKeepsTheRest : Obligations.StepCompletesAndKeepsTheRest := by
  intro s hinv hc
  obtain ⟨g, rng, hstep, hsound, _⟩ := stepCommand_refines chip_wf hinv hc
  refine ⟨g, rng, hstep, hsound.levels hc, fun i hi => ?_⟩
  by_contra hne
  obtain ⟨_, _, hcell⟩ := performCommand_cell hinv hstep hne
  exact Nat.not_lt_of_le hi hcell

/-- Settles O25, by the signed form of the destination and its use in every visit. -/
theorem destinationHasItsSignedForm : Obligations.DestinationHasItsSignedForm := by
  refine ⟨fun c w h s r k hw hpos hcells hrow hlast hr hk => ?_,
    fun c n s hw hw' hinv => stepCommand_idxBits hw hw' hinv⟩
  have hn : 0 < w * h := by omega
  rw [clampDest_wrappedDest hw hcells hrow (by omega) hr hk, signedDest, Nat.cast_pred hn]

/-- Settles O28: Lit, the rows are one and take no draw. -/
theorem litSourceMovesOneRowUp : Obligations.LitSourceMovesOneRowUp := by
  intro c s x y hw hinv hc hlit hx hy hyh hv
  have hvisit := visitSource_of_nonzero (p := (x, y)) hw hinv.data hc ⟨hx, hy, hyh⟩ hv
  simp only [refRows_of_lit hlit, signedDest, Nat.cast_one, mul_one] at hvisit
  exact ⟨_, hvisit, congrFun (gridRead_gridWrite ..)⟩

/-- Settles O29: Unlit, the rows are a second draw. -/
theorem unlitSourceMovesRand2RowsUp : Obligations.UnlitSourceMovesRand2RowsUp := by
  intro c s x y hw hinv hc hlit hx hy hyh hv
  have hvisit := visitSource_of_nonzero (p := (x, y)) hw hinv.data hc ⟨hx, hy, hyh⟩ hv
  simp only [refRows_of_unlit hlit] at hvisit
  exact ⟨_, hvisit, congrFun (gridRead_gridWrite ..)⟩

/-- Settles O31: visits of zeros change nothing, and no visit of the reference tick raises a level
above a bound. -/
theorem noStepRaisesTheLargestLevel : Obligations.NoStepRaisesTheLargestLevel := by
  refine ⟨fun s hinv hc hz => ?_, fun s t m hinv hc h hm => ?_⟩
  · have hall := visitAll_of_zeros (c := Config.chip) hinv.data hz
      fun _ => isSource_of_mem_remainingSources hinv
    have hstep := stepCommand_of_field Config.chip hc
    rw [hall] at hstep
    exact hstep
  · obtain ⟨g, rng, hstep, _, href⟩ := stepCommand_refines chip_wf hinv hc
    obtain rfl := Host.Outcome.next.inj (hstep.symm.trans h)
    have hgrid : gridRead g = _ := congrArg Prod.fst href
    rw [finish_grid, hgrid]
    exact foldl_refVisit_le hm fun _ hp => (isSource_of_mem_remainingSources hinv hp).cell_lt

/-- Settles O33: STEP halts at the source after the visits made, its next piece at the source it is
at, and RENDER at the pixel after those written. -/
theorem illegalLevelsHaltTheBlock : Obligations.IllegalLevelsHaltTheBlock := by
  refine ⟨fun s u done todo x y hc hleft hdone hv => ?_,
    fun s rest x y he hb hf hd hc hcur hx hy hv => ?_,
    fun s i hc hcur hl hi hlevels hv hans => ?_⟩
  · rw [← performCommand_chip, performCommand, stepCommand_halts hc hleft hdone hv,
      visitAll_frame hdone]
    rfl
  · have hpiece : step s = stepPiece Config.chip { s with events := rest } := by
      rw [step_of_event he]
      simp [respond, advanceMove, inFlight, hb, hf, hd]
    exact hpiece.trans (stepPiece_halts (s := { s with events := rest }) hc hcur hx hy hv)
  · have hok (j : Nat) (hj : j < i) := answerTo_of_take hans hj
    obtain ⟨u, hu⟩ := renderPixels_of_answeredOk (c := Config.chip) (i := 0) (n := i)
      (fun j hj => colorOf_isSome _ (hlevels _ (by omega))) fun j hj => by rw [hok j hj]; rfl
    refine ⟨u.mem, u.busAnswers, u.busLog, ?_, fun j hj => ?_, fun a ha => ?_⟩
    · rw [← performCommand_chip, performCommand, renderCommand_halts hc hcur hl hi hu hv,
        renderPixels_frame hu]
      rfl
    · obtain ⟨p, hp, hheld⟩ := renderPixels_writes hu hj
      rw [Nat.zero_add] at hp hheld
      rw [hok j hj] at hheld
      exact ⟨p, hp, hheld.readWord⟩
    · exact renderPixels_outside (t := finish .ok u) (by rw [hu]; rfl)
        (by simpa [renderBase] using ha)

/-- Settles O27: a source outside of row 0 lies W cells or more into the grid. -/
theorem zeroSourceClearsTheCellAbove : Obligations.ZeroSourceClearsTheCellAbove :=
  fun _ s x _ hy hv => ⟨_, visitSource_of_zero hv, fieldW_le_cellAt s x hy,
    congrFun (gridRead_gridWrite ..)⟩

/-- Settles O30: a field of one row has no source, and in a field of one column the destination one
row up, drifted by 1, is the source. -/
theorem degenerateSizes : Obligations.DegenerateSizes := by
  refine ⟨fun s hc hh hcur => ?_, fun m src hsrc hm => ?_⟩
  · have hleft : remainingSources s = [] := by
      simp only [remainingSources, stepPosition, hcur, fieldH, hh, sweepFrom_one_row]
    have hstep := stepCommand_of_field Config.chip hc
    rw [hleft] at hstep
    exact hstep
  · have hm : m < 65536 := hm
    have hdest : wrappedDest Config.chip 1 src 0 1 = src := by
      change (((src : Int) - (0 : Nat) + 1 - (1 : Nat) * (1 : Nat)) % 2 ^ 32).toNat = src
      omega
    rw [hdest, clampDest, if_neg (Nat.not_lt_of_le hsrc)]

/-- Settles O32: the draw is the model's by definition, and for 32-bit words each band of the
quantizer starts at its threshold divided by six, rounded up. -/
theorem drawsAreQuantizedRngWords : Obligations.DrawsAreQuantizedRngWords := by
  refine ⟨fun c s => ⟨rfl, refDraw_eq c s⟩, fun m hm => ?_⟩
  simp only [← BitVec.toNat_inj, quantize_toNat]
  split_ifs <;> simp <;> omega

end Sys2Proof.Machine

/-! What a RENDER leaves when no host races its writes (42_render.md R192 to R199): the code of the
first check that fails, the colours of the pixels written, and the pixel at which the bus fails. -/

namespace Sys2Proof.Machine

section
variable {c : Config} {s t : State}

/-! ### The checks -/

/-- With a field, the first check that fails ends the RENDER with its code and nothing written
(42_render.md R192). -/
theorem exec_render_of_check {code : Completion} (hc : s.cfg = true)
    (h : renderCheck Config.chip s = some code) :
    exec .render s = .next (finish code s) := by
  rw [← performCommand_chip, performCommand, renderCommand, renderGuard, needsField, if_pos hc, h]
  rfl

/-! ### The pixels written -/

/-- Pixel writes take the bus's answers one by one. -/
theorem answerTo_renderPixels {n i : Nat} (h : renderPixels c n i s = .goOn t) (j : Nat) :
    answerTo t j = answerTo s (n + j) := by
  induction n generalizing i s with
  | zero => cases h; rw [Nat.zero_add]
  | succ n ih =>
    obtain ⟨p, _, _, hrest⟩ := renderPixels_succ_goOn h
    rw [ih hrest, answerTo_busWritePixel, Nat.add_right_comm]

/-- A pixel whose write is answered `ok` without a race holds its cell's colour (42_render.md
R193). -/
theorem renderPixels_colour {n j : Nat} (h : renderPixels c n 0 s = .goOn t) (hj : j < n)
    (hans : answerTo s j = .ok) :
    ∃ p, colorOf c (gridRead s.grid j) = some p ∧ HoldsPixel t.mem (renderBase s + 4 * j) p := by
  obtain ⟨p, hp, hheld⟩ := renderPixels_writes h hj
  rw [hans, Nat.zero_add] at hheld
  rw [Nat.zero_add] at hp
  exact ⟨p, hp, hheld⟩

/-- After a successful RENDER that no host races, the word at cell `i`'s pixel is its colour's four
bytes, R the least significant (42_render.md R193; 20_memory.md R64). -/
theorem exec_render_word {i : Nat} {p : Pixel} (hcur : s.cursor = .idle)
    (hans : ∀ a, a ∈ s.busAnswers → a = .ok) (h : exec .render s = .next t) (hok : t.err = .ok)
    (hi : i < fieldCells s) (hp : colorOf Config.chip (gridRead s.grid i) = some p) :
    memReadWord t.mem (renderBase s + 4 * i) = some (p.a ++ p.b ++ p.g ++ p.r) := by
  obtain ⟨_, _, u, hu, rfl⟩ := renderCommand_ok h hok
  have hpos : renderPosition s = 0 := by simp only [renderPosition, hcur]
  rw [hpos] at hu
  have hquiet : answerTo s i = .ok :=
    answerTo_of_take (fun a ha => hans a (List.mem_of_mem_take ha)) (Nat.lt_succ_self i)
  obtain ⟨q, hq, hheld⟩ := renderPixels_colour hu hi hquiet
  obtain rfl := Option.some.inj (hp.symm.trans hq)
  exact hheld.readWord

/-! ### The pixel at which the bus fails -/

/-- A pixel of a legal level whose write the bus fails ends the RENDER with BUS, with the bytes
the platform left (42_render.md R197). -/
theorem renderPixel_of_busError {i : Nat} {left : Pixel}
    (hcolor : (colorOf c (gridRead s.grid i)).isSome = true) (hans : nextAnswer s = .error left) :
    ∃ u, renderPixel c i s = .ended (raiseError .bus u) ∧
      u = { s with mem := u.mem, busAnswers := u.busAnswers, busLog := u.busLog } ∧
      u.mem = memWritePixel s.mem (renderBase s + 4 * i) left := by
  rcases renderPixel_cases c i s with ⟨hp, _⟩ | ⟨p, _, ⟨ha, _⟩ | ⟨_, e⟩⟩
  · simp [hp] at hcolor
  · rw [hans] at ha; cases ha
  · exact ⟨_, e, rfl, by rw [busWritePixel_state, hans]; rfl⟩

/-- A RENDER ends as its first pixel that ends it does. -/
theorem renderCommand_ends {i : Nat} {r : Result} (hc : s.cfg = true) (hcur : s.cursor = .idle)
    (hl : RenderLegal c s) (hi : i < fieldCells s) (hpixels : renderPixels c i 0 s = .goOn t)
    (hr : renderPixel c i t = .ended r) : renderCommand c s = r := by
  have hpos : renderPosition s = 0 := by simp only [renderPosition, hcur]
  have hleft : fieldCells s - 0 = i + ((fieldCells s - (i + 1)) + 1) := by omega
  rw [renderCommand_of_legal hc hl, hpos, hleft, renderPixels_add hpixels, renderPixels,
    Nat.zero_add, hr]
  rfl

/-- A RENDER whose pixels below `i` the bus accepts and whose pixel `i` it fails ends with BUS, and
leaves what those `i` writes left but the four bytes of pixel `i` (42_render.md R197). -/
theorem renderCommand_busError {i : Nat} {left : Pixel} (hinv : Inv c s) (hc : s.cfg = true)
    (hcur : s.cursor = .idle) (hl : RenderLegal c s) (hi : i < fieldCells s)
    (hbefore : ∀ j, j < i → answerTo s j = .ok) (hfail : answerTo s i = .error left) :
    ∃ t u, renderPixels c i 0 s = .goOn t ∧ renderCommand c s = .next (finish .bus u) ∧
      u = { s with mem := u.mem, busAnswers := u.busAnswers, busLog := u.busLog } ∧
      u.mem = memWritePixel t.mem (renderBase s + 4 * i) left := by
  have hcolor (j : Nat) (hj : j < fieldCells s) : (colorOf c (gridRead s.grid j)).isSome = true :=
    colorOf_isSome c (hinv.levels hc j hj)
  obtain ⟨t, ht⟩ := renderPixels_of_answeredOk (c := c) (i := 0) (n := i)
    (fun j hj => hcolor _ (by omega)) fun j hj => by rw [hbefore j hj]; rfl
  have hframe := renderPixels_frame ht
  have hgrid : t.grid = s.grid := by rw [hframe]
  have hbase : renderBase t = renderBase s := by rw [hframe]; rfl
  have hnext : nextAnswer t = .error left := by
    rw [← answerTo_zero, answerTo_renderPixels ht, Nat.add_zero, hfail]
  obtain ⟨u, hu, huframe, humem⟩ := renderPixel_of_busError (hgrid.symm ▸ hcolor i hi) hnext
  refine ⟨t, u, ht, renderCommand_ends hc hcur hl hi ht hu, ?_, hbase ▸ humem⟩
  rw [hframe] at huframe
  exact huframe

/-- The answers to a RENDER that the bus fails at pixel `i`. -/
theorem answerTo_of_failure {i : Nat} {left : Pixel}
    (h : s.busAnswers.take (i + 1) = List.replicate i .ok ++ [.error left]) :
    (∀ j, j < i → answerTo s j = .ok) ∧ answerTo s i = .error left := by
  have htake (j : Nat) (hj : j < i + 1) :
      answerTo s j = (List.replicate i BusAnswer.ok ++ [.error left])[j]?.getD .ok := by
    rw [answerTo_eq, ← h, List.getElem?_take_of_lt hj]
  refine ⟨fun j hj => ?_, ?_⟩
  · rw [htake j (by omega), List.getElem?_append_left (by simpa using hj)]
    simp [hj]
  · rw [htake i (by omega)]
    simp

/-! ### The field after NEW and IGNITE -/

/-- IGNITE on a new field leaves 36 in its last W cells and 0 in the others (40_lifecycle.md R121,
R126). -/
theorem gridRead_litNewField {i : Nat} (hi : i < newWidth s * newHeight s) :
    gridRead (lightBottomRow (finish .ok (buildField c s))).grid i =
      if i < newWidth s * (newHeight s - 1) then 0 else maxLevel := by
  have hclear : gridRead (buildField c s).grid i = 0 := (gridRead_clear ..).trans (if_pos hi)
  have hlast : (newHeight s - 1) * newWidth s + newWidth s = newWidth s * newHeight s := by
    rw [← Nat.succ_mul, Nat.succ_eq_add_one, Nat.sub_add_cancel (Nat.pos_of_lt_mul_left hi),
      Nat.mul_comm]
  have hlit := gridRead_lightBottomRow (finish .ok (buildField c s)) i
  rw [Nat.mul_comm (newWidth s) (newHeight s - 1)]
  split_ifs with habove
  · exact hlit.trans ((if_neg fun hrow => Nat.not_lt_of_le hrow.1 habove).trans hclear)
  · exact hlit.trans (if_pos ⟨Nat.le_of_not_lt habove, Nat.lt_of_lt_of_eq hi hlast.symm⟩)

end

/-! ### The statements -/

/-- Settles O36: the first check that fails answers for the RENDER. -/
theorem renderChecksItsBufferInOrder : Obligations.RenderChecksItsBufferInOrder := by
  refine fun s => ⟨exec_noField (by decide),
    fun hc hlen => exec_render_of_check hc (if_pos hlen),
    fun hc hlen halign => exec_render_of_check hc ?_,
    fun hc hlen halign haddr => exec_render_of_check hc ?_⟩
  · exact (if_neg (not_not.mpr hlen)).trans (if_pos halign)
  · exact (if_neg (not_not.mpr hlen)).trans ((if_neg (not_not.mpr halign)).trans (if_pos haddr))

/-- Settles O34: the loop gets through every pixel, and each holds its cell's colour. -/
theorem renderWritesEveryPixel : Obligations.RenderWritesEveryPixel := by
  intro s hinv hc hcur hl hans
  have hok (j : Nat) (hj : j < fieldCells s) := answerTo_of_take hans hj
  obtain ⟨u, hu, hrender⟩ := renderCommand_completes hinv hc hcur hl fun j hj => by
    rw [hok j hj]; rfl
  refine ⟨u.mem, u.busAnswers, u.busLog, hrender.trans ?_, fun i hi => ?_, fun a ha => ?_⟩
  · rw [renderPixels_frame hu]
    rfl
  · obtain ⟨p, hp, hheld⟩ := renderPixels_colour hu hi (hok i hi)
    exact ⟨p, hp, hheld.r, hheld.g, hheld.b, hheld.a⟩
  · obtain ⟨hlen, _, _⟩ := renderCheck_none hl.1
    have hend : renderLen s = s.argl1.toNat := rfl
    have hstart : renderBase s = s.argl0.toNat := rfl
    exact renderPixels_outside (t := finish .ok u) (by rw [hu]; rfl) (by omega)

/-- Settles O38: the pixels below `i` are the loop's, and the failed write touches pixel `i`
alone. -/
theorem busErrorStopsTheRender : Obligations.BusErrorStopsTheRender := by
  intro s i left hinv hc hcur hl hi hans
  obtain ⟨hbefore, hfail⟩ := answerTo_of_failure hans
  obtain ⟨t, u, ht, hrender, hframe, hmem⟩ :=
    renderCommand_busError hinv hc hcur hl hi hbefore hfail
  have hfailed : HoldsPixel u.mem (renderBase s + 4 * i) left := hmem ▸ holdsPixel_writePixel ..
  have hkept {a : Nat} (ha : a < renderBase s + 4 * i ∨ renderBase s + 4 * i + 4 ≤ a) :
      memRead u.mem a = memRead t.mem a := by
    rw [hmem, memRead_writePixel_outside _ _ ha]
  refine ⟨u.mem, u.busAnswers, u.busLog, hrender.trans ?_, fun j hj => ?_, hfailed.r, hfailed.g,
    hfailed.b, hfailed.a, fun a ha => ?_⟩
  · rw [hframe]
    rfl
  · obtain ⟨p, hp, hwritten⟩ := renderPixels_colour ht hj (hbefore j hj)
    have hheld := hwritten.of_kept fun k _ hk => hkept (a := k) (.inl (by omega))
    exact ⟨p, hp, hheld.r, hheld.g, hheld.b, hheld.a⟩
  · have hstart : renderBase s = s.argl0.toNat := rfl
    exact (hkept (by omega)).trans
      (renderPixels_outside (t := finish .ok t) (by rw [ht]; rfl) (by omega))

/-- Settles O40: every pixel is the one level's colour. -/
theorem uniformFieldRendersUniformly : Obligations.UniformFieldRendersUniformly := by
  intro s t l p _ _ hcur hlevel hp hans h hok i hi
  exact exec_render_word hcur hans h hok hi (by rw [hlevel i hi, hp])

/-- Settles O41: each pixel is the colour of its cell's level, 0 above the bottom row and 36 in
it. -/
theorem frameAfterIgnite : Obligations.FrameAfterIgnite := by
  intro s t u v base len hnew hok hignite hans h hokv i hi
  obtain rfl := newCommand_ok hnew hok
  obtain rfl := Host.Outcome.next.inj ((exec_ignite_of_field rfl).symm.trans hignite)
  have hlevel := gridRead_litNewField (c := Config.chip) hi
  have hword {l : Nat} (p : Pixel)
      (hl : gridRead (lightBottomRow (finish .ok (buildField Config.chip s))).grid i = l)
      (hp : colorOf Config.chip l = some p) :
      memReadWord v.mem (base.toNat + 4 * i) = some (p.a ++ p.b ++ p.g ++ p.r) := by
    refine exec_render_word ?_ ?_ h hokv hi (hl ▸ hp)
    · rfl
    · exact hans
  split_ifs with habove
  · exact hword ⟨0x07, 0x07, 0x07, 0xFF⟩ (hlevel.trans (if_pos habove)) rfl
  · exact hword ⟨0xFF, 0xFF, 0xFF, 0xFF⟩ (hlevel.trans (if_neg habove)) rfl

end Sys2Proof.Machine

/-! What PEEK and POKE leave on each path of their checks: no field, an index outside of the field
or an illegal value, and the one cell read or written (43_debug.md R221, R226). -/

namespace Sys2Proof.Machine

section
variable {s : State}

/-! ### The answer of each command -/

/-- PEEK of a cell of the field reads it into RESULT (43_debug.md R221). -/
theorem exec_peek_of_cell (hc : s.cfg = true) (hi : cellIndex s < fieldCells s) :
    exec .peek s =
      .next (finish .ok { s with result := BitVec.ofNat 32 (gridRead s.grid (cellIndex s)) }) :=
  (if_pos hc).trans (if_neg (Nat.not_le_of_lt hi))

/-- PEEK outside of the field ends with RANGE (43_debug.md R221). -/
theorem exec_peek_of_outside (hc : s.cfg = true) (hi : fieldCells s ≤ cellIndex s) :
    exec .peek s = .next (finish .range s) :=
  (if_pos hc).trans (if_pos hi)

/-- POKE of a legal value to a cell of the field writes the low six bits, which are that value
(43_debug.md R226). -/
theorem exec_poke_of_cell (hc : s.cfg = true) (hi : cellIndex s < fieldCells s)
    (hv : pokeValue s ≤ maxLevel) :
    exec .poke s =
      .next (finish .ok { s with grid := gridWrite s.grid (cellIndex s) (pokeValue s) }) := by
  have hbits : pokeValue s % 2 ^ 6 = pokeValue s :=
    Nat.mod_eq_of_lt (Nat.lt_of_le_of_lt hv (by decide))
  have hlegal : ¬(fieldCells s ≤ cellIndex s ∨ maxLevel < pokeValue s) :=
    not_or.mpr ⟨Nat.not_le_of_lt hi, Nat.not_lt_of_le hv⟩
  rw [← performCommand_chip, performCommand, execPoke, needsField, if_pos hc, if_neg hlegal,
    hbits, completeOk]

/-- POKE outside of the field, or of a word above 36, ends with RANGE (43_debug.md R226). -/
theorem exec_poke_of_illegal (hc : s.cfg = true)
    (h : fieldCells s ≤ cellIndex s ∨ maxLevel < pokeValue s) :
    exec .poke s = .next (finish .range s) :=
  (if_pos hc).trans (if_pos h)

/-- A level of the field survives zero-extension to a word in a sound state (10_state.md R41). -/
theorem Inv.toNat_ofNat_level {c : Config} {i : Nat} (h : Inv c s) (hc : s.cfg = true)
    (hi : i < fieldCells s) :
    (BitVec.ofNat 32 (gridRead s.grid i)).toNat = gridRead s.grid i := by
  have hlevel : gridRead s.grid i < 2 ^ 32 := Nat.lt_of_le_of_lt (h.levels hc i hi) (by decide)
  rw [BitVec.toNat_ofNat, Nat.mod_eq_of_lt hlevel]

end

/-! ### The statements -/

/-- Settles O42: the cell read is a level of the field, so the word in RESULT is that number. -/
theorem peekReadsOneCell : Obligations.PeekReadsOneCell := by
  refine fun s => ⟨fun hc hi => ?_, exec_peek_of_outside, exec_noField (by decide)⟩
  exact ⟨_, rfl, fun hinv => hinv.toNat_ofNat_level hc hi, exec_peek_of_cell hc hi⟩

/-- Settles O43: the value that passes the check of the full word is the one written. -/
theorem pokeWritesOneCell : Obligations.PokeWritesOneCell := by
  refine fun s => ⟨fun hc hi hv => ?_, exec_poke_of_illegal, exec_noField (by decide)⟩
  exact ⟨_, exec_poke_of_cell hc hi hv, congrFun (gridRead_gridWrite ..)⟩

end Sys2Proof.Machine

/-! How commands end (60_exceptions.md R240 to R253): with one of their codes, in the fault of STEP
and RENDER, which no sound state reaches, or in the refusal of a RENDER; and what a command that
fails and a block that has halted leave as it was. -/

namespace Sys2Proof.Machine

section
variable {c : Config} {s t : State}

/-! ### The answers of a command -/

theorem needsField_next {body : Result} (h : ∃ t, body = .next t) :
    ∃ t, needsField s body = .next t := by
  rcases needsField_cases s body with ⟨_, e⟩ | ⟨_, e⟩ <;> rw [e]
  · exact ⟨_, rfl⟩
  · exact h

/-- Everything a command can answer: its end, the fault of a STEP or a RENDER, or the refusal of a
RENDER (60_exceptions.md R242, R252, R263). -/
theorem performCommand_cases (c : Config) (i : Instr) (s : State) :
    (∃ t, performCommand c i s = .next t) ∨
    ((i = .step ∨ i = .render) ∧ ∃ u, performCommand c i s = raiseFatal u) ∨
    (i = .render ∧ performCommand c i s = .refused .renderOutsideSpec) := by
  cases i with
  | step =>
    rcases stepCommand_cases c s with ⟨_, e⟩ | ⟨_, t, _, e⟩ | ⟨_, r, hr, e⟩
    · exact .inl ⟨_, e⟩
    · exact .inl ⟨_, e⟩
    · obtain ⟨g, rng, rfl⟩ := visitAll_ended hr
      exact .inr (.inl ⟨.inl rfl, _, e⟩)
  | render =>
    rcases renderCommand_cases c s with
      ⟨_, e⟩ | ⟨_, code, _, e⟩ | ⟨_, _, _, e⟩ | ⟨_, _, t, _, e⟩ | ⟨_, _, r, hr, e⟩
    · exact .inl ⟨_, e⟩
    · exact .inl ⟨_, e⟩
    · exact .inr (.inr ⟨rfl, e⟩)
    · exact .inl ⟨_, e⟩
    · obtain ⟨m, ans, log, rfl | rfl⟩ := renderPixels_ended hr
      · exact .inr (.inl ⟨.inr rfl, _, e⟩)
      · exact .inl ⟨_, e⟩
  | new =>
    rcases newCommand_cases c s with ⟨_, e⟩ | ⟨_, e⟩
    · exact .inl ⟨_, e⟩
    · exact .inl ⟨_, e⟩
  | ignite => exact .inl (needsField_next ⟨_, rfl⟩)
  | extinguish => exact .inl (needsField_next ⟨_, rfl⟩)
  | islit => exact .inl (needsField_next ⟨_, rfl⟩)
  | peek =>
    refine .inl (needsField_next ?_)
    split <;> exact ⟨_, rfl⟩
  | poke =>
    refine .inl (needsField_next ?_)
    split <;> exact ⟨_, rfl⟩

/-! ### The pixel at which a RENDER ends early -/

/-- A pixel loop that ends the command has got through the pixels below the one that ends it. -/
theorem renderPixels_ended_at {n i : Nat} {r : Result} (h : renderPixels c n i s = .ended r) :
    ∃ k u, k < n ∧ renderPixels c k i s = .goOn u ∧ renderPixel c (i + k) u = .ended r := by
  induction n generalizing i s with
  | zero => cases h
  | succ n ih =>
    simp only [renderPixels] at h
    cases hv : renderPixel c i s with
    | ended r' => exact ⟨0, s, Nat.succ_pos n, rfl, by rw [hv] at h; cases h; exact hv⟩
    | goOn s' =>
      rw [hv] at h
      obtain ⟨k, u, hk, hu, hr⟩ := ih h
      refine ⟨k + 1, u, Nat.succ_lt_succ hk, ?_, ?_⟩
      · simpa only [renderPixels, hv] using hu
      · rwa [Nat.add_right_comm, Nat.add_assoc] at hr

/-- The writes of the pixels that a RENDER goes on from were answered `ok`. -/
theorem answeredOk_of_renderPixels {n i j : Nat} (h : renderPixels c n i s = .goOn t)
    (hj : j < n) : answeredOk (answerTo s j) = true := by
  induction n generalizing i j s with
  | zero => omega
  | succ n ih =>
    obtain ⟨p, _, ha, hrest⟩ := renderPixels_succ_goOn h
    cases j with
    | zero => rwa [answerTo_zero]
    | succ j => exact answerTo_busWritePixel (renderBase s + 4 * i) p s j ▸ ih hrest (by omega)

/-- What an accepted write of cell `i`'s pixel leaves when the bus gives it its answer `j`: the draw
of a race, or the cell's colour (42_render.md R193; 70_reset_and_hazards.md R289). -/
def LandsAs (c : Config) (s : State) (i j : Nat) (p : Pixel) : Prop :=
  s.busAnswers[j]? = some (.raced p) ∨
    (∀ l, s.busAnswers[j]? ≠ some (.raced l)) ∧ colorOf c (gridRead s.grid i) = some p

theorem renderPixels_landsAs {n i j : Nat} (h : renderPixels c n i s = .goOn t) (hj : j < n) :
    ∃ p, HoldsPixel t.mem (renderBase s + 4 * (i + j)) p ∧ LandsAs c s (i + j) j p := by
  obtain ⟨p, hp, hheld⟩ := renderPixels_writes h hj
  exact ⟨_, hheld, (landedPixel_of_answeredOk p (answeredOk_of_renderPixels h hj)).imp_right
    fun ⟨hquiet, hland⟩ => ⟨hquiet, hland.symm ▸ hp⟩⟩

/-- A RENDER that ends with BUS passed its checks, got through the pixels from its position on, and
failed at the write of the next (42_render.md R197). -/
theorem renderCommand_bus (h : renderCommand c s = .next t) (hbus : t.err = .bus) :
    RenderLegal c s ∧ ∃ k u p, k < fieldCells s - renderPosition s ∧
      renderPixels c k (renderPosition s) s = .goOn u ∧
      t.mem = memWritePixel u.mem (renderBase s + 4 * (renderPosition s + k)) p := by
  rcases renderCommand_cases c s with
    ⟨_, e⟩ | ⟨_, code, hk, e⟩ | ⟨_, _, _, e⟩ | ⟨_, _, u, _, e⟩ | ⟨_, hl, r, hr, e⟩ <;>
    have h := e.symm.trans h
  · cases h; cases hbus
  · cases h
    rcases renderCheck_code hk with rfl | rfl | rfl <;> cases hbus
  · cases h
  · cases h; cases hbus
  · obtain ⟨k, u, hk, hu, hlast⟩ := renderPixels_ended_at hr
    have hbase : renderBase u = renderBase s := by rw [renderPixels_frame hu]; rfl
    rcases renderPixel_cases c (renderPosition s + k) u with
      ⟨_, e'⟩ | ⟨p, _, ⟨_, e'⟩ | ⟨_, e'⟩⟩ <;> cases e'.symm.trans hlast <;> cases h
    exact ⟨hl, k, u, _, hk, hu, by rw [← hbase]; rfl⟩

/-- What a RENDER that ends with BUS leaves in host memory: the pixels below the failed one as their
accepted writes left them, and every byte outside of those pixels and the failed one as it was
(60_exceptions.md R247). -/
theorem renderCommand_bus_mem (h : renderCommand c s = .next t) (hbus : t.err = .bus) :
    ∃ i, renderPosition s ≤ i ∧ i < fieldCells s ∧
      (∀ j, renderPosition s ≤ j → j < i →
        ∃ p, HoldsPixel t.mem (renderBase s + 4 * j) p ∧ LandsAs c s j (j - renderPosition s) p) ∧
      ∀ a, a < renderBase s + 4 * renderPosition s ∨ renderBase s + 4 * i + 4 ≤ a →
        memRead t.mem a = memRead s.mem a := by
  obtain ⟨_, k, u, left, hk, hu, hmem⟩ := renderCommand_bus h hbus
  have hkept {a : Nat} (ha : a < renderBase s + 4 * (renderPosition s + k) ∨
      renderBase s + 4 * (renderPosition s + k) + 4 ≤ a) : memRead t.mem a = memRead u.mem a := by
    rw [hmem, memRead_writePixel_outside _ _ ha]
  refine ⟨renderPosition s + k, by omega, by omega, fun j hlo hhi => ?_, fun a ha => ?_⟩
  · obtain ⟨d, rfl⟩ := Nat.exists_eq_add_of_le hlo
    obtain ⟨p, hheld, hlands⟩ := renderPixels_landsAs (j := d) hu (by omega)
    rw [Nat.add_sub_cancel_left]
    exact ⟨p, hheld.of_kept fun b _ hb => hkept (.inl (by omega)), hlands⟩
  · exact (hkept (by omega)).trans
      (renderPixels_outside (t := finish .ok u) (by rw [hu]; rfl) (by omega))

/-! ### A sound state does not halt -/

/-- A RENDER from a sound state meets no level above 36 (42_render.md R196; 60_exceptions.md
R251). -/
theorem renderCommand_ne_fatal (h : Inv c s) (u : State) : renderCommand c s ≠ raiseFatal u := by
  intro hfatal
  rcases renderCommand_cases c s with
    ⟨_, e⟩ | ⟨_, code, _, e⟩ | ⟨_, _, _, e⟩ | ⟨_, _, t, _, e⟩ | ⟨hc, _, r, hr, e⟩ <;>
    have hfatal := e.symm.trans hfatal
  · cases hfatal
  · cases hfatal
  · cases hfatal
  · cases hfatal
  · obtain ⟨k, v, hk, hv, hlast⟩ := renderPixels_ended_at hr
    have hgrid : v.grid = s.grid := by rw [renderPixels_frame hv]
    have hcolor := colorOf_isSome c (h.levels hc (renderPosition s + k) (by omega))
    rcases renderPixel_cases c (renderPosition s + k) v with
      ⟨hnone, _⟩ | ⟨p, _, ⟨_, e'⟩ | ⟨_, e'⟩⟩
    · rw [hgrid] at hnone
      simp [hnone] at hcolor
    · cases e'.symm.trans hlast
    · cases e'.symm.trans hlast
      cases hfatal

/-- A STEP from a sound state meets no level above 36 (41_step.md R169; 60_exceptions.md R251). -/
theorem stepCommand_ne_fatal (h : Inv c s) (hw : c.wf = true) (u : State) :
    stepCommand c s ≠ raiseFatal u := by
  intro hfatal
  cases hc : s.cfg with
  | false => rw [stepCommand, needsField, hc] at hfatal; cases hfatal
  | true =>
    obtain ⟨g, rng, hnext, _⟩ := stepCommand_refines hw h hc
    cases hnext.symm.trans hfatal

theorem engineMove_ne_fault (h : Inv c s) (hw : c.wf = true) (f : Fault) :
    engineMove c s ≠ .fault f := by
  intro hfault
  rcases engineMove_cases c s with ⟨_, e⟩ | ⟨_, i, _, e⟩ | ⟨_, _, e⟩ <;>
    have hfault := e.symm.trans hfault
  · cases hfault
  · rcases performCommand_cases c i s with ⟨t, e'⟩ | ⟨rfl | rfl, u, e'⟩ | ⟨_, e'⟩
    · cases e'.symm.trans hfault
    · exact stepCommand_ne_fatal h hw u e'
    · exact renderCommand_ne_fatal h u e'
    · cases e'.symm.trans hfault
  · cases hfault

/-- A move faults only as performing the command in flight whole does. -/
theorem Move.engine_fault {s₀ : State} {r : Result} {f : Fault} (hm : Move c s₀ s r)
    (hr : r = .fault f) : engineMove c s = .fault f := by
  cases hm with
  | engine => exact hr
  | advance =>
    rcases advanceMove_cases c s with
      e | ⟨_, _, _, p, ps, u, _, _, e⟩ | ⟨_, _, _, _, ⟨_, e⟩ | ⟨i, u, _, _, _, e⟩⟩
    · exact e.symm.trans hr
    all_goals cases e.symm.trans hr
  | register off v reply host => cases hr
  | answer reply host => cases hr
  | store m cache => cases hr
  | cache cache => cases hr
  | reset landed => cases hr

/-! ### A command that fails -/

/-- A command that ends with an error changes no state of the block but ERR and BUSY
(60_exceptions.md R247). -/
theorem performCommand_failed {i : Instr} (h : performCommand c i s = .next t)
    (hok : t.err ≠ .ok) :
    t = { s with
      mem := t.mem, busAnswers := t.busAnswers, busLog := t.busLog, err := t.err, busy := false,
      cursor := .idle } := by
  obtain ⟨hframe, hresult, hdims, hcfg, hlit, hgrid, hrng, -⟩ := performCommand_next h
  have hresult : t.result = s.result := by_contra fun hne => hok (hresult hne).2
  have hwidth : t.width = s.width := by_contra fun hne => hok (hdims (.inl hne)).2
  have hheight : t.height = s.height := by_contra fun hne => hok (hdims (.inr hne)).2
  have hcfg : t.cfg = s.cfg := by_contra fun hne => hok (hcfg hne).2.1
  have hlit : t.lit = s.lit := by_contra fun hne => hok (hlit hne).1
  have hgrid : t.grid = s.grid := by_contra fun hne => hok (hgrid hne).2
  have hrng : t.rng = s.rng := by_contra fun hne => hok (hrng hne).2
  rwa [hresult, hwidth, hheight, hcfg, hlit, hgrid, hrng] at hframe

/-- One that ends with an error other than BUS has written no pixel either. -/
theorem performCommand_failed_unwritten {i : Instr} (h : performCommand c i s = .next t)
    (hok : t.err ≠ .ok) (hbus : t.err ≠ .bus) :
    t = { s with err := t.err, busy := false, cursor := .idle } := by
  obtain ⟨-, -, -, -, -, -, -, hwrites, -⟩ := performCommand_next h
  have hkept : ¬(t.mem ≠ s.mem ∨ t.busAnswers ≠ s.busAnswers ∨ t.busLog ≠ s.busLog) := fun hne =>
    (hwrites hne).2.2.2.elim hok hbus
  simp only [not_or, not_not] at hkept
  obtain ⟨hmem, hans, hlog⟩ := hkept
  have hframe := performCommand_failed h hok
  rwa [hmem, hans, hlog] at hframe

/-- RENDER is the one command that ends with BUS (60_exceptions.md R242). -/
theorem eq_render_of_bus {i : Instr} (h : performCommand c i s = .next t) (hbus : t.err = .bus) :
    i = .render := by
  obtain ⟨-, -, -, -, -, -, -, -, hcode⟩ := performCommand_next h
  rw [hbus] at hcode
  cases i <;> simp [codesOf] at hcode ⊢

/-! ### A halted block -/

theorem issueCommand_of_halted {w : Word} (hf : s.fatal = true) : issueCommand w s = s := if_pos hf

end

/-! ### The statements -/

/-- Settles O59: only the engine faults, in STEP and RENDER alone, and their levels are legal. -/
theorem soundStatesNeverHalt : Obligations.SoundStatesNeverHalt := by
  intro c s h hinv hfault
  rcases stepUnder_cases c s with ⟨_, e⟩ | ⟨hw, e⟩ <;> have hfault := e.symm.trans hfault
  · cases hfault
  · exact engineMove_ne_fault (hinv.byHost hinv.mem hinv.cache) hw _
      ((nextMove_move c s).engine_fault hfault)

/-- Settles O45, by everything a command can answer. -/
theorem commandsEndWithTheirCodesOnly : Obligations.CommandsEndWithTheirCodesOnly := by
  intro i s
  have hcases := performCommand_cases Config.chip i s
  rw [performCommand_chip] at hcases
  rcases hcases with ⟨t, h⟩ | ⟨hi, u, h⟩ | hrefused
  · obtain ⟨hframe, hcode⟩ := exec_next h
    exact .inl ⟨t, h, by rw [hframe], hcode⟩
  · exact .inr (.inl ⟨hi, _, h, rfl, rfl, rfl⟩)
  · exact .inr (.inr hrefused)

/-- Settles O46: a command writes the block's state only when it ends with OK, and BUS is a
RENDER's whose pixel loop stopped at pixel `i`. -/
theorem failedCommandsChangeOnlyErr : Obligations.FailedCommandsChangeOnlyErr := by
  intro s t rest he hb hf h
  have hmove : engineMove Config.chip { s with events := rest } = .next t :=
    (step_of_event he).symm.trans h
  rcases engineMove_cases Config.chip { s with events := rest } with
    ⟨hidle, _⟩ | ⟨_, i, hd, e⟩ | ⟨_, _, e⟩
  · simp [inFlight, hb, hf] at hidle
  · have hperform := e.symm.trans hmove
    refine ⟨performCommand_failed_unwritten hperform, fun hbus => ?_⟩
    obtain rfl := eq_render_of_bus hperform hbus
    have hframe := performCommand_failed hperform (by rw [hbus]; decide)
    rw [hbus] at hframe
    obtain ⟨hl, -⟩ := renderCommand_bus hperform hbus
    obtain ⟨hlen, -, -⟩ := renderCheck_none hl.1
    obtain ⟨n, hlo, hhi, hpixels, hkept⟩ := renderCommand_bus_mem hperform hbus
    refine ⟨hframe, hd, hlen, n, hlo, hhi, fun j hj hn => ?_, hkept⟩
    obtain ⟨p, hheld, hlands⟩ := hpixels j hj hn
    exact ⟨p, hheld.readWord, hlands⟩
  · cases e.symm.trans hmove
    exact ⟨fun _ _ => rfl, nofun⟩

/-- Settles O54: the window's accesses by their equations, and FATAL by its own rule. -/
theorem haltedBlockDropsCommands : Obligations.HaltedBlockDropsCommands := by
  intro s rest hf
  obtain ⟨hsticky, -⟩ := fatalIsStickyUntilReset
  refine ⟨fun w h => ?_, fun off ha h => step_alignedRead ha h, fun v h => ?_, fun v h => ?_,
    fun v h => ?_, fun v hv h => (statusWriteClearsOverrun s rest v h).1 hv,
    fun t h hno => (hsticky s t h hno).trans hf⟩
  · have hdropped : issueCommand w { s with events := rest } = { s with events := rest } :=
      issueCommand_of_halted hf
    have hstep : step s = .next { issueCommand w { s with events := rest } with reply := .done } :=
      step_alignedWrite (by decide) h
    rwa [hdropped] at hstep
  · exact step_alignedWrite (by decide) h
  · exact step_alignedWrite (by decide) h
  · exact step_alignedWrite (by decide) h

end Sys2Proof.Machine

/-! Hardware reset during a RENDER (70_reset_and_hazards.md R282). -/

namespace Sys2Proof.Machine

/-- A reset that lands no bytes leaves host memory as it was. -/
theorem memAtReset_none (s : State) : memAtReset none s = s.mem := by
  unfold memAtReset
  split
  · contradiction
  · rfl

/-- A reset that lands bytes writes them at the pixel in flight, and nowhere else. -/
theorem memAtReset_some {s : State} {a : Nat} (p : Pixel) (h : pixelInFlight s = some a) :
    memAtReset (some p) s = memWritePixel s.mem a p := by
  simp only [memAtReset, h]

/-- Settles O56: reset changes at most the pixel the cursor is at, and that pixel holds the bytes
the event carries. -/
theorem resetDuringRenderTearsOnePixel : Obligations.ResetDuringRenderTearsOnePixel := by
  intro s landed rest i he hcur hi
  refine ⟨_, step_of_event he, rfl, rfl, fun a ha => ?_, fun hnone => ?_, fun p hp => ?_⟩
  · by_contra (hne : memRead (memAtReset landed s) a ≠ memRead s.mem a)
    obtain ⟨k, hk, -, hlo, hhi⟩ := memAtReset_mem hne
    obtain rfl : i = k := Cursor.render.inj (hcur.symm.trans hk)
    have hbase : renderBase s = s.argl0.toNat := rfl
    omega
  · subst hnone
    exact memAtReset_none _
  · subst hp
    have hflight : pixelInFlight s = some (renderBase s + 4 * i) :=
      pixelInFlight_iff.mpr ⟨i, hcur, hi, rfl⟩
    have hheld : HoldsPixel (memAtReset (some p) s) (renderBase s + 4 * i) p :=
      memAtReset_some p hflight ▸ holdsPixel_writePixel s.mem _ p
    exact ⟨hheld.r, hheld.g, hheld.b, hheld.a⟩

end Sys2Proof.Machine
